-- ==== Sys2Proof/Word.lean ====
section
/-! DEFINITION. The word types of PMD: the bit vectors the spec gives a width, and nothing else. -/

namespace Sys2Proof

/-- A data byte of the bus port (R30). -/
abbrev Byte := BitVec 8

/-- A register offset of the device's register space (R30, R31). -/
abbrev Reg := BitVec 8

/-- A device address on the two-wire bus (R30). -/
abbrev Addr := BitVec 7

/-- A command word, `CMD_W` = 72 bits (R50). -/
abbrev CmdWord := BitVec 72

/-- One of the four 17-bit operand slots of a command word (R50). -/
abbrev Slot := BitVec 17

end Sys2Proof
end

