-- ==== Sys2Proof/Syntax.lean ====
section
/-! DEFINITION. The commands of PMD as syntax: one constructor per row of the opcode table (R52), with the operand
forms of R51. Semantics is elsewhere. -/

namespace Sys2Proof

/-- The four wheels, numbered 0..3 in this fixed order (R5, R10). -/
inductive Wheel where
  | backLeft
  | frontLeft
  | backRight
  | frontRight
deriving DecidableEq, Repr, Inhabited

/-- One value per wheel. -/
structure PerWheel (α : Type) where
  backLeft   : α
  frontLeft  : α
  backRight  : α
  frontRight : α
deriving DecidableEq, Repr

/-- A percent operand (R51): the NUM flag and the 16-bit `val`. With `num` false the operand is not a number and
`val` is ignored; the bits are kept, since a legal word may carry any. -/
structure Percent where
  num : Bool
  val : BitVec 16
deriving DecidableEq, Repr

/-- The eight commands (R52). SETDUTY's and SETDIG's operands are integers of any size: R71 gives the operation for
"a model whose channel type is wider" than the port's four bits and for "any integer" duty; which operands the port can
carry is said by `Instr.wellFormed`. -/
inductive Instr where
  /-- DRIVE x, y, h (R111) -/
  | drive (x y h : Percent)
  /-- SETPOWER4 bl, fl, br, fr (R112) -/
  | setpower4 (bl fl br fr : Percent)
  /-- ALLSTOP (R114) -/
  | allstop
  /-- CLEANUP (R116) -/
  | cleanup
  /-- MSETPOWER w, p (R96) -/
  | msetpower (w : Wheel) (p : Percent)
  /-- SETDUTY ch, duty (R71) -/
  | setduty (ch duty : Int)
  /-- SETDIG ch, high (R72) -/
  | setdig (ch : Int) (high : Bool)
  /-- INIT hz (R85) -/
  | init (hz : BitVec 16)
deriving DecidableEq, Repr

end Sys2Proof
end

