-- ==== Sys2Proof/Config.lean ====
section
/-! DEFINITION. The parameters of PMD as one configuration record (R5), and the two free values: the open rounding
parameter and the outcomes of the bus agent. Every numeric literal of the source stands here under a name (U1). -/

namespace Sys2Proof

/-- The open parameter `ROUND_TIE` of R7 (D6). -/
inductive RoundTie where
  | halfEven
  | halfAway
deriving DecidableEq, Repr, Inhabited

/-- What the bus agent does with one transaction (R36): it completes (a read supplies the byte), fails, or never
completes. For a write the byte has no meaning. -/
inductive BusReply where
  | complete (rdata : Byte)
  | fail
  | never
deriving DecidableEq, Repr, Inhabited

/-- One event PMD emits on the bus side besides reads (R9, R55): a byte write to a register of the device at the
cached address, or a delay of at least `ms` milliseconds. -/
inductive BusStep where
  | write (reg : Reg) (v : Byte)
  | delay (ms : Nat)
deriving DecidableEq, Repr

/-- The wiring of one motor (R11): its two channels and its default polarity (`polneg` true means −1). -/
structure Wiring where
  pwm    : BitVec 4
  dir    : BitVec 4
  polneg : Bool
deriving DecidableEq, Repr

/-- The configuration record of R5, with the names of its table. The two replaceable byte sequences that D16 and D17 ask
a model to hold as lists stand in Machine/Setup.lean. -/
structure Config where
  /-- `NCH` -/
  nch             : Nat
  /-- `DUTY_MAX` -/
  dutyMax         : Nat
  /-- `MAXPCT_DEFAULT`, raw (units of 1/64 percent) -/
  maxpctDefault   : BitVec 13
  /-- `DEADBAND_DEFAULT`, raw -/
  deadbandDefault : BitVec 13
  /-- the largest legal raw `maxpct` and `deadband`: 100 percent (R13) -/
  cfgPctMax       : Nat
  /-- `NWHEEL` -/
  nwheel          : Nat
  /-- `PCT_W`, `PCT_FRAC`, `PWR_W`, `CFGPCT_W`, `RAWDUTY_W`, `HZ_W`, `CMD_W`: the widths the types above have -/
  pctW            : Nat
  pctFrac         : Nat
  pwrW            : Nat
  cfgPctW         : Nat
  rawDutyW        : Nat
  hzW             : Nat
  cmdW            : Nat
  /-- `OSC_HZ` -/
  oscHz           : Nat
  /-- counts of one PWM period in the prescaler formula (R83) -/
  periodCounts    : Nat
  /-- `STAB_MS` -/
  stabMs          : Nat
  /-- `HZ_MIN` -/
  hzMin           : Nat
  /-- `HZ_MAX` -/
  hzMax           : Nat
  /-- `CANDIDATES`, in probing order -/
  candidates      : List Addr
  /-- `PROBE_REG` -/
  probeReg        : Reg
  /-- `REG_MODE1` -/
  regMode1        : Reg
  /-- `REG_MODE2` -/
  regMode2        : Reg
  /-- `REG_LED0_ON_L` -/
  regLed0OnL      : Reg
  /-- `REG_PRESCALE` -/
  regPrescale     : Reg
  /-- registers in one channel block (R33) -/
  blockStride     : Nat
  /-- MODE1 bit masks (R34) -/
  mode1Restart    : Byte
  mode1Sleep      : Byte
  mode1AutoInc    : Byte
  /-- MODE2 bit mask (R34) -/
  mode2OutDrive   : Byte
  /-- bit 4 of a block's high byte, the full flag (R33) -/
  fullFlag        : Byte
  /-- the channel map and the default polarities (R11) -/
  wiring          : PerWheel Wiring
  /-- `ROUND_TIE` -/
  roundTie        : RoundTie
deriving DecidableEq, Repr

/-- `ROUND_TIE` is OPEN (R5, R7, D6): a free constant, so that every proof holds under both settings. -/
opaque Config.freeRoundTie : RoundTie

/-- The outcome of the `n`-th transaction when the bus agent's list in State has run out (R36, log 1): free. -/
opaque Config.freeReply : Nat → BusReply

/-- The parameters with the values this hardware takes (R5). -/
def config : Config where
  nch             := 16
  dutyMax         := 4095
  maxpctDefault   := 2560
  deadbandDefault := 128
  cfgPctMax       := 6400
  nwheel          := 4
  pctW            := 16
  pctFrac         := 6
  pwrW            := 18
  cfgPctW         := 13
  rawDutyW        := 16
  hzW             := 16
  cmdW            := 72
  oscHz           := 25000000
  periodCounts    := 4096
  stabMs          := 5
  hzMin           := 24
  hzMax           := 12207
  candidates      := [0x40, 0x41, 0x42, 0x43, 0x44, 0x45, 0x46, 0x31]
  probeReg        := 0x00
  regMode1        := 0x00
  regMode2        := 0x01
  regLed0OnL      := 0x06
  regPrescale     := 0xFE
  blockStride     := 4
  mode1Restart    := 0x80
  mode1Sleep      := 0x10
  mode1AutoInc    := 0x20
  mode2OutDrive   := 0x04
  fullFlag        := 0x10
  wiring          :=
    { backLeft   := { pwm := 1,  dir := 3,  polneg := false }
      frontLeft  := { pwm := 0,  dir := 2,  polneg := false }
      backRight  := { pwm := 14, dir := 13, polneg := true }
      frontRight := { pwm := 15, dir := 12, polneg := true } }
  roundTie        := Config.freeRoundTie

end Sys2Proof
end

