-- ==== Sys2Proof/Machine/State.lean ====
section
/-! DEFINITION. The state of PMD as plain data: the motor configuration file and the controller state (10_state.md),
the trace and the bookkeeping map of the device's registers (R9, R43), what the host has been told (R17, R145), and the
environment's coming inputs (R8, R36). INVENTORY.md lists every field with its rule and its reset value. -/

namespace Sys2Proof.Machine

/-- A motor configuration record `M[w]` (R10). `polneg` true means polarity −1; `maxpct` and `deadband` are raw values
in units of 1/64 percent. -/
structure MotorCfg where
  pwm      : BitVec 4
  dir      : BitVec 4
  polneg   : Bool
  maxpct   : BitVec 13
  deadband : BitVec 13
deriving DecidableEq, Repr

/-- `CTL.phase` (R14). -/
inductive Phase where
  | constructing
  | operational
  | dead
deriving DecidableEq, Repr

/-- The controller state `CTL` (R14). `addr` is meaningful only when `addrValid`, `freq` only when `freqValid`. -/
structure Ctl where
  phase     : Phase
  addrValid : Bool
  addr      : Addr
  freqValid : Bool
  freq      : BitVec 16
deriving DecidableEq, Repr

/-- The error kinds (R125). -/
inductive ErrKind where
  | busError
  | deviceNotFound
  | invalidInput
  | rangeError
  | illegalCommand
  | dead
deriving DecidableEq, Repr

/-- A status of a response (R125): OK or an error kind. Code 7 is never produced, so it has no value here. -/
inductive Status where
  | ok
  | err (e : ErrKind)
deriving DecidableEq, Repr

/-- A response `(st, wst[0..3])` (R17). -/
structure Response where
  st  : Status
  wst : PerWheel Status
deriving DecidableEq, Repr

/-- How a transaction in the trace ended (R36): it completed, it failed, or it never completes. -/
inductive Fate where
  | completed
  | failed
  | pending
deriving DecidableEq, Repr

/-- An event of the trace `T` (R9): W(dev, reg, v), R(dev, reg) or D(ms), a transaction together with its outcome. -/
inductive Event where
  | write (dev : Addr) (reg : Reg) (v : Byte) (fate : Fate)
  | read (dev : Addr) (reg : Reg) (fate : Fate)
  | delay (ms : Nat)
deriving DecidableEq, Repr

/-- The construction parameters `XCFG` (R15). An override is any integer the host passes as a polarity: R12 says how
its sign is read. -/
structure XCfg where
  ovr      : PerWheel (Option Int)
  maxpct   : PerWheel (BitVec 13)
  deadband : PerWheel (BitVec 13)
  hz       : BitVec 16
  init     : Bool
deriving DecidableEq, Repr

/-- What the host asks of PMD (R8): a command at the command port, or a construction (R145). -/
inductive HostRequest where
  | command (c : CmdWord)
  | construct (x : XCfg)
deriving DecidableEq, Repr

/-- The bookkeeping map DEV (R43): the registers whose contents the trace determines, in rising order of offset. A
register that is not listed is unknown. -/
abbrev Memory := List Host.Cell

/-- The state of PMD and of its environment. -/
structure State where
  /-- the motor configuration file `M` (R10) -/
  motors       : PerWheel MotorCfg
  /-- the controller state (R14) -/
  ctl          : Ctl
  /-- the trace `T`, oldest event first (R9) -/
  trace        : List Event
  /-- the map DEV (R43) -/
  dev          : Memory
  /-- the responses given on the response port, oldest first (R17) -/
  responses    : List Response
  /-- the construction result, once construction has reported (R145) -/
  construction : Option Status
  /-- PMD waits for a transaction that never completes (R37) -/
  stuck        : Bool
  /-- the requests the host has still to issue, in order (R8; environment) -/
  host         : List HostRequest
  /-- the outcomes of the coming transactions, in order (R36; environment) -/
  bus          : List BusReply
  /-- how many transactions PMD has issued: the index of the free outcome once `bus` has run out (the model's own) -/
  issued       : Nat
deriving DecidableEq, Repr

/-- Why the machine would stop with a fault. PMD has no such stop: errors are responses (R128) and a transaction that
never completes is a stuck state (R135). No meaning and no step raises it. -/
inductive Fault where
  /-- Raised by nothing. It would be safe: the machine stops. -/
  | none
deriving DecidableEq, Repr

/-- Why a step would have no meaning. -/
inductive Refusal where
  /-- Raised only by an arm of `exec` whose instruction has no meaning yet; there is no such arm. Safe: the model stops. -/
  | notModelled (mnemonic : String)
deriving DecidableEq, Repr

/-- The record of a motor as the wiring of the robot and the default limits give it (R11, R13). -/
def MotorCfg.default (k : Wiring) : MotorCfg :=
  { pwm := k.pwm, dir := k.dir, polneg := k.polneg, maxpct := config.maxpctDefault, deadband := config.deadbandDefault }

/-- The machine right after reset, that is after a construction with the default parameters and `init` = 0 (R22, R145,
R148, vector V130). `CTL.addr` and `CTL.freq` are "unspecified" (R22): DESIGN CHOICE 0, log 3. The environment's fields
are empty (logs 1, 5). -/
def State.reset : State where
  motors       :=
    { backLeft   := .default config.wiring.backLeft
      frontLeft  := .default config.wiring.frontLeft
      backRight  := .default config.wiring.backRight
      frontRight := .default config.wiring.frontRight }
  ctl          := { phase := .operational, addrValid := false, addr := 0, freqValid := false, freq := 0 }
  trace        := []
  dev          := []
  responses    := []
  construction := some .ok
  stuck        := false
  host         := []
  bus          := []
  issued       := 0

end Sys2Proof.Machine
end

