-- ==== Sys2Proof/Machine/Memory.lean ====
section
/-! DEFINITION. The bookkeeping map DEV of R43 as a canonical list of cells: offsets strictly rising and below 0x100,
no cell for an unknown register. An unlisted register reads as unknown (`none`). -/

namespace Sys2Proof.Machine

/-- DEV[reg]: the byte, or `none` for `unknown` (R43). -/
def Memory.read : Memory → Nat → Option Byte
  | [], _ => none
  | (b, v) :: m, a => if a = b then some v else Memory.read m a

/-- DEV with register `a` holding `v`: the effect of a write that completed. -/
def Memory.write : Memory → Nat → Byte → Memory
  | [], a, v => [(a, v)]
  | (b, u) :: m, a, v =>
    if a < b then (a, v) :: (b, u) :: m
    else if a = b then (a, v) :: m
    else (b, u) :: Memory.write m a v

/-- DEV with register `a` unknown: the effect of a write that failed (R43, C17). -/
def Memory.forget : Memory → Nat → Memory
  | [], _ => []
  | (b, u) :: m, a => if a = b then m else (b, u) :: Memory.forget m a

/-- The offsets rise strictly from at least `lo` and stay in the register space 0x00..0xFF (R31). -/
def Memory.risesFrom : Nat → Memory → Bool
  | _, [] => true
  | lo, (a, _) :: m => decide (lo ≤ a) && decide (a < 256) && Memory.risesFrom (a + 1) m

/-- The canonical form. -/
def Memory.wf (m : Memory) : Bool := Memory.risesFrom 0 m

/-- What one event of the trace does to DEV (R43): a completed write sets its register, a failed one makes it unknown,
a write that never completes has neither effect (U5), and reads and delays do nothing. -/
def Event.applyDev (m : Memory) : Event → Memory
  | .write _ reg v .completed => Memory.write m reg.toNat v
  | .write _ reg _ .failed => Memory.forget m reg.toNat
  | .write _ _ _ .pending => m
  | .read _ _ _ => m
  | .delay _ => m

/-- DEV as R43 defines it, from the trace alone. -/
def devOfTrace (t : List Event) : Memory := t.foldl Event.applyDev []

end Sys2Proof.Machine
end

