-- ==== Sys2Proof/Machine/Operands.lean ====
section
/-! DEFINITION. Operand forms and the arithmetic on them: per-wheel values, percent operands (R6, R51), `round` (R7),
channel block bases (R74). -/

namespace Sys2Proof

/-- The value of wheel `w`. -/
def PerWheel.get {α : Type} (p : PerWheel α) : Wheel → α
  | .backLeft => p.backLeft
  | .frontLeft => p.frontLeft
  | .backRight => p.backRight
  | .frontRight => p.frontRight

/-- `p` with wheel `w`'s value replaced by `v`. -/
def PerWheel.set {α : Type} (p : PerWheel α) (w : Wheel) (v : α) : PerWheel α :=
  match w with
  | .backLeft => { p with backLeft := v }
  | .frontLeft => { p with frontLeft := v }
  | .backRight => { p with backRight := v }
  | .frontRight => { p with frontRight := v }

/-- The same value for every wheel. -/
def PerWheel.all {α : Type} (v : α) : PerWheel α :=
  { backLeft := v, frontLeft := v, backRight := v, frontRight := v }

/-- Apply `f` wheel by wheel. -/
def PerWheel.map {α β : Type} (f : α → β) (p : PerWheel α) : PerWheel β :=
  { backLeft := f p.backLeft, frontLeft := f p.frontLeft, backRight := f p.backRight, frontRight := f p.frontRight }

/-- The wheels in the fixed order of R10. -/
def Wheel.order : List Wheel := [.backLeft, .frontLeft, .backRight, .frontRight]

/-- The power a percent operand stands for, in units of 1/64 percent: `sint(val)` when NUM = 1; `none`, a non-numeric
operand, when NUM = 0, whatever `val` is (R51). -/
def Percent.value (p : Percent) : Option Int := if p.num then some p.val.toInt else none

/-- `round(n / d)` of R7 for `d > 0`, under the tie setting `tie`. R7 gives `half_away` for a non-negative argument
only; a negative tie is never rounded (R83, R101). -/
def roundDiv (tie : RoundTie) (n d : Int) : Int :=
  let f := n / d
  let r := n % d
  if 2 * r < d then f
  else if d < 2 * r then f + 1
  else match tie with
    | .halfEven => if f % 2 = 0 then f else f + 1
    | .halfAway => f + 1

namespace Machine

/-- The base offset of a channel's block, `0x06 + 4*ch` (R32, R74). -/
def blockBase (ch : Int) : Reg := config.regLed0OnL + BitVec.ofInt 8 (config.blockStride * ch)

/-- R71's range check of a channel. -/
def channelLegal (ch : Int) : Bool := decide (0 ≤ ch) && decide (ch < config.nch)

/-- R84's and R85's range check of a frequency. -/
def freqLegal (hz : BitVec 16) : Bool := decide (config.hzMin ≤ hz.toNat) && decide (hz.toNat ≤ config.hzMax)

end Machine

end Sys2Proof
end

