-- ==== Sys2Proof/Machine/Ops.lean ====
section
/-! DEFINITION. The named operations over the state, the primitives of R9 (MemWrite, MemRead, Delay, raise), the
propagation of errors (R128), the running of an event list (R16) and address discovery (R80, R81), which precedes every
write. -/

namespace Sys2Proof.Machine

/-! ## Updates of the state -/

/-- The outcome the bus agent gives to the `k`-th transaction from now (R36): from the environment's list, and beyond
it the free outcome (log 1). -/
def State.outcome (s : State) (k : Nat) : BusReply :=
  match s.bus[k]? with
  | some r => r
  | none => Config.freeReply (s.issued + k)

/-- The next transaction has had its outcome. -/
def State.advance (s : State) : State := { s with bus := s.bus.tail, issued := s.issued + 1 }

/-- Append an event to the trace (R9), and to DEV, which is a summary of the trace (R43). -/
def State.logEvent (s : State) (e : Event) : State :=
  { s with trace := s.trace ++ [e], dev := Event.applyDev s.dev e }

/-- PMD waits for a transaction that never completes (R37). -/
def State.hang (s : State) : State := { s with stuck := true }

/-- Cache the discovered address (R80). -/
def State.cacheAddr (s : State) (a : Addr) : State := { s with ctl := { s.ctl with addrValid := true, addr := a } }

/-- Record the configured frequency (R84). -/
def State.setFreq (s : State) (hz : BitVec 16) : State := { s with ctl := { s.ctl with freqValid := true, freq := hz } }

/-- Change `CTL.phase`; construction alone does (R14). -/
def State.setPhase (s : State) (p : Phase) : State := { s with ctl := { s.ctl with phase := p } }

/-- Report the construction result (R145). -/
def State.reportConstruction (s : State) (r : Status) : State := { s with construction := some r }

/-- Put a response on the response port (R17). -/
def State.respond (s : State) (r : Response) : State := { s with responses := s.responses ++ [r] }

/-- The host has issued its first request; the rest remain. -/
def State.withHost (s : State) (rest : List HostRequest) : State := { s with host := rest }

/-- Put the command word `c` in front of the host's requests, at a port that is open and idle: what it takes for the
next step to run it (log 6). -/
def State.present (s : State) (c : CmdWord) : State :=
  { s with host := .command c :: s.host, stuck := false, ctl := { s.ctl with phase := .operational } }

/-! ## Results of an operation -/

/-- How an operation ends: it completes with a value, raises an error (R9 `raise`), or waits for a transaction that
never completes (R37). Each carries the state reached. -/
inductive OpResult (α : Type) where
  | done (v : α) (s : State)
  | raise (e : ErrKind) (s : State)
  | hang (s : State)

/-- The state reached. -/
def OpResult.state {α : Type} : OpResult α → State
  | .done _ s => s
  | .raise _ s => s
  | .hang s => s

/-- Sequence: go on only after completion. An error passes up unchanged and nothing after it happens (R128); a stuck
operation stays stuck. This is PMD's whole taking of an error: nothing is saved, no mode changes, control goes nowhere. -/
def OpResult.bind {α β : Type} (r : OpResult α) (f : α → State → OpResult β) : OpResult β :=
  match r with
  | .done v s => f v s
  | .raise e s => .raise e s
  | .hang s => .hang s

/-- A catch point (R132 b, c): go on after completion and after an error alike, told which it was; a stuck operation
stays stuck. -/
def OpResult.settle {α β : Type} (r : OpResult α) (f : Status → State → OpResult β) : OpResult β :=
  match r with
  | .done _ s => f .ok s
  | .raise e s => f (.err e) s
  | .hang s => .hang s

/-! ## The primitives of R9 -/

/-- `MemWrite(reg, 1, v)`: one write transaction to the device at the cached address. -/
def memWrite (reg : Reg) (v : Byte) (s : State) : OpResult Unit :=
  match s.outcome 0 with
  | .complete _ => .done () (s.advance.logEvent (.write s.ctl.addr reg v .completed))
  | .fail => .raise .busError (s.advance.logEvent (.write s.ctl.addr reg v .failed))
  | .never => .hang (s.advance.logEvent (.write s.ctl.addr reg v .pending)).hang

/-- `MemReadAt(a, reg, 1)`: one read transaction; yields the byte the bus returns. -/
def memReadAt (a : Addr) (reg : Reg) (s : State) : OpResult Byte :=
  match s.outcome 0 with
  | .complete v => .done v (s.advance.logEvent (.read a reg .completed))
  | .fail => .raise .busError (s.advance.logEvent (.read a reg .failed))
  | .never => .hang (s.advance.logEvent (.read a reg .pending)).hang

/-- `MemRead(reg, 1)`: the same at the cached address. No rule of the spec uses it (R31, R41). -/
def memRead (reg : Reg) (s : State) : OpResult Byte := memReadAt s.ctl.addr reg s

/-- `Delay(t)`: at least `ms` milliseconds pass here (R9, R154). -/
def delay (ms : Nat) (s : State) : OpResult Unit := .done () (s.logEvent (.delay ms))

/-- One step of an event list. -/
def runStep (e : BusStep) (s : State) : OpResult Unit :=
  match e with
  | .write reg v => memWrite reg v s
  | .delay ms => delay ms s

/-- Run an event list against the bus, in order, one transaction at a time, up to the first that does not complete
(R16, R38). -/
def runSteps : List BusStep → State → OpResult Unit
  | [], s => .done () s
  | e :: es, s => (runStep e s).bind fun _ s' => runSteps es s'

/-! ## Address discovery -/

/-- DISCOVER (R81): probe the candidates in order; the first that answers is the device. A probe's BusError is caught
here (R132 a). -/
def discover : List Addr → State → OpResult Addr
  | [], s => .raise .deviceNotFound s
  | a :: rest, s =>
    match memReadAt a config.probeReg s with
    | .done _ s' => .done a s'
    | .raise _ s' => discover rest s'
    | .hang s' => .hang s'

/-- ENSUREADDR (R80): discover the device once and cache its address. -/
def ensureAddr (s : State) : OpResult Unit :=
  if s.ctl.addrValid then .done () s
  else (discover config.candidates s).bind fun a s' => .done () (s'.cacheAddr a)

end Sys2Proof.Machine
end

