-- ==== Sys2Proof/Machine/Flags.lean ====
section
/-! DEFINITION. PMD has no flags that persist (R17); what takes their place is the response. Here are the status codes
(R125), the three shapes a response has, and how an operation's end becomes one: an error that reaches the command
boundary is the response's `st` (R128), and a stuck command gives no response (R37). -/

namespace Sys2Proof.Machine

/-- The code of a status (R125). -/
def Status.code : Status → BitVec 3
  | .ok => 0
  | .err .busError => 1
  | .err .deviceNotFound => 2
  | .err .invalidInput => 3
  | .err .rangeError => 4
  | .err .illegalCommand => 5
  | .err .dead => 6

/-- The response of a command that drives no motor, and of dispatch: `st` carries the outcome, every `wst` is OK (R17,
R53). -/
def Response.single (st : Status) : Response := { st := st, wst := .all .ok }

/-- The response of MSETPOWER: `wst[w]` equals `st`, the others are OK (R17). -/
def Response.motor (w : Wheel) (st : Status) : Response := { st := st, wst := (PerWheel.all .ok).set w st }

/-- `st` of a four-wheel command: OK when all are OK, otherwise the code of the lowest-numbered wheel that failed
(R17, R112). -/
def firstFailure (wst : PerWheel Status) : Status :=
  if wst.backLeft ≠ .ok then wst.backLeft
  else if wst.frontLeft ≠ .ok then wst.frontLeft
  else if wst.backRight ≠ .ok then wst.backRight
  else wst.frontRight

/-- The response of DRIVE, SETPOWER4 and ALLSTOP (R17, R112). -/
def Response.wheels (wst : PerWheel Status) : Response := { st := firstFailure wst, wst := wst }

/-- End a command whose only result is its status: `mk` makes the response. -/
def finish {α : Type} (mk : Status → Response) : OpResult α → State
  | .done _ s => s.respond (mk .ok)
  | .raise e s => s.respond (mk (.err e))
  | .hang s => s

/-- End a four-wheel command: its loop yields the per-wheel statuses, and no error escapes it (R112). -/
def finishWheels : OpResult (PerWheel Status) → State
  | .done wst s => s.respond (.wheels wst)
  | .raise e s => s.respond (.wheels (.all (.err e)))
  | .hang s => s

end Sys2Proof.Machine
end

