-- ==== Sys2Proof/Machine/Encoder.lean ====
section
/-! DEFINITION. The motor register encoder (40_encoder.md): ENC, SETDUTY, SETDIG. -/

namespace Sys2Proof.Machine

/-- The four register bytes of a channel block, in the order they go out (R33, R35). -/
structure Block where
  onL  : Byte
  onH  : Byte
  offL : Byte
  offH : Byte
deriving DecidableEq, Repr

/-- The full-off block (R70). -/
def Block.fullOff : Block := { onL := 0, onH := 0, offL := 0, offH := config.fullFlag }

/-- The full-on block (R70). -/
def Block.fullOn : Block := { onL := 0, onH := config.fullFlag, offL := 0, offH := 0 }

/-- ENC (R70), for a duty of any sign and size. -/
def enc (duty : Int) : Block :=
  if duty ≤ 0 then .fullOff
  else if (config.dutyMax : Int) ≤ duty then .fullOn
  else { onL := 0, onH := 0, offL := BitVec.ofInt 8 (duty % 256), offH := BitVec.ofInt 8 (duty / 256) }

/-- The four byte writes of a channel block, ascending offsets ON_L, ON_H, OFF_L, OFF_H (R35). -/
def blockSteps (ch : Int) (b : Block) : List BusStep :=
  [ .write (blockBase ch) b.onL, .write (blockBase ch + 1) b.onH,
    .write (blockBase ch + 2) b.offL, .write (blockBase ch + 3) b.offH ]

/-- SETDUTY (R71): the range check before any bus event, then ENSUREADDR, then the block. -/
def setDuty (ch duty : Int) (s : State) : OpResult Unit :=
  if channelLegal ch then (ensureAddr s).bind fun _ s' => runSteps (blockSteps ch (enc duty)) s'
  else .raise .rangeError s

/-- The duty a level stands for (R72). -/
def levelDuty (high : Bool) : Int := if high then config.dutyMax else 0

/-- SETDIG (R72). -/
def setDig (ch : Int) (high : Bool) (s : State) : OpResult Unit := setDuty ch (levelDuty high) s

/-- SETDUTY as a command (R71). -/
def execSetduty (ch duty : Int) (s : State) : Host.Outcome State Fault Refusal :=
  .next (finish .single (setDuty ch duty s))

/-- SETDIG as a command (R72). -/
def execSetdig (ch : Int) (high : Bool) (s : State) : Host.Outcome State Fault Refusal :=
  .next (finish .single (setDig ch high s))

end Sys2Proof.Machine
end

