-- ==== Sys2Proof/Machine/Scaler.lean ====
section
/-! DEFINITION. The duty scaler and clamper (42_scaler.md): SCALE, MSETPOWER. Powers and magnitudes are exact counts of
1/64 percent (R6). -/

namespace Sys2Proof.Machine

/-- The result of SCALE: the direction bit and the duty. -/
structure Drive where
  dir  : Bool
  duty : Int
deriving DecidableEq, Repr

/-- Step 2, polarity (R97). -/
def effectivePower (m : MotorCfg) (power : Int) : Int := if m.polneg then -power else power

/-- Step 3, direction: zero is forward, the deadband is not consulted (R98). -/
def directionBit (effective : Int) : Bool := decide (0 ≤ effective)

/-- Step 6, the safety clamp, for a magnitude in units of 1/64 percent (R100). -/
def clampMagnitude (m : MotorCfg) (magnitude : Nat) : Nat := min m.maxpct.toNat magnitude

/-- Step 7, `round(magnitude / 100 * 4095)` for a magnitude in units of 1/64 percent (R101). -/
def dutyOfMagnitude (tie : RoundTie) (magnitude : Nat) : Int :=
  roundDiv tie ((magnitude : Int) * config.dutyMax) (100 * 2 ^ config.pctFrac)

/-- SCALE under tie setting `tie` (R95). -/
def scaleWith (tie : RoundTie) (m : MotorCfg) (power : Int) : Drive :=
  let effective := effectivePower m power
  let magnitude := effective.natAbs
  { dir := directionBit effective
    duty := if magnitude ≤ m.deadband.toNat then 0 else dutyOfMagnitude tie (clampMagnitude m magnitude) }

/-- SCALE (R95). -/
def scale (m : MotorCfg) (power : Int) : Drive := scaleWith config.roundTie m power

/-- MSETPOWER on wheel `w` (R96): non-numeric input is rejected before any bus event; then the direction block, then
the duty block. -/
def motorSetPower (w : Wheel) (power : Option Int) (s : State) : OpResult Unit :=
  match power with
  | none => .raise .invalidInput s
  | some p =>
    let m := s.motors.get w
    let d := scale m p
    (setDig m.dir.toNat d.dir s).bind fun _ s' => setDuty m.pwm.toNat d.duty s'

/-- MSETPOWER as a command (R96). -/
def execMsetpower (w : Wheel) (p : Percent) (s : State) : Host.Outcome State Fault Refusal :=
  .next (finish (.motor w) (motorSetPower w p.value s))

end Sys2Proof.Machine
end

