-- ==== Sys2Proof/Machine/Mixer.lean ====
section
/-! DEFINITION. The kinematic mixer and the chassis commands (43_mixer.md): MIX, DRIVE, SETPOWER4, ALLSTOP, CLEANUP. -/

namespace Sys2Proof.Machine

/-- MIX (R110), exact. -/
def mix (x y h : Int) : PerWheel Int :=
  { backLeft := y - x - h, frontLeft := y + x + h, backRight := y + x - h, frontRight := y - x + h }

/-- The loop of SETPOWER4 (R112): each wheel's error is caught and recorded, and the next wheel starts afresh
(R132 b). -/
def wheelLoop (p : PerWheel (Option Int)) : List Wheel → PerWheel Status → State → OpResult (PerWheel Status)
  | [], wst, s => .done wst s
  | w :: rest, wst, s => (motorSetPower w (p.get w) s).settle fun st s' => wheelLoop p rest (wst.set w st) s'

/-- SETPOWER4 (R112). -/
def setPower4 (p : PerWheel (Option Int)) (s : State) : OpResult (PerWheel Status) :=
  wheelLoop p Wheel.order (.all .ok) s

/-- The wheel powers of DRIVE (R111): MIX's outputs, or four non-numeric operands. -/
def drivePowers (x y h : Option Int) : PerWheel (Option Int) :=
  match x, y, h with
  | some x, some y, some h => (mix x y h).map some
  | _, _, _ => .all none

/-- CLEANUP's loops (R116): a failure of one channel block is dropped, and the next channel is attempted
(R132 c). -/
def cleanupLoop : List (BitVec 4) → State → OpResult Unit
  | [], s => .done () s
  | ch :: rest, s => (setDuty ch.toNat 0 s).settle fun _ s' => cleanupLoop rest s'

/-- The channels 0..15 in ascending order (R116). -/
def allChannels : List (BitVec 4) := [0, 1, 2, 3, 4, 5, 6, 7, 8, 9, 10, 11, 12, 13, 14, 15]

/-- CLEANUP's second loop (R116): SETDIG(dir, 0) on each wheel. -/
def lowerLoop : List Wheel → State → OpResult Unit
  | [], s => .done () s
  | w :: rest, s => (setDig (s.motors.get w).dir.toNat false s).settle fun _ s' => lowerLoop rest s'

/-- CLEANUP (R116): PWM duty zero on all channels, then the direction lines low. -/
def cleanupAll (s : State) : OpResult Unit :=
  (cleanupLoop allChannels s).bind fun _ s' => lowerLoop Wheel.order s'

/-- DRIVE as a command (R111). -/
def execDrive (x y h : Percent) (s : State) : Host.Outcome State Fault Refusal :=
  .next (finishWheels (setPower4 (drivePowers x.value y.value h.value) s))

/-- SETPOWER4 as a command (R112). -/
def execSetpower4 (bl fl br fr : Percent) (s : State) : Host.Outcome State Fault Refusal :=
  .next (finishWheels (setPower4
    { backLeft := bl.value, frontLeft := fl.value, backRight := br.value, frontRight := fr.value } s))

/-- ALLSTOP as a command (R114): SETPOWER4 of four numeric zeros. -/
def execAllstop (s : State) : Host.Outcome State Fault Refusal :=
  .next (finishWheels (setPower4 (.all (some 0)) s))

/-- CLEANUP as a command (R116). -/
def execCleanup (s : State) : Host.Outcome State Fault Refusal :=
  .next (finish .single (cleanupAll s))

end Sys2Proof.Machine
end

