-- ==== Sys2Proof/Machine/Setup.lean ====
section
/-! DEFINITION. Controller set-up (41_controller_setup.md): CFGDEF, PRESCALE, SETFREQ, INIT. Discovery stands with the
operations in Ops.lean. -/

namespace Sys2Proof

/-- `CFG_SEQ` of D16, the writes of CFGDEF (R82): sleep, output driver, sleep with auto-increment. -/
def Config.cfgSeq (c : Config) : List BusStep :=
  [ .write c.regMode1 c.mode1Sleep,
    .write c.regMode2 c.mode2OutDrive,
    .write c.regMode1 (c.mode1Sleep ||| c.mode1AutoInc) ]

/-- `FREQ_SEQ` of D17, the events of SETFREQ for prescaler byte `p` (R84): sleep, prescaler, wake, wait, restart. -/
def Config.freqSeq (c : Config) (p : Byte) : List BusStep :=
  [ .write c.regMode1 (c.mode1Sleep ||| c.mode1AutoInc),
    .write c.regPrescale p,
    .write c.regMode1 c.mode1AutoInc,
    .delay c.stabMs,
    .write c.regMode1 (c.mode1Restart ||| c.mode1AutoInc) ]

namespace Machine

/-- CFGDEF (R82). -/
def cfgDef (s : State) : OpResult Unit := runSteps config.cfgSeq s

/-- `OSC_HZ / (4096 * hz) - 1` rounded under tie setting `tie` (R83). -/
def prescaleWith (tie : RoundTie) (hz : Nat) : Int :=
  roundDiv tie ((config.oscHz : Int) - config.periodCounts * hz) (config.periodCounts * hz)

/-- PRESCALE (R83). -/
def prescale (hz : Nat) : Int := prescaleWith config.roundTie hz

/-- SETFREQ (R84). `CTL.freq` is written only when all four writes completed. -/
def setFreq (hz : BitVec 16) (s : State) : OpResult Unit :=
  if freqLegal hz then
    (runSteps (config.freqSeq (BitVec.ofInt 8 (prescale hz.toNat))) s).bind fun _ s' => .done () (s'.setFreq hz)
  else .raise .rangeError s

/-- The eight known channels in zeroing order: per wheel, direction then PWM (R85). -/
def knownChannels (m : PerWheel MotorCfg) : List (BitVec 4) :=
  Wheel.order.flatMap fun w => [(m.get w).dir, (m.get w).pwm]

/-- Write the full-off block to each channel of a list, in order, by SETDUTY(ch, 0). -/
def zeroChannels : List (BitVec 4) → State → OpResult Unit
  | [], s => .done () s
  | ch :: rest, s => (setDuty ch.toNat 0 s).bind fun _ s' => zeroChannels rest s'

/-- INIT (R85): the range check before any bus event; the first error ends it (R86). -/
def initController (hz : BitVec 16) (s : State) : OpResult Unit :=
  if freqLegal hz then
    (ensureAddr s).bind fun _ s1 =>
      (cfgDef s1).bind fun _ s2 =>
        (setFreq hz s2).bind fun _ s3 => zeroChannels (knownChannels s3.motors) s3
  else .raise .rangeError s

/-- INIT as a command (R85, R86): an error is the response, the phase stays. -/
def execInit (hz : BitVec 16) (s : State) : Host.Outcome State Fault Refusal :=
  .next (finish .single (initController hz s))

end Machine

end Sys2Proof
end

