-- ==== Sys2Proof/Machine/Dispatch.lean ====
section
/-! DEFINITION. One arm per command (R52). -/

namespace Sys2Proof.Machine

def exec (i : Instr) (s : State) : Host.Outcome State Fault Refusal :=
  match i with
  | .drive x y h => Sys2Proof.Machine.execDrive x y h s
  | .setpower4 bl fl br fr => Sys2Proof.Machine.execSetpower4 bl fl br fr s
  | .allstop => Sys2Proof.Machine.execAllstop s
  | .cleanup => Sys2Proof.Machine.execCleanup s
  | .msetpower w p => Sys2Proof.Machine.execMsetpower w p s
  | .setduty ch duty => Sys2Proof.Machine.execSetduty ch duty s
  | .setdig ch high => Sys2Proof.Machine.execSetdig ch high s
  | .init hz => Sys2Proof.Machine.execInit hz s

end Sys2Proof.Machine
end

