-- ==== Sys2Proof/WellFormed.lean ====
section
/-! DEFINITION. Which instructions a command word can carry (R51): a channel is 0..15 and a raw duty is a signed 16-bit
integer. Every other operand's type admits exactly what its slot can hold. -/

namespace Sys2Proof

/-- A channel of the controller: "integer identifier, valid range 0..15" (R51). -/
def channelInRange (ch : Int) : Bool := decide (0 ≤ ch) && decide (ch ≤ 15)

/-- A raw duty operand, "range −32768..32767" (R51). -/
def dutyInRange (duty : Int) : Bool := decide (-32768 ≤ duty) && decide (duty ≤ 32767)

/-- The instruction can be written as a command word (R51, R52). -/
def Instr.wellFormed : Instr → Bool
  | .drive _ _ _ => true
  | .setpower4 _ _ _ _ => true
  | .allstop => true
  | .cleanup => true
  | .msetpower _ _ => true
  | .setduty ch duty => channelInRange ch && dutyInRange duty
  | .setdig ch _ => channelInRange ch
  | .init _ => true

end Sys2Proof
end

