-- ==== Sys2Proof/Decode.lean ====
section
/-! DEFINITION. The command word (R50 to R54): the decoder, total on every 72-bit word and refusing illegal words by
name, and the encoder written from the same table. -/

namespace Sys2Proof

/-- Why a word is illegal (R54). -/
inductive IllegalWord where
  /-- opcode 0x0 or 0x9 to 0xF -/
  | reservedOpcode (op : BitVec 4)
  /-- a bit that R51 or R52 requires to be 0 is 1 -/
  | reservedBits (op : BitVec 4)
deriving DecidableEq, Repr

/-- What the decoder answers: the instruction of a legal word (R53), or why there is none. -/
inductive Decoded where
  | legal (i : Instr)
  | illegal (why : IllegalWord)
deriving DecidableEq, Repr

/-! ## Fields of a word (R50) -/

def opcodeOf (c : CmdWord) : BitVec 4 := c.extractLsb' 68 4
def slotA (c : CmdWord) : Slot := c.extractLsb' 51 17
def slotB (c : CmdWord) : Slot := c.extractLsb' 34 17
def slotC (c : CmdWord) : Slot := c.extractLsb' 17 17
def slotD (c : CmdWord) : Slot := c.extractLsb' 0 17

/-- A word from its five fields (R50). -/
def packWord (op : BitVec 4) (a b c d : Slot) : CmdWord := op ++ a ++ b ++ c ++ d

/-! ## Operand forms of a slot (R51). `none` means a must-be-zero bit is set. -/

/-- Percent: NUM in bit 16, `val` in bits 15:0; every bit pattern is allowed. -/
def percentOfSlot (a : Slot) : Percent := { num := a.getLsbD 16, val := a.extractLsb' 0 16 }

/-- Wheel: bits 1:0. -/
def wheelOfSlot (a : Slot) : Option Wheel :=
  if a.extractLsb' 2 15 = 0 then
    match (a.extractLsb' 0 2).toNat with
    | 0 => some .backLeft
    | 1 => some .frontLeft
    | 2 => some .backRight
    | _ => some .frontRight
  else none

/-- Channel: bits 3:0, unsigned. -/
def channelOfSlot (a : Slot) : Option Int :=
  if a.extractLsb' 4 13 = 0 then some ((a.extractLsb' 0 4).toNat : Int) else none

/-- Raw duty: bits 15:0 read as `sint`. -/
def dutyOfSlot (a : Slot) : Option Int :=
  if a.getLsbD 16 = false then some (a.extractLsb' 0 16).toInt else none

/-- Level: bit 0. -/
def levelOfSlot (a : Slot) : Option Bool :=
  if a.extractLsb' 1 16 = 0 then some (a.getLsbD 0) else none

/-- Frequency: bits 15:0 read as `uint`. -/
def freqOfSlot (a : Slot) : Option (BitVec 16) :=
  if a.getLsbD 16 = false then some (a.extractLsb' 0 16) else none

/-- A slot the table shows as 0. -/
def emptySlot (a : Slot) : Option Unit := if a = 0 then some () else none

/-! ## The opcode map (R52) -/

/-- The instruction of a word with opcode `op` and the four slots, `none` where a must-be-zero bit is set; the outer
`none` is a reserved opcode. -/
def decodeFields (op : BitVec 4) (a b c d : Slot) : Option (Option Instr) :=
  match op.toNat with
  | 1 => some ((emptySlot d).map fun _ => .drive (percentOfSlot a) (percentOfSlot b) (percentOfSlot c))
  | 2 => some (some (.setpower4 (percentOfSlot a) (percentOfSlot b) (percentOfSlot c) (percentOfSlot d)))
  | 3 => some (if a = 0 ∧ b = 0 ∧ c = 0 ∧ d = 0 then some .allstop else none)
  | 4 => some (if a = 0 ∧ b = 0 ∧ c = 0 ∧ d = 0 then some .cleanup else none)
  | 5 => some (if c = 0 ∧ d = 0 then (wheelOfSlot b).map fun w => .msetpower w (percentOfSlot a) else none)
  | 6 => some (if c = 0 ∧ d = 0 then
                 (channelOfSlot b).bind fun ch => (dutyOfSlot a).map fun duty => .setduty ch duty
               else none)
  | 7 => some (if c = 0 ∧ d = 0 then
                 (channelOfSlot b).bind fun ch => (levelOfSlot a).map fun high => .setdig ch high
               else none)
  | 8 => some (if b = 0 ∧ c = 0 ∧ d = 0 then (freqOfSlot a).map fun hz => .init hz else none)
  | _ => none

/-- The decoder of the command port: `legal(c)` of R53 with the instruction, or why the word is illegal. -/
def decode (c : CmdWord) : Decoded :=
  match decodeFields (opcodeOf c) (slotA c) (slotB c) (slotC c) (slotD c) with
  | some (some i) => .legal i
  | some none => .illegal (.reservedBits (opcodeOf c))
  | none => .illegal (.reservedOpcode (opcodeOf c))

/-- A row's word as opcode_table.json numbers its bits: bit 0 the least significant of the one 72-bit word; bits
above `nbits` are 0. -/
def decodeTableWord (nbits w : Nat) : Option Instr :=
  match decode (BitVec.ofNat 72 (w % 2 ^ nbits)) with
  | .legal i => some i
  | .illegal _ => none

/-! ## The encoder, from the same table -/

def Percent.slot (p : Percent) : Slot := BitVec.ofBool p.num ++ p.val

def Wheel.slot : Wheel → Slot
  | .backLeft => 0
  | .frontLeft => 1
  | .backRight => 2
  | .frontRight => 3

def channelSlot (ch : Int) : Slot := (BitVec.ofInt 4 ch).setWidth 17

def dutySlot (duty : Int) : Slot := (BitVec.ofInt 16 duty).setWidth 17

def levelSlot (high : Bool) : Slot := (BitVec.ofBool high).setWidth 17

def freqSlot (hz : BitVec 16) : Slot := hz.setWidth 17

/-- The opcode number of an instruction (R52). -/
def Instr.opcode : Instr → BitVec 4
  | .drive _ _ _ => 1
  | .setpower4 _ _ _ _ => 2
  | .allstop => 3
  | .cleanup => 4
  | .msetpower _ _ => 5
  | .setduty _ _ => 6
  | .setdig _ _ => 7
  | .init _ => 8

/-- The command word of a well-formed instruction (R50 to R52). -/
def encode : Instr → CmdWord
  | .drive x y h => packWord 1 x.slot y.slot h.slot 0
  | .setpower4 bl fl br fr => packWord 2 bl.slot fl.slot br.slot fr.slot
  | .allstop => packWord 3 0 0 0 0
  | .cleanup => packWord 4 0 0 0 0
  | .msetpower w p => packWord 5 p.slot w.slot 0 0
  | .setduty ch duty => packWord 6 (dutySlot duty) (channelSlot ch) 0 0
  | .setdig ch high => packWord 7 (levelSlot high) (channelSlot ch) 0 0
  | .init hz => packWord 8 (freqSlot hz) 0 0 0

/-! ## The opcode table's rows, as match and mask -/

/-- One row of opcode_table.json: a word belongs to the row when `w &&& mask = bits`. -/
structure OpcodeRow where
  mnemonic : String
  bits     : CmdWord
  mask     : CmdWord
deriving DecidableEq, Repr

/-! The eight rows, "match" and "mask" as they stand in opcode_table.json. -/

def OpcodeRow.drive : OpcodeRow := { mnemonic := "DRIVE", bits := 0x100000000000000000, mask := 0xF0000000000001FFFF }
def OpcodeRow.setpower4 : OpcodeRow := { mnemonic := "SETPOWER4", bits := 0x200000000000000000, mask := 0xF00000000000000000 }
def OpcodeRow.allstop : OpcodeRow := { mnemonic := "ALLSTOP", bits := 0x300000000000000000, mask := 0xFFFFFFFFFFFFFFFFFF }
def OpcodeRow.cleanup : OpcodeRow := { mnemonic := "CLEANUP", bits := 0x400000000000000000, mask := 0xFFFFFFFFFFFFFFFFFF }
def OpcodeRow.msetpower : OpcodeRow := { mnemonic := "MSETPOWER", bits := 0x500000000000000000, mask := 0xF00007FFF3FFFFFFFF }
def OpcodeRow.setduty : OpcodeRow := { mnemonic := "SETDUTY", bits := 0x600000000000000000, mask := 0xF80007FFC3FFFFFFFF }
def OpcodeRow.setdig : OpcodeRow := { mnemonic := "SETDIG", bits := 0x700000000000000000, mask := 0xFFFFF7FFC3FFFFFFFF }
def OpcodeRow.init : OpcodeRow := { mnemonic := "INIT", bits := 0x800000000000000000, mask := 0xF80007FFFFFFFFFFFF }

/-- The opcode table. -/
def opcodeTable : List OpcodeRow :=
  [.drive, .setpower4, .allstop, .cleanup, .msetpower, .setduty, .setdig, .init]

/-- The table's row of an instruction. -/
def Instr.row : Instr → OpcodeRow
  | .drive _ _ _ => .drive
  | .setpower4 _ _ _ _ => .setpower4
  | .allstop => .allstop
  | .cleanup => .cleanup
  | .msetpower _ _ => .msetpower
  | .setduty _ _ => .setduty
  | .setdig _ _ => .setdig
  | .init _ => .init

end Sys2Proof
end

