-- ==== Sys2Proof/Machine/Construct.lean ====
section
/-! DEFINITION. Construction, which is reset (70_reset_and_hazards.md, R145 to R148). -/

namespace Sys2Proof.Machine

/-- The default parameters of a chassis (R12, R13): no override, the default limits. `hz` and `init` have no default in
the spec; these are vector V130's (log 6). -/
def XCfg.default : XCfg where
  ovr      := .all none
  maxpct   := .all config.maxpctDefault
  deadband := .all config.deadbandDefault
  hz       := 1000
  init     := false

/-- A raw limit is 0..6400, 0 to 100 percent (R13, R146). -/
def limitLegal (raw : BitVec 13) : Bool := decide (raw.toNat ≤ config.cfgPctMax)

/-- The construction checks (R146): every limit in range, `hz` a positive integer. -/
def XCfg.legal (x : XCfg) : Bool :=
  Wheel.order.all (fun w => limitLegal (x.maxpct.get w) && limitLegal (x.deadband.get w)) && decide (x.hz ≠ 0)

/-- The polarity bit of a wheel (R12): an override replaces the default, negative means −1, zero counts as +1. -/
def polarityBit (ovr : Option Int) (dflt : Bool) : Bool :=
  match ovr with
  | some p => decide (p < 0)
  | none => dflt

/-- The record of wheel `w` that construction makes (R11 to R13, R145). -/
def motorOf (x : XCfg) (w : Wheel) : MotorCfg :=
  let k := config.wiring.get w
  { pwm := k.pwm, dir := k.dir, polneg := polarityBit (x.ovr.get w) k.polneg,
    maxpct := x.maxpct.get w, deadband := x.deadband.get w }

/-- The motor configuration file that construction makes. -/
def motorsOf (x : XCfg) : PerWheel MotorCfg :=
  { backLeft := motorOf x .backLeft, frontLeft := motorOf x .frontLeft,
    backRight := motorOf x .backRight, frontRight := motorOf x .frontRight }

/-- The block at the start of a construction, before any construction-time INIT (R22): no memory of an earlier one
(R145). The environment's fields go on. -/
def fresh (m : PerWheel MotorCfg) (s : State) : State where
  motors       := m
  ctl          := { phase := .constructing, addrValid := false, addr := 0, freqValid := false, freq := 0 }
  trace        := []
  dev          := []
  responses    := []
  construction := none
  stuck        := false
  host         := s.host
  bus          := s.bus
  issued       := s.issued

/-- Construction ends well: the command port opens (R145). -/
def State.operational (s : State) : State := (s.setPhase .operational).reportConstruction .ok

/-- Construction fails with `e`: the block is DEAD (R146, R147). -/
def State.deadWith (s : State) (e : ErrKind) : State := (s.setPhase .dead).reportConstruction (.err e)

/-- CONSTRUCT (R145). After a failed check the file `M` is the default one (log 7). A construction-time INIT that waits
for ever leaves the block CONSTRUCTING and stuck (R37). -/
def construct (x : XCfg) (s : State) : State :=
  if x.legal then
    if x.init then
      match initController x.hz (fresh (motorsOf x) s) with
      | .done _ s' => s'.operational
      | .raise e s' => s'.deadWith e
      | .hang s' => s'
    else (fresh (motorsOf x) s).operational
  else (fresh (motorsOf XCfg.default) s).deadWith .rangeError

end Sys2Proof.Machine
end

