-- ==== Sys2Proof/Machine/Port.lean ====
section
/-! DEFINITION. The command port: dispatch of one command word (R53), and what one step of the machine does with the
host's next request. -/

namespace Sys2Proof.Machine

/-- Dispatch of the word `c` in R53's order: Dead, IllegalCommand, the command's own rule (`run`). The port is closed
while construction has not ended, so a command is then not accepted and PMD does not move. `s` still has the request;
`s'` has it taken. -/
def dispatch (run : Instr → State → Host.Outcome State Fault Refusal) (c : CmdWord) (s s' : State) :
    Host.Outcome State Fault Refusal :=
  match s.ctl.phase with
  | .constructing => .next s
  | .dead => .next (s'.respond (.single (.err .dead)))
  | .operational =>
    match decode c with
    | .illegal _ => .next (s'.respond (.single (.err .illegalCommand)))
    | .legal i => run i s'

/-- One step: a stuck block takes no further step (R37); with no request PMD is idle (R138); otherwise it serves the
host's next request to its end (R16, R38, R53). -/
def serve (run : Instr → State → Host.Outcome State Fault Refusal) (s : State) : Host.Outcome State Fault Refusal :=
  if s.stuck then .next s
  else match s.host with
    | [] => .next s
    | .construct x :: rest => .next (construct x (s.withHost rest))
    | .command c :: rest => dispatch run c s (s.withHost rest)

end Sys2Proof.Machine
end

