-- ==== Sys2Proof/Machine/Step.lean ====
section
/-! DEFINITION. One step of the machine, and how a table word is put where the next step takes its command. -/

namespace Sys2Proof.Machine

/-- One step (see `serve`). -/
def step (s : State) : Host.Outcome State Fault Refusal := serve exec s

/-- `s` with the word of a table row at the command port, numbered as opcode_table.json numbers it. PMD fetches nothing
(R16): a command arrives from the host (log 6). -/
def State.withFetchWord (s : State) (nbits w : Nat) : State := s.present (BitVec.ofNat 72 (w % 2 ^ nbits))

end Sys2Proof.Machine
end

