-- ==== Sys2Proof/Machine/Assembler.lean ====
section
/-! DEFINITION. The assembler's spelling of a command (R56): one line per command, mnemonic then comma-separated
operands, comments from `;`. It stands beside the machine: no step uses it. A line is a list of characters. -/

namespace Sys2Proof.Machine

/-- The characters before the comment. -/
def stripComment : List Char → List Char
  | [] => []
  | c :: cs => if c = ';' then [] else c :: stripComment cs

def dropBlanks : List Char → List Char
  | [] => []
  | c :: cs => if c = ' ' then dropBlanks cs else c :: cs

/-- Without blanks at either end. -/
def trimBlanks (cs : List Char) : List Char := (dropBlanks (dropBlanks cs).reverse).reverse

/-- The first word and what follows it. -/
def splitWord : List Char → List Char × List Char
  | [] => ([], [])
  | c :: cs => if c = ' ' then ([], cs) else let r := splitWord cs; (c :: r.1, r.2)

/-- The parts between commas; at least one. -/
def splitCommas : List Char → List (List Char)
  | [] => [[]]
  | c :: cs =>
    match splitCommas cs with
    | [] => [[c]]
    | p :: ps => if c = ',' then [] :: p :: ps else (c :: p) :: ps

/-- The value of a run of decimal digits, added to `acc`; `none` for no digit or another character. -/
def digitsFrom (acc : Nat) : List Char → Option Nat
  | [] => some acc
  | c :: cs => if '0' ≤ c ∧ c ≤ '9' then digitsFrom (acc * 10 + (c.toNat - '0'.toNat)) cs else none

def natOfDigits (cs : List Char) : Option Nat := if cs = [] then none else digitsFrom 0 cs

/-- The characters before and after the first point; `none` for no point. -/
def splitPoint : List Char → Option (List Char × List Char)
  | [] => none
  | c :: cs => if c = '.' then some ([], cs) else (splitPoint cs).map fun r => (c :: r.1, r.2)

/-- An unsigned decimal number as `(n, k)`, standing for `n / 10^k`. -/
def unsignedDecimal (cs : List Char) : Option (Nat × Nat) :=
  match splitPoint cs with
  | none => (natOfDigits cs).map fun n => (n, 0)
  | some (whole, frac) =>
    (natOfDigits whole).bind fun n => (natOfDigits frac).map fun f => (n * 10 ^ frac.length + f, frac.length)

/-- A decimal number as `(n, k)`, standing for `n / 10^k`. -/
def decimal : List Char → Option (Int × Nat)
  | '-' :: cs => (unsignedDecimal cs).map fun q => (-(q.1 : Int), q.2)
  | cs => (unsignedDecimal cs).map fun q => ((q.1 : Int), q.2)

/-- A decimal `n / 10^k` as a percent operand (R56): NUM = 1 and the 16-bit two's complement of 64 times it, which must
be an integer in −32768..32767; nothing is rounded. -/
def percentOfDecimal (n : Int) (k : Nat) : Option Percent :=
  let scaled := n * 2 ^ config.pctFrac
  let raw := scaled / (10 ^ k : Int)
  if scaled % (10 ^ k : Int) = 0 ∧ -32768 ≤ raw ∧ raw ≤ 32767 then some { num := true, val := BitVec.ofInt 16 raw }
  else none

/-- A percent operand: a decimal number, or `NaN` for NUM = 0, `val` = 0. -/
def asmPercent (cs : List Char) : Option Percent :=
  if cs = ['N', 'a', 'N'] then some { num := false, val := 0 }
  else (decimal cs).bind fun q => percentOfDecimal q.1 q.2

/-- An integer operand within bounds. -/
def asmInteger (lo hi : Int) (cs : List Char) : Option Int :=
  (decimal cs).bind fun q => if q.2 = 0 ∧ lo ≤ q.1 ∧ q.1 ≤ hi then some q.1 else none

/-- A wheel: BL, FL, BR, FR or 0..3. -/
def asmWheel (cs : List Char) : Option Wheel :=
  if cs = ['B', 'L'] ∨ cs = ['0'] then some .backLeft
  else if cs = ['F', 'L'] ∨ cs = ['1'] then some .frontLeft
  else if cs = ['B', 'R'] ∨ cs = ['2'] then some .backRight
  else if cs = ['F', 'R'] ∨ cs = ['3'] then some .frontRight
  else none

/-- The operands of a line; a command without operands has none. -/
def asmOperands (cs : List Char) : List (List Char) :=
  let t := trimBlanks cs
  if t = [] then [] else (splitCommas t).map trimBlanks

/-- The instruction of a mnemonic and its operands, `none` where the assembler refuses the line. -/
def asmInstr (mnemonic : List Char) (ops : List (List Char)) : Option Instr :=
  if mnemonic = ['D', 'R', 'I', 'V', 'E'] then
    match ops with
    | [x, y, h] =>
      (asmPercent x).bind fun x => (asmPercent y).bind fun y => (asmPercent h).map fun h => .drive x y h
    | _ => none
  else if mnemonic = ['S', 'E', 'T', 'P', 'O', 'W', 'E', 'R', '4'] then
    match ops with
    | [bl, fl, br, fr] =>
      (asmPercent bl).bind fun bl => (asmPercent fl).bind fun fl =>
        (asmPercent br).bind fun br => (asmPercent fr).map fun fr => .setpower4 bl fl br fr
    | _ => none
  else if mnemonic = ['A', 'L', 'L', 'S', 'T', 'O', 'P'] then
    match ops with
    | [] => some .allstop
    | _ => none
  else if mnemonic = ['C', 'L', 'E', 'A', 'N', 'U', 'P'] then
    match ops with
    | [] => some .cleanup
    | _ => none
  else if mnemonic = ['M', 'S', 'E', 'T', 'P', 'O', 'W', 'E', 'R'] then
    match ops with
    | [w, p] => (asmWheel w).bind fun w => (asmPercent p).map fun p => .msetpower w p
    | _ => none
  else if mnemonic = ['S', 'E', 'T', 'D', 'U', 'T', 'Y'] then
    match ops with
    | [ch, duty] =>
      (asmInteger 0 15 ch).bind fun ch => (asmInteger (-32768) 32767 duty).map fun duty => .setduty ch duty
    | _ => none
  else if mnemonic = ['S', 'E', 'T', 'D', 'I', 'G'] then
    match ops with
    | [ch, high] => (asmInteger 0 15 ch).bind fun ch => (asmInteger 0 1 high).map fun g => .setdig ch (decide (g = 1))
    | _ => none
  else if mnemonic = ['I', 'N', 'I', 'T'] then
    match ops with
    | [hz] => (asmInteger 0 65535 hz).map fun hz => .init (BitVec.ofInt 16 hz)
    | _ => none
  else none

/-- The instruction a line stands for; `none` where the assembler refuses it, a blank line among them. -/
def assembleLine (line : List Char) : Option Instr :=
  let r := splitWord (trimBlanks (stripComment line))
  asmInstr r.1 (asmOperands r.2)

/-- The command word a line assembles to. -/
def assemble (line : List Char) : Option CmdWord := (assembleLine line).map encode

end Sys2Proof.Machine
end

