-- ==== Sys2Proof/Safety.lean ====
section
/-! DEFINITION. The terms the claims use: what the bus agent's coming outcomes are, what a command adds to the trace,
and the predicates a run keeps. No step uses anything here. -/

namespace Sys2Proof

/-- The transaction completes. -/
def BusReply.completes : BusReply → Bool
  | .complete _ => true
  | .fail => false
  | .never => false

namespace Machine

/-! ## What the bus agent will do (R36) -/

/-- From transaction `first` on, the next `count` transactions complete. -/
def State.CompletesFrom (s : State) (first count : Nat) : Prop :=
  ∀ k, k < count → (s.outcome (first + k)).completes = true

/-- ENSUREADDR will need `n` probes and leave the address `a` cached (R80, R81): none when an address is cached, else
the first `n - 1` candidates fail and the `n`-th, which is `a`, answers. -/
def State.Discovers (s : State) (n : Nat) (a : Addr) : Prop :=
  (s.ctl.addrValid = true ∧ n = 0 ∧ a = s.ctl.addr) ∨
  (s.ctl.addrValid = false ∧ ∃ k, n = k + 1 ∧ config.candidates[k]? = some a ∧
    (∀ j, j < k → s.outcome j = .fail) ∧ (s.outcome k).completes = true)

/-- ENSUREADDR will settle on `a` after `n` probes, and the `count` transactions after those complete. -/
def State.Ready (s : State) (n : Nat) (a : Addr) (count : Nat) : Prop := s.Discovers n a ∧ s.CompletesFrom n count

/-- No candidate answers its probe, and no address is cached (R127). -/
def State.NoDevice (s : State) : Prop := s.ctl.addrValid = false ∧ ∀ j, j < 8 → s.outcome j = .fail

/-! ## What a command adds to the trace -/

/-- The events of `n` probes of which the last answers (R81); none for `n = 0`. -/
def probeEvents (n : Nat) (a : Addr) : List Event :=
  match n with
  | 0 => []
  | k + 1 => (config.candidates.take k).map (fun c => .read c 0x00 .failed) ++ [.read a 0x00 .completed]

/-- The events of eight failed probes. -/
def failedProbes : List Event := config.candidates.map fun c => .read c 0x00 .failed

/-- The event of one step of an event list when it completes. -/
def BusStep.event (a : Addr) : BusStep → Event
  | .write reg v => .write a reg v .completed
  | .delay ms => .delay ms

/-- The events of an event list when every transaction completes. -/
def completedEvents (a : Addr) (es : List BusStep) : List Event := es.map (BusStep.event a)

/-- How many transactions an event list issues. -/
def transactions : List BusStep → Nat
  | [] => 0
  | .write _ _ :: es => transactions es + 1
  | .delay _ :: es => transactions es

/-- The events of an event list cut short by transaction number `k` (from 0), which ends with `fate` (R128): the events
before it, and it. -/
def cutEvents (a : Addr) (fate : Fate) : Nat → List BusStep → List Event
  | _, [] => []
  | 0, .write reg v :: _ => [.write a reg v fate]
  | k + 1, .write reg v :: es => .write a reg v .completed :: cutEvents a fate k es
  | k, .delay ms :: es => .delay ms :: cutEvents a fate k es

/-- The register at position `i` of a channel's block, `0x06 + 4*ch + i` (R32). -/
def blockReg (ch : Nat) (i : Nat) : Reg := BitVec.ofNat 8 (6 + 4 * ch + i)

/-- The four writes of a channel's block with the given bytes (R35). -/
def blockWrites (ch : Nat) (b0 b1 b2 b3 : Byte) : List BusStep :=
  [.write (blockReg ch 0) b0, .write (blockReg ch 1) b1, .write (blockReg ch 2) b2, .write (blockReg ch 3) b3]

/-- The full-off block (00, 00, 00, 10) on a channel. -/
def fullOffWrites (ch : Nat) : List BusStep := blockWrites ch 0x00 0x00 0x00 0x10

/-- The full-on block (00, 10, 00, 00) on a channel. -/
def fullOnWrites (ch : Nat) : List BusStep := blockWrites ch 0x00 0x10 0x00 0x00

/-- The block that a direction bit puts on a channel: full-on for 1, full-off for 0 (R72). -/
def levelWrites (ch : Nat) (high : Bool) : List BusStep := if high then fullOnWrites ch else fullOffWrites ch

/-- The block that a duty puts on a channel. -/
def dutyWrites (ch : Nat) (duty : Int) : List BusStep :=
  blockWrites ch (enc duty).onL (enc duty).onH (enc duty).offL (enc duty).offH

/-- The eight writes of MSETPOWER on a motor: the direction block, then the duty block (R96). -/
def motorWrites (m : MotorCfg) (power : Int) : List BusStep :=
  levelWrites m.dir.toNat (scale m power).dir ++ dutyWrites m.pwm.toNat (scale m power).duty

/-- The writes of a four-wheel command: for each wheel in order its eight writes, none for a non-numeric power
(R112). -/
def wheelWrites (m : PerWheel MotorCfg) (p : PerWheel (Option Int)) : List BusStep :=
  Wheel.order.flatMap fun w =>
    match p.get w with
    | none => []
    | some power => motorWrites (m.get w) power

/-- The per-wheel statuses of a four-wheel command none of whose transactions fails (R112). -/
def wheelStatuses (p : PerWheel (Option Int)) : PerWheel Status :=
  p.map fun q => if q.isSome then .ok else .err .invalidInput

/-- At least one wheel has a numeric power. -/
def anyNumeric (p : PerWheel (Option Int)) : Bool := Wheel.order.any fun w => (p.get w).isSome

/-- The 39 writes and the delay of INIT with prescaler byte `p` (R82, R84, R85). -/
def initSteps (m : PerWheel MotorCfg) (p : Byte) : List BusStep :=
  [.write 0x00 0x10, .write 0x01 0x04, .write 0x00 0x30,
   .write 0x00 0x30, .write 0xFE p, .write 0x00 0x20, .delay 5, .write 0x00 0xA0] ++
  Wheel.order.flatMap fun w => fullOffWrites (m.get w).dir.toNat ++ fullOffWrites (m.get w).pwm.toNat

/-- The 80 writes of CLEANUP (R116, R117). -/
def cleanupSteps (m : PerWheel MotorCfg) : List BusStep :=
  (List.range 16).flatMap fullOffWrites ++ Wheel.order.flatMap fun w => fullOffWrites (m.get w).dir.toNat

/-- The state after a command that found the state `s`, added `evs` to the trace by `n` transactions, left the
controller state `ctl` and responded `r`: everything else is unchanged (R18, R128, R133). -/
structure Ended (s t : State) (evs : List Event) (n : Nat) (ctl : Ctl) (r : Response) : Prop where
  trace        : t.trace = s.trace ++ evs
  dev          : t.dev = evs.foldl Event.applyDev s.dev
  responses    : t.responses = s.responses ++ [r]
  ctl          : t.ctl = ctl
  motors       : t.motors = s.motors
  construction : t.construction = s.construction
  stuck        : t.stuck = s.stuck
  host         : t.host = s.host
  bus          : t.bus = s.bus.drop n
  issued       : t.issued = s.issued + n

/-- The controller state with address `a` cached. -/
def Ctl.withAddr (c : Ctl) (a : Addr) : Ctl := { c with addrValid := true, addr := a }

/-- The controller state with address `a` cached and frequency `hz` configured. -/
def Ctl.withAddrFreq (c : Ctl) (a : Addr) (hz : BitVec 16) : Ctl :=
  { c with addrValid := true, addr := a, freqValid := true, freq := hz }

/-- An operation ends with status `st` in the state `t`: it completed, or it raised an error (R128). -/
def Settles (r : OpResult Unit) (st : Status) (t : State) : Prop :=
  (r = .done () t ∧ st = .ok) ∨ ∃ e, r = .raise e t ∧ st = .err e

/-- Of the next `n` transactions each completes or fails (the premise R161 asks for). -/
def State.NeverHangsFor (s : State) (n : Nat) : Prop := ∀ k, k < n → s.outcome k ≠ .never

/-! ## Exact arithmetic on percent quantities, as the spec writes it (R6, R7) -/

/-- `pct`: a raw count of 1/64 percent as the rational it stands for (R6). -/
def pct (raw : Int) : ℚ := (raw : ℚ) / 64

/-- `round(q)` of R7 on rationals. -/
def roundQ (tie : RoundTie) (q : ℚ) : Int :=
  let f := ⌊q⌋
  let r := q - f
  if r < 1 / 2 then f
  else if 1 / 2 < r then f + 1
  else match tie with
    | .halfEven => if f % 2 = 0 then f else f + 1
    | .halfAway => f + 1

/-! ## Assembler lines, as text (R56) -/

/-- A written decimal number: an optional minus sign, digits, and, when there are any, a point and the digits after it. -/
structure Numeral where
  neg   : Bool
  whole : List (Fin 10)
  frac  : List (Fin 10)
deriving DecidableEq, Repr

def digitText (ds : List (Fin 10)) : List Char := ds.map fun d => Nat.digitChar d.val

def digitsValue (ds : List (Fin 10)) : Nat := ds.foldl (fun n d => n * 10 + d.val) 0

def Numeral.text (q : Numeral) : List Char :=
  (if q.neg then ['-'] else []) ++ digitText q.whole ++ (if q.frac = [] then [] else '.' :: digitText q.frac)

/-- The number a numeral stands for. -/
def Numeral.value (q : Numeral) : ℚ :=
  (if q.neg then -1 else 1) * (digitsValue (q.whole ++ q.frac) : ℚ) / 10 ^ q.frac.length

/-- A text that can stand as one operand of a line: not empty, and nothing in it ends an operand. -/
def OperandText (cs : List Char) : Prop := cs ≠ [] ∧ ∀ c ∈ cs, c ≠ ' ' ∧ c ≠ ',' ∧ c ≠ ';'

/-- What a percent operand's text means (R56): `NaN` is the non-numeric operand with `val` 0; a decimal `q` is NUM 1 and
the 16 bits of `64 q` when that is an integer in −32768..32767; any other decimal, and any other text, is no operand. -/
inductive ReadsPercent : List Char → Option Percent → Prop where
  | nan : ReadsPercent ['N', 'a', 'N'] (some { num := false, val := 0 })
  | exact (q : Numeral) (z : Int) (hq : q.whole ≠ []) (hz : (z : ℚ) = 64 * q.value) (hlo : -32768 ≤ z) (hhi : z ≤ 32767) :
      ReadsPercent q.text (some { num := true, val := BitVec.ofInt 16 z })
  | refused (q : Numeral) (hq : q.whole ≠ []) (hz : ∀ z : Int, (z : ℚ) = 64 * q.value → z < -32768 ∨ 32767 < z) :
      ReadsPercent q.text none
  | other (cs : List Char) (ht : OperandText cs) (hn : cs ≠ ['N', 'a', 'N'])
      (hq : ∀ q : Numeral, q.whole ≠ [] → q.text ≠ cs) : ReadsPercent cs none

/-- What an integer operand's text means, for an operand of the range `lo..hi` (R56). -/
inductive ReadsInteger (lo hi : Int) : List Char → Option Int → Prop where
  | exact (q : Numeral) (z : Int) (hq : q.whole ≠ []) (hf : q.frac = []) (hz : (z : ℚ) = q.value) (hlo : lo ≤ z)
      (hhi : z ≤ hi) : ReadsInteger lo hi q.text (some z)
  | refused (q : Numeral) (z : Int) (hq : q.whole ≠ []) (hf : q.frac = []) (hz : (z : ℚ) = q.value) (hr : z < lo ∨ hi < z) :
      ReadsInteger lo hi q.text none
  | other (cs : List Char) (ht : OperandText cs)
      (hq : ∀ q : Numeral, q.whole ≠ [] → q.frac = [] → q.text ≠ cs) : ReadsInteger lo hi cs none

/-- The two spellings of a wheel (R56). -/
def wheelTexts : Wheel → List (List Char)
  | .backLeft => [['B', 'L'], ['0']]
  | .frontLeft => [['F', 'L'], ['1']]
  | .backRight => [['B', 'R'], ['2']]
  | .frontRight => [['F', 'R'], ['3']]

/-- A line as R56 spells it: the mnemonic, then the operands with commas between them. -/
def lineText (mnemonic : String) (operands : List (List Char)) : List Char :=
  if operands = [] then mnemonic.toList else mnemonic.toList ++ ' ' :: [',', ' '].intercalate operands

/-! ## What a run keeps -/

/-- DEV is the summary of the trace that R43 defines, in canonical form. -/
def DevInv (s : State) : Prop := Memory.wf s.dev = true ∧ s.dev = devOfTrace s.trace

/-- The motor configuration file has the fixed channel map and limits of at most 100 percent (R10, R11, R13). -/
def MotorsInv (s : State) : Prop :=
  ∀ w, (s.motors.get w).pwm = (config.wiring.get w).pwm ∧ (s.motors.get w).dir = (config.wiring.get w).dir ∧
    (s.motors.get w).maxpct.toNat ≤ 6400 ∧ (s.motors.get w).deadband.toNat ≤ 6400

/-- A cached address is one of the candidates, a configured frequency is legal (R31, R84). -/
def CtlInv (s : State) : Prop :=
  (s.ctl.addrValid = true → s.ctl.addr ∈ config.candidates) ∧
  (s.ctl.freqValid = true → 24 ≤ s.ctl.freq.toNat ∧ s.ctl.freq.toNat ≤ 12207)

/-- The phase agrees with the construction result (R145, R147), and a construction that has not ended is stuck (R37,
log 8). -/
def PhaseInv (s : State) : Prop :=
  match s.ctl.phase with
  | .constructing => s.construction = none ∧ s.stuck = true
  | .operational => s.construction = some .ok
  | .dead => s.stuck = false ∧ ∃ e, s.construction = some (.err e)

/-- The event waits for a transaction that never completes. -/
def Event.isPending : Event → Bool
  | .write _ _ _ .pending => true
  | .read _ _ .pending => true
  | _ => false

/-- PMD is stuck exactly when the last event of the trace never completes, and no earlier event is such (R37). -/
def StuckInv (s : State) : Prop :=
  (∀ e ∈ s.trace.dropLast, Event.isPending e = false) ∧
  (s.stuck = true ↔ ∃ e, s.trace.getLast? = some e ∧ Event.isPending e = true)

/-- A write PMD may emit, by register and byte (the table of R55). -/
def LegalWrite (reg : Reg) (v : Byte) : Prop :=
  (reg = 0x00 ∧ (v = 0x10 ∨ v = 0x30 ∨ v = 0x20 ∨ v = 0xA0)) ∨
  (reg = 0x01 ∧ v = 0x04) ∨
  (reg = 0xFE ∧ v.toNat ≤ 253) ∨
  (∃ ch : Nat, ch < 16 ∧ reg = blockReg ch 0 ∧ v = 0x00) ∨
  (∃ ch : Nat, ch < 16 ∧ reg = blockReg ch 1 ∧ (v = 0x00 ∨ v = 0x10)) ∨
  (∃ ch : Nat, ch < 16 ∧ reg = blockReg ch 2) ∨
  (∃ ch : Nat, ch < 16 ∧ reg = blockReg ch 3 ∧ v.toNat ≤ 0x10)

/-- An event of one of R55's shapes. -/
def LegalEvent : Event → Prop
  | .write dev reg v _ => dev ∈ config.candidates ∧ LegalWrite reg v
  | .read dev reg _ => dev ∈ config.candidates ∧ reg = 0x00
  | .delay ms => ms = 5

/-- Every event of the trace has one of R55's shapes, and the cached address, which the next writes go to, is a
candidate. -/
def ShapeInv (s : State) : Prop :=
  (∀ e ∈ s.trace, LegalEvent e) ∧ (s.ctl.addrValid = true → s.ctl.addr ∈ config.candidates)

/-- Every write to PRESCALE follows at once a completed write of SLEEP | AUTO_INCREMENT to MODE1, and one that
completed is followed at once by the wake write (R84, R153). -/
def PrescalerGuarded (t : List Event) : Prop :=
  ∀ before after dev v f, t = before ++ .write dev 0xFE v f :: after →
    (∃ before', before = before' ++ [.write dev 0x00 0x30 .completed]) ∧
    (f = .completed → ∃ f' after', after = .write dev 0x00 0x20 f' :: after')

/-- The restart write follows at once a delay of at least 5 ms that follows at once a completed wake write (R84,
R154). -/
def RestartDelayed (t : List Event) : Prop :=
  ∀ before after dev f, t = before ++ .write dev 0x00 0xA0 f :: after →
    ∃ before', before = before' ++ [.write dev 0x00 0x20 .completed, .delay 5]

/-- The registers of one channel's block. -/
def blockRegs (ch : Nat) : List Reg := [blockReg ch 0, blockReg ch 1, blockReg ch 2, blockReg ch 3]

/-- The registers of the two blocks of a motor. -/
def motorRegs (m : MotorCfg) : List Reg := blockRegs m.dir.toNat ++ blockRegs m.pwm.toNat

/-- The registers of the eight known channels' blocks. -/
def knownRegs (m : PerWheel MotorCfg) : List Reg := Wheel.order.flatMap fun w => motorRegs (m.get w)

end Machine

end Sys2Proof
end

