-- ==== Sys2Proof/Certificates/Slice0/Obligations.lean ====
section
/-! DEFINITION. The statements about PMD. Each docstring names the rule of the spec it formalises. Every statement holds
for both settings of `ROUND_TIE` and for every behaviour of the bus agent, unless its hypotheses say otherwise. -/

open Sys2Proof Sys2Proof.Machine

/-! ## Encoding -/

/-- Command words of 30_encoding.md section 7, one or two for each opcode, decode to the instruction of their line. -/
def Obligations.ExampleWordsDecode : Prop :=
  decode 0x1828041E03FB000000 = .legal (.drive ⟨true, 0x0500⟩ ⟨true, 0x0780⟩ ⟨true, 0xFD80⟩) ∧
  decode 0x286407CE0200C00000 = .legal (.setpower4 ⟨true, 0x0C80⟩ ⟨true, 0xF380⟩ ⟨true, 0x0060⟩ ⟨false, 0⟩) ∧
  decode 0x300000000000000000 = .legal .allstop ∧
  decode 0x400000000000000000 = .legal .cleanup ∧
  decode 0x586400000800000000 = .legal (.msetpower .backRight ⟨true, 0x0C80⟩) ∧
  decode 0x67FFF8000000000000 = .legal (.setduty 0 (-1)) ∧
  decode 0x607FF8003C00000000 = .legal (.setduty 15 4095) ∧
  decode 0x700008000C00000000 = .legal (.setdig 3 true) ∧
  decode 0x801F40000000000000 = .legal (.init 1000)

/-- Decoding the encoder's word of a well-formed instruction gives the instruction back (R50, R51, R52). -/
def Obligations.DecodeOfEncode : Prop :=
  ∀ i : Instr, i.wellFormed = true → decode (encode i) = .legal i

/-- A legal word is the encoder's word of its instruction, which is well formed: no bit of a word is dropped and no two
words have one meaning (R50, R51, R52). -/
def Obligations.EncodeOfDecode : Prop :=
  ∀ (c : CmdWord) (i : Instr), decode c = .legal i → encode i = c ∧ i.wellFormed = true

/-- A word is legal exactly when it matches a row of the opcode table (`legal(c)` of R53). -/
def Obligations.DecoderAcceptsExactlyTheTable : Prop :=
  ∀ c : CmdWord, (∃ i, decode c = .legal i) ↔ ∃ row ∈ opcodeTable, c &&& row.mask = row.bits

/-- R54: reserved opcodes, the all-zero word and non-zero must-be-zero bits are illegal, and an illegal word has no
effect but its IllegalCommand response. -/
def Obligations.IllegalWordsOnlyRespond : Prop :=
  (∀ c : CmdWord, (opcodeOf c = 0 ∨ 9 ≤ (opcodeOf c).toNat) → ∃ why, decode c = .illegal why) ∧
  (∃ why, decode 0 = .illegal why) ∧
  (∀ (c : CmdWord) (row : OpcodeRow), row ∈ opcodeTable → opcodeOf c = opcodeOf row.bits → c &&& row.mask ≠ row.bits →
    ∃ why, decode c = .illegal why) ∧
  (∀ (s : State) (c : CmdWord) (rest : List HostRequest) (why : IllegalWord), s.stuck = false →
    s.ctl.phase = .operational → s.host = .command c :: rest → decode c = .illegal why →
    step s = .next { s with host := rest, responses := s.responses ++ [⟨.err .illegalCommand, ⟨.ok, .ok, .ok, .ok⟩⟩] })

/-- With NUM = 0 the `val` bits of a percent operand are ignored (R51). -/
def Obligations.NonNumericValueIgnored : Prop :=
  ∀ (v v' : BitVec 16) (p q r : Percent) (w : Wheel) (s : State),
    exec (.msetpower w ⟨false, v⟩) s = exec (.msetpower w ⟨false, v'⟩) s ∧
    exec (.setpower4 ⟨false, v⟩ p q r) s = exec (.setpower4 ⟨false, v'⟩ p q r) s ∧
    exec (.setpower4 p ⟨false, v⟩ q r) s = exec (.setpower4 p ⟨false, v'⟩ q r) s ∧
    exec (.setpower4 p q ⟨false, v⟩ r) s = exec (.setpower4 p q ⟨false, v'⟩ r) s ∧
    exec (.setpower4 p q r ⟨false, v⟩) s = exec (.setpower4 p q r ⟨false, v'⟩) s ∧
    exec (.drive ⟨false, v⟩ p q) s = exec (.drive ⟨false, v'⟩ p q) s ∧
    exec (.drive p ⟨false, v⟩ q) s = exec (.drive p ⟨false, v'⟩ q) s ∧
    exec (.drive p q ⟨false, v⟩) s = exec (.drive p q ⟨false, v'⟩) s

/-- From R56, with R51 and R53: a line of a mnemonic and its operands, spelled as R56 spells it, assembles to its
instruction when every operand is legal and is refused when one is not: a decimal `q` is legal exactly when `64 q` is an
integer in −32768..32767, a wheel is one of its two spellings. A comment and blanks at either end change nothing; and
whatever line is accepted gives a well-formed instruction and a legal word. (The form of a decimal, that an integer outside
its operand's range or with a point is refused, and what blanks are allowed, are the model's reading, log 21.) -/
def Obligations.AssemblerAcceptsWellFormedLines : Prop :=
  (∀ (x y h : List Char) (px py ph : Option Percent), ReadsPercent x px → ReadsPercent y py → ReadsPercent h ph →
    assembleLine (lineText "DRIVE" [x, y, h]) = px.bind fun x => py.bind fun y => ph.map fun h => .drive x y h) ∧
  (∀ (bl fl br fr : List Char) (p0 p1 p2 p3 : Option Percent), ReadsPercent bl p0 → ReadsPercent fl p1 →
    ReadsPercent br p2 → ReadsPercent fr p3 →
    assembleLine (lineText "SETPOWER4" [bl, fl, br, fr]) =
      p0.bind fun bl => p1.bind fun fl => p2.bind fun br => p3.map fun fr => .setpower4 bl fl br fr) ∧
  assembleLine (lineText "ALLSTOP" []) = some .allstop ∧
  assembleLine (lineText "CLEANUP" []) = some .cleanup ∧
  (∀ (w : Wheel) (tw tp : List Char) (p : Option Percent), tw ∈ wheelTexts w → ReadsPercent tp p →
    assembleLine (lineText "MSETPOWER" [tw, tp]) = p.map fun p => .msetpower w p) ∧
  (∀ (tw tp : List Char) (p : Option Percent), OperandText tw → (∀ w, tw ∉ wheelTexts w) → ReadsPercent tp p →
    assembleLine (lineText "MSETPOWER" [tw, tp]) = none) ∧
  (∀ (tc td : List Char) (ch duty : Option Int), ReadsInteger 0 15 tc ch → ReadsInteger (-32768) 32767 td duty →
    assembleLine (lineText "SETDUTY" [tc, td]) = ch.bind fun ch => duty.map fun duty => .setduty ch duty) ∧
  (∀ (tc tl : List Char) (ch level : Option Int), ReadsInteger 0 15 tc ch → ReadsInteger 0 1 tl level →
    assembleLine (lineText "SETDIG" [tc, tl]) = ch.bind fun ch => level.map fun g => .setdig ch (decide (g = 1))) ∧
  (∀ (th : List Char) (hz : Option Int), ReadsInteger 0 65535 th hz →
    assembleLine (lineText "INIT" [th]) = hz.map fun hz => .init (BitVec.ofInt 16 hz)) ∧
  (∀ line comment : List Char, ';' ∉ line → assembleLine (line ++ ';' :: comment) = assembleLine line) ∧
  (∀ (line : List Char) (k : Nat), assembleLine (line ++ List.replicate k ' ') = assembleLine line ∧
    assembleLine (List.replicate k ' ' ++ line) = assembleLine line) ∧
  (∀ (line : List Char) (i : Instr), assembleLine line = some i → i.wellFormed = true) ∧
  (∀ (line : List Char) (i : Instr), assembleLine line = some i → assemble line = some (encode i)) ∧
  (∀ (line : List Char) (c : CmdWord), assemble line = some c → ∃ i, decode c = .legal i)

/-! ## One step -/

/-- A step of an idle open port runs the command whose word the host has issued: it takes the request and is exec of
the decoded instruction (R16, R53). A table word put at the port by `withFetchWord` is run by the very next step; that
`withFetchWord` opens the port, frees it and puts the word first is the model's choice (log 6). -/
def Obligations.StepRunsDecodedCommand : Prop :=
  (∀ (s : State) (c : CmdWord) (rest : List HostRequest) (i : Instr), s.stuck = false → s.ctl.phase = .operational →
    s.host = .command c :: rest → decode c = .legal i → step s = exec i { s with host := rest }) ∧
  (∀ (s : State) (rest : List HostRequest) (i : Instr), s.stuck = false → s.ctl.phase = .operational →
    s.host = .command (encode i) :: rest → i.wellFormed = true → step s = exec i { s with host := rest }) ∧
  (∀ (s : State) (w : Nat) (i : Instr), decodeTableWord 72 w = some i →
    step (s.withFetchWord 72 w) = exec i { s with stuck := false, ctl := { s.ctl with phase := .operational } })

/-- With no request PMD does nothing (R134), and while construction has not ended no command is accepted (R53). That such
a command stays the host's first request and the step changes nothing is the model's deduction (log 18). -/
def Obligations.IdleStepChangesNothing : Prop :=
  (∀ s : State, s.host = [] → step s = .next s) ∧
  (∀ (s : State) (c : CmdWord) (rest : List HostRequest), s.host = .command c :: rest →
    s.ctl.phase = .constructing → step s = .next s)

/-- A DEAD block answers every command word, legal or not, with Dead, with no bus event and nothing else changed, so it
stays DEAD until a construction (R53, R130, R147). -/
def Obligations.DeadAnswersEveryCommandDead : Prop :=
  ∀ (s : State) (c : CmdWord) (rest : List HostRequest), s.stuck = false → s.ctl.phase = .dead →
    s.host = .command c :: rest →
    step s = .next { s with host := rest, responses := s.responses ++ [⟨.err .dead, ⟨.ok, .ok, .ok, .ok⟩⟩] }

/-- From R37: a transaction that never completes blocks PMD for good. The operation that issues it ends there; the command
in progress produces no response and the transaction is the last event; no later command is accepted. That no later step
changes anything, so that a construction request is not served either, is the model's deduction (log 8). -/
def Obligations.HungTransactionBlocksForGood : Prop :=
  (∀ (s : State) (reg : Reg) (v : Byte), s.outcome 0 = .never → ∃ t, memWrite reg v s = .hang t ∧ t.stuck = true) ∧
  (∀ (s : State) (a : Addr) (reg : Reg), s.outcome 0 = .never → ∃ t, memReadAt a reg s = .hang t ∧ t.stuck = true) ∧
  (∀ (i : Instr) (s t : State), s.stuck = false → exec i s = .next t → t.stuck = true →
    t.responses = s.responses ∧ ∃ e, t.trace.getLast? = some e ∧ Event.isPending e = true) ∧
  (∀ (s : State) (n : Nat), s.stuck = true → Host.Core.run core n s = .next s)

/-- From R135 and R161: a command issues at most 164 transactions, INIT at most 8 probes and 39 writes; when none of
them hangs, the command ends with exactly one response. (R161 names CLEANUP with no device, 160 probes, as the longest; a
device that answers the last probe adds its four writes.) -/
def Obligations.CommandEndsUnlessHung : Prop :=
  (∀ (i : Instr) (s t : State), exec i s = .next t → t.issued ≤ s.issued + 164) ∧
  (∀ (hz : BitVec 16) (s t : State), exec (.init hz) s = .next t → t.issued ≤ s.issued + 47) ∧
  (∀ (i : Instr) (s : State), s.stuck = false → s.NeverHangsFor 164 →
    ∃ t r, exec i s = .next t ∧ t.stuck = false ∧ t.responses = s.responses ++ [r])

/-! ## Pure functions -/

/-- R70: ENC's three arms. -/
def Obligations.EncThreeArms : Prop :=
  ∀ duty : Int,
    (duty ≤ 0 → enc duty = ⟨0x00, 0x00, 0x00, 0x10⟩) ∧
    (4095 ≤ duty → enc duty = ⟨0x00, 0x10, 0x00, 0x00⟩) ∧
    (0 < duty → duty < 4095 →
      (enc duty).onL = 0x00 ∧ (enc duty).onH = 0x00 ∧ ((enc duty).offL.toNat : Int) = duty % 256 ∧
      ((enc duty).offH.toNat : Int) = duty / 256 ∧ (enc duty).offH.toNat ≤ 0x0F)

/-- R73, (a) to (f): distinct encodings at the ends, never both flags, ON_L always 0, the inverse on 0..4095 and so
injectivity, what is never produced, saturation. -/
def Obligations.EncProperties : Prop :=
  (enc 0 = ⟨0, 0, 0, 0x10⟩ ∧ enc 4095 = ⟨0, 0x10, 0, 0⟩ ∧ enc 0 ≠ ⟨0, 0, 0, 0⟩ ∧ enc 4095 ≠ ⟨0, 0, 0xFF, 0x0F⟩) ∧
  (∀ duty : Int, ¬((enc duty).onH.getLsbD 4 = true ∧ (enc duty).offH.getLsbD 4 = true)) ∧
  (∀ duty : Int, (enc duty).onL = 0x00) ∧
  (∀ duty : Int, 0 ≤ duty → duty ≤ 4095 →
    duty = if (enc duty).offH.getLsbD 4 then 0
           else if (enc duty).onH.getLsbD 4 then 4095
           else 256 * (((enc duty).offH.extractLsb' 0 4).toNat : Int) + ((enc duty).offL.toNat : Int)) ∧
  (∀ d d' : Int, 0 ≤ d → d ≤ 4095 → 0 ≤ d' → d' ≤ 4095 → enc d = enc d' → d = d') ∧
  (∀ duty : Int, enc duty ≠ ⟨0, 0, 0, 0⟩ ∧ enc duty ≠ ⟨0, 0, 0xFF, 0x0F⟩ ∧ (enc duty).onH.toNat < 32 ∧
    (enc duty).offH.toNat < 32) ∧
  (∀ duty : Int, (duty ≤ 0 → enc duty = enc 0) ∧ (4095 ≤ duty → enc duty = enc 4095))

/-- R83: PRESCALE is the rounded formula under either tie setting, has the closed form, fits the register exactly for
24..12207, is non-increasing there, is 0 exactly from 4070 on, and has the listed values. -/
def Obligations.PrescaleFormula : Prop :=
  (∀ (tie : RoundTie) (hz : Nat), 1 ≤ hz →
    prescaleWith tie hz = roundQ tie (25000000 / (4096 * (hz : ℚ)) - 1) ∧
    prescaleWith tie hz = (50000000 - 4096 * (hz : Int)) / (8192 * (hz : Int)) ∧
    ((0 ≤ prescaleWith tie hz ∧ prescaleWith tie hz ≤ 255) ↔ (24 ≤ hz ∧ hz ≤ 12207))) ∧
  (∀ (tie : RoundTie) (hz hz' : Nat), 24 ≤ hz → hz ≤ hz' → hz' ≤ 12207 →
    prescaleWith tie hz' ≤ prescaleWith tie hz ∧ (prescaleWith tie hz = 0 ↔ 4070 ≤ hz)) ∧
  (∀ tie : RoundTie,
    prescaleWith tie 24 = 253 ∧ prescaleWith tie 25 = 243 ∧ prescaleWith tie 50 = 121 ∧ prescaleWith tie 60 = 101 ∧
    prescaleWith tie 100 = 60 ∧ prescaleWith tie 200 = 30 ∧ prescaleWith tie 1000 = 5 ∧ prescaleWith tie 1526 = 3 ∧
    prescaleWith tie 1600 = 3 ∧ prescaleWith tie 4069 = 1 ∧ prescaleWith tie 4070 = 0 ∧ prescaleWith tie 6103 = 0 ∧
    prescaleWith tie 12207 = 0 ∧ prescaleWith tie 23 = 264 ∧ prescaleWith tie 12208 = -1) ∧
  (∀ hz : Nat, prescale hz = prescaleWith config.roundTie hz)

/-- R95: on the rationals the operands stand for, SCALE yields the direction and the duty of the rule, with `round` of
R7, under either tie setting; the duty is in 0..4095 for a cap of at most 100 percent. -/
def Obligations.ScaleIsTheRationalRule : Prop :=
  (∀ (tie : RoundTie) (m : MotorCfg) (power : Int),
    let effective : ℚ := if m.polneg then -pct power else pct power
    let magnitude : ℚ := |effective|
    (scaleWith tie m power).dir = decide (0 ≤ effective) ∧
    (scaleWith tie m power).duty =
      if magnitude ≤ pct m.deadband.toNat then 0
      else roundQ tie (min (pct m.maxpct.toNat) magnitude / 100 * 4095)) ∧
  (∀ (m : MotorCfg) (power : Int), scale m power = scaleWith config.roundTie m power) ∧
  (∀ (tie : RoundTie) (m : MotorCfg) (power : Int), m.maxpct.toNat ≤ 6400 →
    0 ≤ (scaleWith tie m power).duty ∧ (scaleWith tie m power).duty ≤ 4095)

/-- R98: the direction bit is 1 exactly for a non-negative effective power, zero is forward for both polarities, and
neither the deadband nor the cap is consulted: −1 percent with a deadband of 2 gives reverse and duty 0. -/
def Obligations.DirectionIsSignOfEffectivePower : Prop :=
  (∀ (m : MotorCfg) (power : Int), m.polneg = false → ((scale m power).dir = true ↔ 0 ≤ power)) ∧
  (∀ (m : MotorCfg) (power : Int), m.polneg = true → ((scale m power).dir = true ↔ power ≤ 0)) ∧
  (∀ m : MotorCfg, (scale m 0).dir = true) ∧
  (∀ (m m' : MotorCfg) (power : Int), m.polneg = m'.polneg → (scale m power).dir = (scale m' power).dir) ∧
  (∀ m : MotorCfg, m.polneg = false → m.deadband = 128 → scale m (-64) = ⟨false, 0⟩)

/-- R99: a magnitude up to and including the deadband gives duty 0; above it the duty is the full scaled value of the
capped magnitude, without a ramp (2.015625 percent gives 83 with deadband 2 and cap 40). -/
def Obligations.DeadbandThenFullScale : Prop :=
  (∀ (m : MotorCfg) (power : Int), power.natAbs ≤ m.deadband.toNat → (scale m power).duty = 0) ∧
  (∀ (m : MotorCfg) (power : Int), m.deadband.toNat < power.natAbs →
    (scale m power).duty = dutyOfMagnitude config.roundTie (min m.maxpct.toNat power.natAbs)) ∧
  (∀ m : MotorCfg, m.deadband = 128 → m.maxpct = 2560 → (scale m 129).duty = 83 ∧ (scale m 128).duty = 0) ∧
  (∀ (m : MotorCfg) (power : Int), m.deadband = 0 → power ≠ 0 →
    (scale m power).duty = dutyOfMagnitude config.roundTie (min m.maxpct.toNat power.natAbs)) ∧
  (∀ (m : MotorCfg) (power : Int), m.deadband = 6400 → power.natAbs ≤ 6400 → (scale m power).duty = 0)

/-- R100 and claim 2 of 95_test_vectors.md: whatever the command, the duty is at most that of the cap, so at most 1638
with the default cap of 40 percent, and a cap of 0 gives duty 0. -/
def Obligations.SafetyCapBoundsDuty : Prop :=
  (∀ (tie : RoundTie) (m : MotorCfg) (power : Int),
    (scaleWith tie m power).duty ≤ roundQ tie (pct m.maxpct.toNat / 100 * 4095)) ∧
  (∀ (tie : RoundTie) (m : MotorCfg) (power : Int), m.maxpct.toNat ≤ 2560 → (scaleWith tie m power).duty ≤ 1638) ∧
  (∀ (tie : RoundTie) (m : MotorCfg) (power : Int), m.maxpct = 0 → (scaleWith tie m power).duty = 0)

/-- R101: in integers, the duty of a clamped magnitude of `c` 1/64 percent; an exact half arises only at 10, 30, 50, 70
and 90 percent, and the two tie settings differ at 30 and 70 percent only. -/
def Obligations.TiesOnlyAtFiveMagnitudes : Prop :=
  (∀ (tie : RoundTie) (c : Nat), c ≤ 6400 →
    let q := 1638 * c / 2560
    let r := 1638 * c % 2560
    dutyOfMagnitude tie c =
      if r < 1280 then (q : Int)
      else if 1280 < r then (q : Int) + 1
      else match tie with
        | .halfAway => (q : Int) + 1
        | .halfEven => if q % 2 = 0 then (q : Int) else (q : Int) + 1) ∧
  (∀ c : Nat, c ≤ 6400 → (1638 * c % 2560 = 1280 ↔ c = 640 ∨ c = 1920 ∨ c = 3200 ∨ c = 4480 ∨ c = 5760)) ∧
  (∀ c : Nat, c ≤ 6400 → (dutyOfMagnitude .halfEven c ≠ dutyOfMagnitude .halfAway c ↔ c = 1920 ∨ c = 4480)) ∧
  (dutyOfMagnitude .halfEven 640 = 410 ∧ dutyOfMagnitude .halfEven 1920 = 1228 ∧ dutyOfMagnitude .halfEven 3200 = 2048 ∧
    dutyOfMagnitude .halfEven 4480 = 2866 ∧ dutyOfMagnitude .halfEven 5760 = 3686 ∧
    dutyOfMagnitude .halfAway 640 = 410 ∧ dutyOfMagnitude .halfAway 1920 = 1229 ∧ dutyOfMagnitude .halfAway 3200 = 2048 ∧
    dutyOfMagnitude .halfAway 4480 = 2867 ∧ dutyOfMagnitude .halfAway 5760 = 3686)

/-- From R102: duty 4095 needs a cap of 100 percent and a magnitude of at least 100; with the cap at 100 and no deadband
every duty 0..4095 is reached; with the default limits the duties are exactly 0 and 83..1638. -/
def Obligations.EveryDutyReachable : Prop :=
  (∀ (tie : RoundTie) (m : MotorCfg) (power : Int), m.maxpct.toNat ≤ 6400 →
    ((scaleWith tie m power).duty = 4095 ↔
      m.maxpct.toNat = 6400 ∧ 6400 ≤ power.natAbs ∧ m.deadband.toNat < power.natAbs)) ∧
  (∀ (tie : RoundTie) (m : MotorCfg) (d : Int), m.maxpct.toNat = 6400 → m.deadband.toNat = 0 → 0 ≤ d → d ≤ 4095 →
    ∃ power : Int, (scaleWith tie m power).duty = d) ∧
  (∀ (tie : RoundTie) (m : MotorCfg) (d : Int), m.maxpct.toNat = 2560 → m.deadband.toNat = 128 →
    ((∃ power : Int, (scaleWith tie m power).duty = d) ↔ d = 0 ∨ (83 ≤ d ∧ d ≤ 1638)))

/-- R103: above the deadband the duty is the rounded capped magnitude; over all powers it is non-decreasing in the
magnitude; a polarity −1 motor at +50 and a polarity +1 motor at −50 have the same duty and direction bit; flipping the
polarity keeps the duty and flips the direction bit unless the power is 0, which stays forward. -/
def Obligations.ScaleMonotoneAndPolarity : Prop :=
  (∀ (tie : RoundTie) (m : MotorCfg) (power : Int), pct m.deadband.toNat < |pct power| →
    (scaleWith tie m power).duty = roundQ tie (min (pct m.maxpct.toNat) |pct power| / 100 * 4095)) ∧
  (∀ (tie : RoundTie) (m : MotorCfg) (p q : Int), p.natAbs ≤ q.natAbs →
    (scaleWith tie m p).duty ≤ (scaleWith tie m q).duty) ∧
  (∀ (tie : RoundTie) (m : MotorCfg) (p : Int),
    scaleWith tie { m with polneg := true } p = scaleWith tie { m with polneg := false } (-p)) ∧
  (∀ (tie : RoundTie) (m : MotorCfg) (p : Int),
    (scaleWith tie { m with polneg := !m.polneg } p).duty = (scaleWith tie m p).duty ∧
    (p ≠ 0 → (scaleWith tie { m with polneg := !m.polneg } p).dir = !(scaleWith tie m p).dir) ∧
    (p = 0 → (scaleWith tie { m with polneg := !m.polneg } p).dir = true ∧ (scaleWith tie m p).dir = true))

/-- R110: MIX's four equations, exact; with 16-bit operands each output lies in [−1536, 1536) percent, that is raw
−98304..98303, and an 18-bit two's complement datapath computes it without overflow. -/
def Obligations.MixFitsEighteenBits : Prop :=
  (∀ x y h : Int, mix x y h = ⟨y - x - h, y + x + h, y + x - h, y - x + h⟩) ∧
  (∀ (x y h : BitVec 16) (w : Wheel),
    -98304 ≤ (mix x.toInt y.toInt h.toInt).get w ∧ (mix x.toInt y.toInt h.toInt).get w ≤ 98303) ∧
  (mix (-32768) (-32768) (-32768)).frontLeft = -98304 ∧
  (∀ x y h : BitVec 16,
    let x' := x.signExtend 18
    let y' := y.signExtend 18
    let h' := h.signExtend 18
    mix x.toInt y.toInt h.toInt =
      ⟨(y' - x' - h').toInt, (y' + x' + h').toInt, (y' + x' - h').toInt, (y' - x' + h').toInt⟩)

/-- R115, (a) to (g), the clamp of (b) included. -/
def Obligations.MixProperties : Prop :=
  mix 0 0 0 = ⟨0, 0, 0, 0⟩ ∧
  mix 0 6400 0 = ⟨6400, 6400, 6400, 6400⟩ ∧
  (∀ (m : MotorCfg) (w : Wheel), m.maxpct.toNat ≤ 6400 →
    clampMagnitude m ((mix 0 6400 0).get w).natAbs = m.maxpct.toNat) ∧
  mix 6400 0 0 = ⟨-6400, 6400, 6400, -6400⟩ ∧
  (∀ h : Int, mix 0 0 h = ⟨-h, h, -h, h⟩) ∧
  (∀ (k x y h x' y' h' : Int) (w : Wheel),
    (mix (k * x + x') (k * y + y') (k * h + h')).get w = k * (mix x y h).get w + (mix x' y' h').get w) ∧
  (∀ x y h : Int,
    (mix x y h).backLeft + (mix x y h).frontLeft = 2 * y ∧ (mix x y h).backRight + (mix x y h).frontRight = 2 * y ∧
    (mix x y h).backLeft + (mix x y h).frontLeft + (mix x y h).backRight + (mix x y h).frontRight = 4 * y ∧
    (mix x y h).frontLeft + (mix x y h).backRight - (mix x y h).backLeft - (mix x y h).frontRight = 4 * x ∧
    (mix x y h).frontLeft + (mix x y h).frontRight - (mix x y h).backLeft - (mix x y h).backRight = 4 * h) ∧
  (∀ x y h : Int, (∀ w, |(mix x y h).get w| ≤ |x| + |y| + |h|) ∧ ∃ w, |(mix x y h).get w| = |x| + |y| + |h|)

/-! ## Discovery and set-up -/

/-- R81, for any ordered list of candidates: the first that answers is returned, after failed probes of those before it;
when all fail DeviceNotFoundError is raised; a probe that never completes hangs PMD. DISCOVER caches nothing. -/
def Obligations.DiscoverReturnsFirstResponder : Prop :=
  (∀ (cands : List Addr) (s : State) (k : Nat) (a : Addr), cands[k]? = some a → (∀ j, j < k → s.outcome j = .fail) →
    (s.outcome k).completes = true →
    ∃ t, discover cands s = .done a t ∧ t.ctl = s.ctl ∧ t.motors = s.motors ∧
      t.trace = s.trace ++ (cands.take k).map (fun c => .read c 0x00 .failed) ++ [.read a 0x00 .completed]) ∧
  (∀ (cands : List Addr) (s : State), (∀ j, j < cands.length → s.outcome j = .fail) →
    ∃ t, discover cands s = .raise .deviceNotFound t ∧ t.ctl = s.ctl ∧ t.motors = s.motors ∧
      t.trace = s.trace ++ cands.map (fun c => .read c 0x00 .failed)) ∧
  (∀ (cands : List Addr) (s : State) (k : Nat) (a : Addr), cands[k]? = some a → (∀ j, j < k → s.outcome j = .fail) →
    s.outcome k = .never →
    ∃ t, discover cands s = .hang t ∧ t.ctl = s.ctl ∧ t.motors = s.motors ∧ t.stuck = true ∧
      t.trace = s.trace ++ (cands.take k).map (fun c => .read c 0x00 .failed) ++ [.read a 0x00 .pending]) ∧
  config.candidates = [0x40, 0x41, 0x42, 0x43, 0x44, 0x45, 0x46, 0x31]

/-- From R80 and R127: ENSUREADDR with an address cached does nothing; otherwise it caches the first candidate that
answers, and when none answers it raises DeviceNotFoundError and leaves the controller state as it was. -/
def Obligations.EnsureAddrCachesOnce : Prop :=
  (∀ s : State, s.ctl.addrValid = true → ensureAddr s = .done () s) ∧
  (∀ (s : State) (n : Nat) (a : Addr), s.Discovers n a →
    ∃ t, ensureAddr s = .done () t ∧ t.ctl = { s.ctl with addrValid := true, addr := a } ∧
      t.trace = s.trace ++ probeEvents n a) ∧
  (∀ s : State, s.NoDevice →
    ∃ t, ensureAddr s = .raise .deviceNotFound t ∧ t.ctl = s.ctl ∧ t.trace = s.trace ++ failedProbes)

/-- R82: CFGDEF's three writes in order; an error cuts them short; nothing of PMD is written. -/
def Obligations.CfgdefThreeWrites : Prop :=
  let steps : List BusStep := [.write 0x00 0x10, .write 0x01 0x04, .write 0x00 0x30]
  (∀ s : State, s.CompletesFrom 0 3 →
    ∃ t, cfgDef s = .done () t ∧ t.trace = s.trace ++ completedEvents s.ctl.addr steps ∧ t.ctl = s.ctl ∧
      t.motors = s.motors ∧ Memory.read t.dev 0x00 = some 0x30 ∧ Memory.read t.dev 0x01 = some 0x04) ∧
  (∀ (s : State) (k : Nat), k < 3 → s.CompletesFrom 0 k → s.outcome k = .fail →
    ∃ t, cfgDef s = .raise .busError t ∧ t.trace = s.trace ++ cutEvents s.ctl.addr .failed k steps ∧ t.ctl = s.ctl ∧
      t.motors = s.motors)

/-- R84: SETFREQ refuses a frequency outside 24..12207 before any bus event; otherwise sleep, prescaler, wake, wait,
restart in that order; the frequency is recorded when all four writes completed and not otherwise. -/
def Obligations.SetfreqSequence : Prop :=
  (∀ (hz : BitVec 16) (s : State), (hz.toNat < 24 ∨ 12207 < hz.toNat) → setFreq hz s = .raise .rangeError s) ∧
  (∀ (hz : BitVec 16) (s : State), 24 ≤ hz.toNat → hz.toNat ≤ 12207 → s.CompletesFrom 0 4 →
    ∃ t, setFreq hz s = .done () t ∧ t.ctl = { s.ctl with freqValid := true, freq := hz } ∧ t.motors = s.motors ∧
      t.trace = s.trace ++ completedEvents s.ctl.addr [.write 0x00 0x30, .write 0xFE (BitVec.ofInt 8 (prescale hz.toNat)),
        .write 0x00 0x20, .delay 5, .write 0x00 0xA0]) ∧
  (∀ (hz : BitVec 16) (s : State) (k : Nat), 24 ≤ hz.toNat → hz.toNat ≤ 12207 → k < 4 → s.CompletesFrom 0 k →
    s.outcome k = .fail →
    ∃ t, setFreq hz s = .raise .busError t ∧ t.ctl = s.ctl ∧ t.motors = s.motors ∧
      t.trace = s.trace ++ cutEvents s.ctl.addr .failed k [.write 0x00 0x30,
        .write 0xFE (BitVec.ofInt 8 (prescale hz.toNat)), .write 0x00 0x20, .delay 5, .write 0x00 0xA0])

/-- R85: INIT refuses a bad frequency with no bus event, not even a probe; with every transaction completing it issues
any probes, CFGDEF's and SETFREQ's events and the eight full-off blocks in order, caches the address, records the
frequency and responds OK; with no device it responds DeviceNotFoundError. -/
def Obligations.InitSequence : Prop :=
  (∀ (hz : BitVec 16) (s : State), (hz.toNat < 24 ∨ 12207 < hz.toNat) →
    exec (.init hz) s = .next { s with responses := s.responses ++ [.single (.err .rangeError)] }) ∧
  (∀ (hz : BitVec 16) (s : State) (n : Nat) (a : Addr), 24 ≤ hz.toNat → hz.toNat ≤ 12207 → s.Ready n a 39 →
    ∃ t, exec (.init hz) s = .next t ∧
      Ended s t (probeEvents n a ++ completedEvents a (initSteps s.motors (BitVec.ofInt 8 (prescale hz.toNat)))) (n + 39)
        (s.ctl.withAddrFreq a hz) (.single .ok)) ∧
  (∀ (hz : BitVec 16) (s : State), 24 ≤ hz.toNat → hz.toNat ≤ 12207 → s.NoDevice →
    ∃ t, exec (.init hz) s = .next t ∧ Ended s t failedProbes 8 s.ctl (.single (.err .deviceNotFound)))

/-- R86, for INIT as a command: it stops at the first failing write, number `k` of its 39; nothing later is issued and
nothing undone; the error is the response, the phase stays, the address stays cached, and the frequency is recorded
exactly when SETFREQ (the writes before number 7) had completed. -/
def Obligations.InitStopsAtFirstError : Prop :=
  ∀ (hz : BitVec 16) (s : State) (n k : Nat) (a : Addr), 24 ≤ hz.toNat → hz.toNat ≤ 12207 → s.Discovers n a → k < 39 →
    s.CompletesFrom n k → s.outcome (n + k) = .fail →
    ∃ t, exec (.init hz) s = .next t ∧
      Ended s t (probeEvents n a ++ cutEvents a .failed k (initSteps s.motors (BitVec.ofInt 8 (prescale hz.toNat))))
        (n + k + 1) (if k < 7 then s.ctl.withAddr a else s.ctl.withAddrFreq a hz) (.single (.err .busError))

/-- From R85 and R87: after a completed INIT, DEV holds the restart byte in MODE1, 0x04 in
MODE2, the prescaler, and the full-off block on each known channel. -/
def Obligations.InitLeavesKnownChannelsOff : Prop :=
  ∀ (hz : BitVec 16) (s t : State) (n : Nat) (a : Addr), 24 ≤ hz.toNat → hz.toNat ≤ 12207 → s.Ready n a 39 →
    exec (.init hz) s = .next t →
    Memory.read t.dev 0x00 = some 0xA0 ∧ Memory.read t.dev 0x01 = some 0x04 ∧
    Memory.read t.dev 0xFE = some (BitVec.ofInt 8 (prescale hz.toNat)) ∧
    ∀ w : Wheel, ∀ ch ∈ [(s.motors.get w).dir.toNat, (s.motors.get w).pwm.toNat],
      Memory.read t.dev (6 + 4 * ch) = some 0x00 ∧ Memory.read t.dev (6 + 4 * ch + 1) = some 0x00 ∧
      Memory.read t.dev (6 + 4 * ch + 2) = some 0x00 ∧ Memory.read t.dev (6 + 4 * ch + 3) = some 0x10

/-! ## Channel commands -/

/-- R71: SETDUTY writes the four bytes of ENC(duty) at `0x06 + 4*ch`, after any probes, and responds OK; a channel outside
0..15 is refused with no bus event; with no device DeviceNotFoundError; a failing write, number `k` of the four, is the
last event and gives BusError. -/
def Obligations.SetdutyWritesBlock : Prop :=
  (∀ (ch duty : Int) (s : State), (ch < 0 ∨ 15 < ch) →
    exec (.setduty ch duty) s = .next { s with responses := s.responses ++ [.single (.err .rangeError)] }) ∧
  (∀ (ch duty : Int) (s : State) (n : Nat) (a : Addr), 0 ≤ ch → ch ≤ 15 → s.Ready n a 4 →
    ∃ t, exec (.setduty ch duty) s = .next t ∧
      Ended s t (probeEvents n a ++ completedEvents a (dutyWrites ch.toNat duty)) (n + 4) (s.ctl.withAddr a)
        (.single .ok)) ∧
  (∀ (ch duty : Int) (s : State), 0 ≤ ch → ch ≤ 15 → s.NoDevice →
    ∃ t, exec (.setduty ch duty) s = .next t ∧ Ended s t failedProbes 8 s.ctl (.single (.err .deviceNotFound))) ∧
  (∀ (ch duty : Int) (s : State) (n k : Nat) (a : Addr), 0 ≤ ch → ch ≤ 15 → s.Discovers n a → k < 4 →
    s.CompletesFrom n k → s.outcome (n + k) = .fail →
    ∃ t, exec (.setduty ch duty) s = .next t ∧
      Ended s t (probeEvents n a ++ cutEvents a .failed k (dutyWrites ch.toNat duty)) (n + k + 1) (s.ctl.withAddr a)
        (.single (.err .busError)))

/-- R72: SETDIG is SETDUTY of 4095 or 0 in every respect; with every transaction completing it writes the full-on block
for 1 and the full-off block for 0. -/
def Obligations.SetdigWritesLevel : Prop :=
  (∀ (ch : Int) (high : Bool) (s : State),
    exec (.setdig ch high) s = exec (.setduty ch (if high then 4095 else 0)) s) ∧
  (∀ (ch : Int) (high : Bool) (s : State) (n : Nat) (a : Addr), 0 ≤ ch → ch ≤ 15 → s.Ready n a 4 →
    ∃ t, exec (.setdig ch high) s = .next t ∧
      Ended s t (probeEvents n a ++ completedEvents a (levelWrites ch.toNat high)) (n + 4) (s.ctl.withAddr a)
        (.single .ok))

/-- R57: the pseudo-instructions behave as the commands they stand for, in every state. -/
def Obligations.PseudoInstructions : Prop :=
  (∀ s : State, exec .allstop s = exec (.setpower4 ⟨true, 0⟩ ⟨true, 0⟩ ⟨true, 0⟩ ⟨true, 0⟩) s) ∧
  (∀ (ch : Int) (s : State), exec (.setdig ch true) s = exec (.setduty ch 4095) s) ∧
  (∀ (ch : Int) (s : State), exec (.setdig ch false) s = exec (.setduty ch 0) s)

/-! ## Motor and chassis commands -/

/-- R96: MSETPOWER rejects a non-numeric operand with no bus event; otherwise it writes the direction block, then the
duty block of SCALE's result, eight writes in all; an error ends it at once, so a failure in the direction block leaves
the duty block unwritten. `wst[w]` equals `st`. -/
def Obligations.MsetpowerDirectionThenDuty : Prop :=
  (∀ (w : Wheel) (p : Percent) (s : State), p.num = false →
    exec (.msetpower w p) s = .next { s with responses := s.responses ++ [.motor w (.err .invalidInput)] }) ∧
  (∀ (w : Wheel) (p : Percent) (s : State) (n : Nat) (a : Addr), p.num = true → s.Ready n a 8 →
    ∃ t, exec (.msetpower w p) s = .next t ∧
      Ended s t (probeEvents n a ++ completedEvents a (motorWrites (s.motors.get w) p.val.toInt)) (n + 8)
        (s.ctl.withAddr a) (.motor w .ok)) ∧
  (∀ (w : Wheel) (p : Percent) (s : State), p.num = true → s.NoDevice →
    ∃ t, exec (.msetpower w p) s = .next t ∧ Ended s t failedProbes 8 s.ctl (.motor w (.err .deviceNotFound))) ∧
  (∀ (w : Wheel) (p : Percent) (s : State) (n k : Nat) (a : Addr), p.num = true → s.Discovers n a → k < 8 →
    s.CompletesFrom n k → s.outcome (n + k) = .fail →
    ∃ t, exec (.msetpower w p) s = .next t ∧
      Ended s t (probeEvents n a ++ cutEvents a .failed k (motorWrites (s.motors.get w) p.val.toInt)) (n + k + 1)
        (s.ctl.withAddr a) (.motor w (.err .busError)))

/-- R112: SETPOWER4 runs the four motors in order, each from the state the one before left, whether that one completed
or failed; the response reports each wheel's status and, as `st`, the first that is not OK. With no failing transaction
the trace is the numeric wheels' eight writes each, in order; with no numeric power there is no bus event; with no device
there are four rounds of eight failed probes. -/
def Obligations.Setpower4RunsEveryWheel : Prop :=
  (∀ (bl fl br fr : Percent) (s s1 s2 s3 s4 : State) (r0 r1 r2 r3 : Status),
    Settles (motorSetPower .backLeft bl.value s) r0 s1 → Settles (motorSetPower .frontLeft fl.value s1) r1 s2 →
    Settles (motorSetPower .backRight br.value s2) r2 s3 → Settles (motorSetPower .frontRight fr.value s3) r3 s4 →
    ∃ st, exec (.setpower4 bl fl br fr) s = .next { s4 with responses := s4.responses ++ [⟨st, ⟨r0, r1, r2, r3⟩⟩] } ∧
      [r0, r1, r2, r3].find? (fun r => r ≠ .ok) = (if st = .ok then none else some st)) ∧
  (∀ (bl fl br fr : Percent) (s : State) (n : Nat) (a : Addr),
    let p : PerWheel (Option Int) := ⟨bl.value, fl.value, br.value, fr.value⟩
    anyNumeric p = true → s.Ready n a (transactions (wheelWrites s.motors p)) →
    ∃ t, exec (.setpower4 bl fl br fr) s = .next t ∧
      Ended s t (probeEvents n a ++ completedEvents a (wheelWrites s.motors p))
        (n + transactions (wheelWrites s.motors p)) (s.ctl.withAddr a) (.wheels (wheelStatuses p))) ∧
  (∀ (bl fl br fr : Percent) (s : State), bl.num = false → fl.num = false → br.num = false → fr.num = false →
    exec (.setpower4 bl fl br fr) s =
      .next { s with responses := s.responses ++ [.wheels (.all (.err .invalidInput))] }) ∧
  (∀ (bl fl br fr : Percent) (s : State), bl.num = true → fl.num = true → br.num = true → fr.num = true →
    s.ctl.addrValid = false → (∀ j, j < 32 → s.outcome j = .fail) →
    ∃ t, exec (.setpower4 bl fl br fr) s = .next t ∧
      Ended s t (failedProbes ++ failedProbes ++ failedProbes ++ failedProbes) 32 s.ctl
        (.wheels (.all (.err .deviceNotFound))))

/-- R111: DRIVE with three numeric inputs drives the wheels with MIX's full-width outputs; a non-numeric input makes every
wheel answer InvalidInput with no bus event; where the four powers fit SETPOWER4's operands the two commands are one; and
whether the bus completes or fails, the wheels run in order, each from the state the one before left. -/
def Obligations.DriveMixesThenDrives : Prop :=
  (∀ (x y h : Percent) (s : State) (n : Nat) (a : Addr), x.num = true → y.num = true → h.num = true →
    s.Ready n a 32 →
    let p : PerWheel (Option Int) :=
      ⟨some (y.val.toInt - x.val.toInt - h.val.toInt), some (y.val.toInt + x.val.toInt + h.val.toInt),
       some (y.val.toInt + x.val.toInt - h.val.toInt), some (y.val.toInt - x.val.toInt + h.val.toInt)⟩
    ∃ t, exec (.drive x y h) s = .next t ∧
      Ended s t (probeEvents n a ++ completedEvents a (wheelWrites s.motors p)) (n + 32) (s.ctl.withAddr a)
        (.wheels (.all .ok))) ∧
  (∀ (x y h : Percent) (s : State), (x.num = false ∨ y.num = false ∨ h.num = false) →
    exec (.drive x y h) s = .next { s with responses := s.responses ++ [.wheels (.all (.err .invalidInput))] }) ∧
  (∀ (x y h bl fl br fr : Percent) (s : State), x.num = true → y.num = true → h.num = true →
    bl.value = some (y.val.toInt - x.val.toInt - h.val.toInt) → fl.value = some (y.val.toInt + x.val.toInt + h.val.toInt) →
    br.value = some (y.val.toInt + x.val.toInt - h.val.toInt) → fr.value = some (y.val.toInt - x.val.toInt + h.val.toInt) →
    exec (.drive x y h) s = exec (.setpower4 bl fl br fr) s) ∧
  (∀ (x y h : Percent) (s s1 s2 s3 s4 : State) (r0 r1 r2 r3 : Status), x.num = true → y.num = true → h.num = true →
    Settles (motorSetPower .backLeft (some (y.val.toInt - x.val.toInt - h.val.toInt)) s) r0 s1 →
    Settles (motorSetPower .frontLeft (some (y.val.toInt + x.val.toInt + h.val.toInt)) s1) r1 s2 →
    Settles (motorSetPower .backRight (some (y.val.toInt + x.val.toInt - h.val.toInt)) s2) r2 s3 →
    Settles (motorSetPower .frontRight (some (y.val.toInt - x.val.toInt + h.val.toInt)) s3) r3 s4 →
    ∃ st, exec (.drive x y h) s = .next { s4 with responses := s4.responses ++ [⟨st, ⟨r0, r1, r2, r3⟩⟩] } ∧
      [r0, r1, r2, r3].find? (fun r => r ≠ .ok) = (if st = .ok then none else some st))

/-- R114: ALLSTOP puts the full-on block on every direction channel and the full-off block on every PWM channel, in wheel
order, whatever the polarities, caps and deadbands: 32 writes, response OK. -/
def Obligations.AllstopStopsWithLinesHigh : Prop :=
  ∀ (s : State) (n : Nat) (a : Addr), s.Ready n a 32 →
    ∃ t, exec .allstop s = .next t ∧
      Ended s t
        (probeEvents n a ++ completedEvents a (Wheel.order.flatMap fun w =>
          fullOnWrites (s.motors.get w).dir.toNat ++ fullOffWrites (s.motors.get w).pwm.toNat))
        (n + 32) (s.ctl.withAddr a) (.wheels (.all .ok))

/-- R117 and R116's completed case: CLEANUP's 80 writes, and DEV after them: every channel's block full-off and every
register outside the channel blocks as before. -/
def Obligations.CleanupWritesEverything : Prop :=
  ∀ (s : State) (n : Nat) (a : Addr), s.Ready n a 80 →
    ∃ t, exec .cleanup s = .next t ∧
      Ended s t (probeEvents n a ++ completedEvents a (cleanupSteps s.motors)) (n + 80) (s.ctl.withAddr a) (.single .ok) ∧
      (∀ ch, ch < 16 → Memory.read t.dev (6 + 4 * ch) = some 0x00 ∧ Memory.read t.dev (6 + 4 * ch + 1) = some 0x00 ∧
        Memory.read t.dev (6 + 4 * ch + 2) = some 0x00 ∧ Memory.read t.dev (6 + 4 * ch + 3) = some 0x10) ∧
      (∀ reg : Nat, (reg < 0x06 ∨ 0x45 < reg) → Memory.read t.dev reg = Memory.read s.dev reg)

/-- From R116 and R132: CLEANUP responds OK whatever fails, and with an address cached it attempts every channel; with no
device it issues 160 failed probes and no write. -/
def Obligations.CleanupNeverFails : Prop :=
  (∀ s : State, s.stuck = false → s.NeverHangsFor 164 →
    ∃ t, exec .cleanup s = .next t ∧ t.stuck = false ∧ t.responses = s.responses ++ [.single .ok] ∧
      (s.ctl.addrValid = true → ∃ evs, t.trace = s.trace ++ evs ∧
        ∀ ch, ch < 16 → ∃ f, Event.write s.ctl.addr (blockReg ch 0) 0x00 f ∈ evs)) ∧
  (∀ s : State, s.ctl.addrValid = false → (∀ j, j < 160 → s.outcome j = .fail) →
    ∃ t, exec .cleanup s = .next t ∧
      Ended s t ((List.range 20).flatMap fun _ => failedProbes) 160 s.ctl (.single .ok))

/-! ## Responses -/

/-- R17: what a response looks like. A four-wheel command's `st` is OK when all `wst` are OK and otherwise that of the
lowest-numbered wheel that failed; MSETPOWER's `wst[w]` equals `st` and the others are OK; every other command's `wst` are
all OK. A command gives at most one response. -/
def Obligations.ResponseLayout : Prop :=
  ∀ (i : Instr) (s t : State), exec i s = .next t →
    t.responses = s.responses ∨
    ∃ r : Response, t.responses = s.responses ++ [r] ∧
      match i with
      | .drive _ _ _ | .setpower4 _ _ _ _ | .allstop =>
        (r.st = .ok ↔ ∀ w, r.wst.get w = .ok) ∧
        (r.st ≠ .ok → ∃ w, r.wst.get w = r.st ∧ ∀ w', Wheel.order.idxOf w' < Wheel.order.idxOf w → r.wst.get w' = .ok)
      | .msetpower w _ => r.wst.get w = r.st ∧ ∀ w', w' ≠ w → r.wst.get w' = .ok
      | .cleanup | .setduty _ _ | .setdig _ _ | .init _ => ∀ w, r.wst.get w = .ok

/-- R125's codes, and that no status has code 7. -/
def Obligations.StatusCodes : Prop :=
  Status.code .ok = 0 ∧ Status.code (.err .busError) = 1 ∧ Status.code (.err .deviceNotFound) = 2 ∧
  Status.code (.err .invalidInput) = 3 ∧ Status.code (.err .rangeError) = 4 ∧
  Status.code (.err .illegalCommand) = 5 ∧ Status.code (.err .dead) = 6 ∧ ∀ st : Status, Status.code st ≠ 7

/-! ## Frames -/

/-- From R10, R14, R18, R128, R133: whatever the bus does, no command changes the motor file, the phase, the construction
result or the host's requests; the trace only grows and DEV is updated by the new events alone; a cached address stays;
there is one response, or none and PMD is stuck. -/
def Obligations.CommandFrame : Prop :=
  ∀ (i : Instr) (s t : State), s.stuck = false → exec i s = .next t →
    t.motors = s.motors ∧ t.ctl.phase = s.ctl.phase ∧ t.construction = s.construction ∧ t.host = s.host ∧
    (∃ evs, t.trace = s.trace ++ evs ∧ t.dev = evs.foldl Event.applyDev s.dev) ∧
    (s.ctl.addrValid = true → t.ctl.addrValid = true ∧ t.ctl.addr = s.ctl.addr) ∧
    (t.ctl.addrValid = false → t.ctl.addr = s.ctl.addr) ∧
    ((t.stuck = true ∧ t.responses = s.responses) ∨ (t.stuck = false ∧ ∃ r, t.responses = s.responses ++ [r]))

/-- From R14 and R84: the configured frequency is changed by INIT alone, and then to INIT's operand. -/
def Obligations.OnlyInitConfiguresFrequency : Prop :=
  (∀ (i : Instr) (s t : State), s.stuck = false → (∀ hz, i ≠ .init hz) → exec i s = .next t →
    t.ctl.freqValid = s.ctl.freqValid ∧ t.ctl.freq = s.ctl.freq) ∧
  (∀ (hz : BitVec 16) (s t : State), s.stuck = false → exec (.init hz) s = .next t →
    (t.ctl.freqValid = s.ctl.freqValid ∧ t.ctl.freq = s.ctl.freq) ∨ (t.ctl.freqValid = true ∧ t.ctl.freq = hz))

/-- The registers each command leaves alone, whatever the bus does (R32, R71, R72, R85, R96, R112, R116): every DEV entry
outside the blocks the command may write reads as before. -/
def Obligations.RegisterFrame : Prop :=
  (∀ (ch duty : Int) (s t : State) (reg : Reg), s.stuck = false → exec (.setduty ch duty) s = .next t → reg ∉ blockRegs ch.toNat →
    Memory.read t.dev reg.toNat = Memory.read s.dev reg.toNat) ∧
  (∀ (ch : Int) (high : Bool) (s t : State) (reg : Reg), s.stuck = false → exec (.setdig ch high) s = .next t → reg ∉ blockRegs ch.toNat →
    Memory.read t.dev reg.toNat = Memory.read s.dev reg.toNat) ∧
  (∀ (w : Wheel) (p : Percent) (s t : State) (reg : Reg), s.stuck = false → exec (.msetpower w p) s = .next t →
    reg ∉ motorRegs (s.motors.get w) → Memory.read t.dev reg.toNat = Memory.read s.dev reg.toNat) ∧
  (∀ (bl fl br fr : Percent) (s t : State) (reg : Reg), s.stuck = false → exec (.setpower4 bl fl br fr) s = .next t →
    reg ∉ knownRegs s.motors → Memory.read t.dev reg.toNat = Memory.read s.dev reg.toNat) ∧
  (∀ (x y h : Percent) (s t : State) (reg : Reg), s.stuck = false → exec (.drive x y h) s = .next t →
    reg ∉ knownRegs s.motors → Memory.read t.dev reg.toNat = Memory.read s.dev reg.toNat) ∧
  (∀ (s t : State) (reg : Reg), s.stuck = false → exec .allstop s = .next t →
    reg ∉ knownRegs s.motors → Memory.read t.dev reg.toNat = Memory.read s.dev reg.toNat) ∧
  (∀ (s t : State) (reg : Reg), s.stuck = false → exec .cleanup s = .next t → (reg.toNat < 0x06 ∨ 0x45 < reg.toNat) →
    Memory.read t.dev reg.toNat = Memory.read s.dev reg.toNat) ∧
  (∀ (hz : BitVec 16) (s t : State) (reg : Reg), s.stuck = false → exec (.init hz) s = .next t →
    reg ∉ [0x00, 0x01, 0xFE] ++ knownRegs s.motors → Memory.read t.dev reg.toNat = Memory.read s.dev reg.toNat)

/-- R18, R22 and R133 for every command: what a command adds to the trace and what it answers depend on its operands, the
motor file, the cached address if there is one, and the bus outcomes, and on nothing earlier; an address that is not
cached is never looked at. -/
def Obligations.CommandsIgnoreHistory : Prop :=
  ∀ (i : Instr) (s s' t t' : State), s.motors = s'.motors → s.ctl.addrValid = s'.ctl.addrValid →
    (s.ctl.addrValid = true → s.ctl.addr = s'.ctl.addr) → (∀ k, s.outcome k = s'.outcome k) → exec i s = .next t → exec i s' = .next t' →
    (∃ evs, t.trace = s.trace ++ evs ∧ t'.trace = s'.trace ++ evs) ∧
    (∃ rs, t.responses = s.responses ++ rs ∧ t'.responses = s'.responses ++ rs) ∧
    t.ctl.addrValid = t'.ctl.addrValid ∧ (t.ctl.addrValid = true → t.ctl.addr = t'.ctl.addr)

/-! ## The bookkeeping map -/

/-- From R43 and U5: DEV defined from the trace. A completed write sets its register, a failed one makes it unknown, one
that never completes leaves it, no other register changes, reads and delays change nothing, and before any write every
register is unknown. -/
def Obligations.DevIsLastCompletedWrite : Prop :=
  (∀ r : Nat, Memory.read (devOfTrace []) r = none) ∧
  (∀ (t : List Event) (d : Addr) (reg : Reg) (v : Byte),
    Memory.read (devOfTrace (t ++ [.write d reg v .completed])) reg.toNat = some v) ∧
  (∀ (t : List Event) (d : Addr) (reg : Reg) (v : Byte),
    Memory.read (devOfTrace (t ++ [.write d reg v .failed])) reg.toNat = none) ∧
  (∀ (t : List Event) (d : Addr) (reg : Reg) (v : Byte),
    devOfTrace (t ++ [.write d reg v .pending]) = devOfTrace t) ∧
  (∀ (t : List Event) (d : Addr) (reg : Reg) (v : Byte) (f : Fate) (r : Nat), r ≠ reg.toNat →
    Memory.read (devOfTrace (t ++ [.write d reg v f])) r = Memory.read (devOfTrace t) r) ∧
  (∀ (t : List Event) (d : Addr) (reg : Reg) (f : Fate), devOfTrace (t ++ [.read d reg f]) = devOfTrace t) ∧
  (∀ (t : List Event) (ms : Nat), devOfTrace (t ++ [.delay ms]) = devOfTrace t)

/-- From R40, R43 and R128: the four registers of a channel's block after SETDUTY. When every write completes they hold
ENC's bytes; when write number `k` fails, those before it hold the new bytes, its own is unknown, and those after it are
as before, so the block is a mixture. -/
def Obligations.SetdutyBlockInDev : Prop :=
  (∀ (ch duty : Int) (s t : State) (n : Nat) (a : Addr), 0 ≤ ch → ch ≤ 15 → s.Ready n a 4 →
    exec (.setduty ch duty) s = .next t →
    Memory.read t.dev (6 + 4 * ch.toNat) = some (enc duty).onL ∧
    Memory.read t.dev (6 + 4 * ch.toNat + 1) = some (enc duty).onH ∧
    Memory.read t.dev (6 + 4 * ch.toNat + 2) = some (enc duty).offL ∧
    Memory.read t.dev (6 + 4 * ch.toNat + 3) = some (enc duty).offH) ∧
  (∀ (ch duty : Int) (s t : State) (n k : Nat) (a : Addr), 0 ≤ ch → ch ≤ 15 → Memory.wf s.dev = true →
    s.Discovers n a → k < 4 → s.CompletesFrom n k → s.outcome (n + k) = .fail →
    exec (.setduty ch duty) s = .next t →
    (∀ i, i < k → Memory.read t.dev (6 + 4 * ch.toNat + i) =
      [(enc duty).onL, (enc duty).onH, (enc duty).offL, (enc duty).offH][i]?) ∧
    Memory.read t.dev (6 + 4 * ch.toNat + k) = none ∧
    (∀ i, k < i → i < 4 → Memory.read t.dev (6 + 4 * ch.toNat + i) = Memory.read s.dev (6 + 4 * ch.toNat + i)))

/-! ## Construction -/

/-- From R11 to R13, R20, R22, R145, R148: a construction with legal parameters and `init` 0 issues no bus event, forgets
everything earlier (the trace, the responses, the cached address and frequency, and what DEV knew), fills the motor file,
and opens the port. -/
def Obligations.ConstructionWithoutInit : Prop :=
  ∀ (s : State) (x : XCfg) (rest : List HostRequest), s.stuck = false → s.host = .construct x :: rest →
    x.legal = true → x.init = false →
    ∃ t, step s = .next t ∧ t.ctl.phase = .operational ∧ t.ctl.addrValid = false ∧ t.ctl.freqValid = false ∧
      t.trace = [] ∧ (∀ reg, Memory.read t.dev reg = none) ∧ t.dev = [] ∧ t.responses = [] ∧
      t.construction = some .ok ∧ t.stuck = false ∧ t.host = rest ∧ t.bus = s.bus ∧ t.issued = s.issued ∧
      t.motors.map (fun m => (m.pwm, m.dir)) = ⟨(1, 3), (0, 2), (14, 13), (15, 12)⟩ ∧
      (∀ w, (t.motors.get w).maxpct = x.maxpct.get w ∧ (t.motors.get w).deadband = x.deadband.get w) ∧
      (∀ w p, x.ovr.get w = some p → (t.motors.get w).polneg = decide (p < 0)) ∧
      (∀ w, x.ovr.get w = none → (t.motors.get w).polneg = decide (w = .backRight ∨ w = .frontRight))

/-- R146: a limit above raw 6400, `hz` = 0, or with `init` 1 an `hz` outside 24..12207, makes construction fail with
RangeError and the block DEAD, with no bus event; the check is just these bounds. -/
def Obligations.ConstructionChecksParameters : Prop :=
  (∀ x : XCfg, x.legal = true ↔
    (∀ w, (x.maxpct.get w).toNat ≤ 6400 ∧ (x.deadband.get w).toNat ≤ 6400) ∧ 0 < x.hz.toNat) ∧
  (∀ (s : State) (x : XCfg) (rest : List HostRequest), s.stuck = false → s.host = .construct x :: rest →
    (x.legal = false ∨ (x.init = true ∧ (x.hz.toNat < 24 ∨ 12207 < x.hz.toNat))) →
    ∃ t, step s = .next t ∧ t.ctl.phase = .dead ∧ t.construction = some (.err .rangeError) ∧ t.trace = [] ∧
      t.bus = s.bus ∧ t.issued = s.issued)

/-- From R145 and R147: a construction-time INIT that completes opens the port; one that fails makes the block DEAD, with
the events INIT had issued in the trace, and its error is the construction result. -/
def Obligations.ConstructionTimeInit : Prop :=
  ∀ (s : State) (x : XCfg) (rest : List HostRequest), s.stuck = false → s.host = .construct x :: rest →
    x.legal = true → x.init = true →
    let start := fresh (motorsOf x) { s with host := rest }
    let steps := initSteps (motorsOf x) (BitVec.ofInt 8 (prescale x.hz.toNat))
    (24 ≤ x.hz.toNat → x.hz.toNat ≤ 12207 →
      (start.NoDevice →
        ∃ t, step s = .next t ∧ t.ctl.phase = .dead ∧ t.construction = some (.err .deviceNotFound) ∧
          t.trace = failedProbes) ∧
      (∀ n a, start.Ready n a 39 →
        ∃ t, step s = .next t ∧ t.ctl = ⟨.operational, true, a, true, x.hz⟩ ∧ t.construction = some .ok ∧
          t.motors = motorsOf x ∧ t.trace = probeEvents n a ++ completedEvents a steps) ∧
      (∀ n k a, start.Discovers n a → k < 39 → start.CompletesFrom n k → start.outcome (n + k) = .fail →
        ∃ t, step s = .next t ∧ t.ctl.phase = .dead ∧ t.construction = some (.err .busError) ∧
          t.trace = probeEvents n a ++ cutEvents a .failed k steps))

/-- From R145: a construction keeps no memory of what was before it; only the environment's coming inputs matter. -/
def Obligations.ConstructionForgetsThePast : Prop :=
  ∀ (x : XCfg) (s s' : State), s.host = s'.host → s.bus = s'.bus → s.issued = s'.issued →
    construct x s = construct x s'

/-! ## Invariants of every step -/

/-- `State.reset` meets every invariant below, and has the reset values that R22 states: the motor table, no cached
address, no frequency, an empty trace and every device register unknown. That it is the state after a construction with
the default parameters and `init` 0 is the model's choice (log 6). -/
def Obligations.ResetMeetsInvariants : Prop :=
  DevInv State.reset ∧ MotorsInv State.reset ∧ CtlInv State.reset ∧ PhaseInv State.reset ∧ StuckInv State.reset ∧
  ShapeInv State.reset ∧ PrescalerGuarded State.reset.trace ∧ RestartDelayed State.reset.trace ∧
  State.reset.motors = ⟨⟨1, 3, false, 2560, 128⟩, ⟨0, 2, false, 2560, 128⟩, ⟨14, 13, true, 2560, 128⟩,
    ⟨15, 12, true, 2560, 128⟩⟩ ∧
  State.reset.ctl.addrValid = false ∧ State.reset.ctl.freqValid = false ∧ State.reset.trace = [] ∧
  (∀ reg, Memory.read State.reset.dev reg = none) ∧ State.reset = construct XCfg.default State.reset

/-- DEV stays the canonical summary of the trace that R43 defines. -/
def Obligations.StepKeepsDevSummary : Prop :=
  ∀ s t : State, DevInv s → step s = .next t → DevInv t

/-- The motor file keeps the fixed channel map and limits of at most 100 percent, and only a construction changes it
(R10, R11, R13, R146). -/
def Obligations.StepKeepsMotorFile : Prop :=
  (∀ s t : State, MotorsInv s → step s = .next t → MotorsInv t) ∧
  (∀ s t : State, (∀ x rest, s.host ≠ .construct x :: rest) → step s = .next t → t.motors = s.motors)

/-- A cached address stays one of the candidates, a configured frequency stays legal (R31, R84). -/
def Obligations.StepKeepsControllerState : Prop :=
  ∀ s t : State, CtlInv s → step s = .next t → CtlInv t

/-- The phase keeps agreeing with the construction result (R145, R147). That a construction which has not ended is stuck,
with no result (R37), is the model's deduction (log 8). -/
def Obligations.StepKeepsPhase : Prop :=
  ∀ s t : State, PhaseInv s → step s = .next t → PhaseInv t

/-- PMD is stuck exactly while its last event is a transaction that never completes (R37). -/
def Obligations.StepKeepsStuckMeaning : Prop :=
  ∀ s t : State, StuckInv s → step s = .next t → StuckInv t

/-- Every bus event PMD emits has one of the shapes of R55's table. -/
def Obligations.StepKeepsTraceShapes : Prop :=
  ∀ s t : State, ShapeInv s → step s = .next t → ShapeInv t

/-- The prescaler is written only right after a completed sleep write and, once written, the wake write follows at once;
the restart write comes right after the wake write and the 5 ms delay (R84, R153, R154). -/
def Obligations.StepKeepsPrescalerGuarded : Prop :=
  ∀ s t : State, PrescalerGuarded s.trace → RestartDelayed s.trace → step s = .next t →
    PrescalerGuarded t.trace ∧ RestartDelayed t.trace
end

