-- ==== Sys2Proof/Laws/Arith.lean ====
section
/-! SUPPORT. `round` on integers and on rationals, the duty of a magnitude, and the fields of SCALE. -/

namespace Sys2Proof

/-- Rounding stays within half of the divisor. -/
theorem roundDiv_bounds (tie : RoundTie) {n d : Int} (hd : 0 < d) :
    2 * n - d ≤ 2 * d * roundDiv tie n d ∧ 2 * d * roundDiv tie n d ≤ 2 * n + d := by
  have a := Int.emod_add_mul_ediv n d
  have b1 := Int.emod_nonneg n hd.ne'
  have b2 := Int.emod_lt_of_pos n hd
  unfold roundDiv
  generalize n / d = q at *
  generalize n % d = r at *
  cases tie <;> dsimp only <;> split_ifs <;> constructor <;> nlinarith

theorem roundDiv_mono (tie : RoundTie) {n n' d : Int} (hd : 0 < d) (h : n ≤ n') :
    roundDiv tie n d ≤ roundDiv tie n' d := by
  have h1 := Int.ediv_le_ediv hd h
  have a1 := Int.emod_add_mul_ediv n d
  have a2 := Int.emod_add_mul_ediv n' d
  have b1 := Int.emod_nonneg n hd.ne'
  have b2 := Int.emod_nonneg n' hd.ne'
  unfold roundDiv
  obtain hlt | heq : n / d < n' / d ∨ n / d = n' / d := by omega
  · cases tie <;> dsimp only <;> split_ifs <;> omega
  · rw [heq] at a1 ⊢
    have hr : n % d ≤ n' % d := by linarith
    cases tie <;> dsimp only <;> split_ifs <;> omega

namespace Machine

/-- The model's `round` of a quotient is R7's `round` of the rational. -/
theorem roundQ_div (tie : RoundTie) (n d : Int) (hd : 0 < d) : roundQ tie ((n : ℚ) / (d : ℚ)) = roundDiv tie n d := by
  have hf : ⌊(n : ℚ) / (d : ℚ)⌋ = n / d := by
    rw [show (d : ℚ) = ((d.toNat : ℕ) : ℚ) by rw [← Int.cast_natCast, Int.toNat_of_nonneg hd.le],
      Rat.floor_intCast_div_natCast, Int.toNat_of_nonneg hd.le]
  have hdq : (0 : ℚ) < d := by exact_mod_cast hd
  have hr : (n : ℚ) / d - ((n / d : Int) : ℚ) = ((n % d : Int) : ℚ) / d := by
    rw [Int.emod_def]; push_cast; field_simp
  have h1 : ((n % d : Int) : ℚ) / d < 1 / 2 ↔ 2 * (n % d) < d := by
    rw [div_lt_iff₀ hdq, ← Int.cast_lt (R := ℚ)]
    push_cast
    constructor <;> intro h <;> linarith
  have h2 : 1 / 2 < ((n % d : Int) : ℚ) / d ↔ d < 2 * (n % d) := by
    rw [lt_div_iff₀ hdq, ← Int.cast_lt (R := ℚ)]
    push_cast
    constructor <;> intro h <;> linarith
  unfold roundQ roundDiv
  simp only [hf, hr, h1, h2]
  all_goals (cases tie <;> rfl)

/-! ## Percent quantities -/

theorem pct_le {a b : Int} : pct a ≤ pct b ↔ a ≤ b := by
  unfold pct; rw [div_le_div_iff_of_pos_right (by norm_num)]; exact Int.cast_le

theorem pct_lt {a b : Int} : pct a < pct b ↔ a < b := by
  unfold pct; rw [div_lt_div_iff_of_pos_right (by norm_num)]; exact Int.cast_lt

theorem pct_abs (p : Int) : |pct p| = pct p.natAbs := by
  unfold pct
  rw [abs_div, show |(64 : ℚ)| = 64 by norm_num, Int.natCast_natAbs, Int.cast_abs]

theorem pct_min (a b : Int) : min (pct a) (pct b) = pct (min a b) := by
  obtain h | h := le_total a b
  · rw [min_eq_left h, min_eq_left (pct_le.2 h)]
  · rw [min_eq_right h, min_eq_right (pct_le.2 h)]

/-! ## The duty of a magnitude, and SCALE -/

theorem dutyOfMagnitude_eq (tie : RoundTie) (c : Nat) : dutyOfMagnitude tie c = roundDiv tie ((c : Int) * 4095) 6400 := rfl

theorem dutyOfMagnitude_mono (tie : RoundTie) {c c' : Nat} (h : c ≤ c') :
    dutyOfMagnitude tie c ≤ dutyOfMagnitude tie c' := by
  rw [dutyOfMagnitude_eq, dutyOfMagnitude_eq]
  exact roundDiv_mono tie (by omega) (by omega)

theorem dutyOfMagnitude_bounds (tie : RoundTie) (c : Nat) :
    8190 * (c : Int) - 6400 ≤ 12800 * dutyOfMagnitude tie c ∧ 12800 * dutyOfMagnitude tie c ≤ 8190 * (c : Int) + 6400 := by
  have := roundDiv_bounds tie (n := (c : Int) * 4095) (d := 6400) (by omega)
  rw [dutyOfMagnitude_eq]; omega

@[simp] theorem natAbs_effectivePower (m : MotorCfg) (p : Int) : (effectivePower m p).natAbs = p.natAbs := by
  unfold effectivePower; split <;> simp

theorem scaleWith_duty (tie : RoundTie) (m : MotorCfg) (p : Int) :
    (scaleWith tie m p).duty =
      if p.natAbs ≤ m.deadband.toNat then 0 else dutyOfMagnitude tie (min m.maxpct.toNat p.natAbs) := by
  simp [scaleWith, clampMagnitude]

theorem scaleWith_dir (tie : RoundTie) (m : MotorCfg) (p : Int) :
    (scaleWith tie m p).dir = decide (0 ≤ effectivePower m p) := rfl

theorem scale_zero (m : MotorCfg) : scale m 0 = { dir := true, duty := 0 } := by
  simp [scale, scaleWith, effectivePower, directionBit]

/-! ## PRESCALE -/

/-- PRESCALE's argument is never an exact half, so the tie setting does not matter (R83). -/
theorem prescaleWith_eq (tie : RoundTie) (hz : Nat) (h : 1 ≤ hz) :
    prescaleWith tie hz = (50000000 - 4096 * (hz : Int)) / (8192 * (hz : Int)) := by
  have hp : (0 : Int) < 4096 * hz := by omega
  have key : (50000000 - 4096 * (hz : Int)) / (8192 * (hz : Int)) =
      (2 * (25000000 - 4096 * (hz : Int)) + 4096 * hz) / (2 * (4096 * hz)) := by
    congr 1 <;> ring
  rw [key]
  have e : prescaleWith tie hz = roundDiv tie (25000000 - 4096 * (hz : Int)) (4096 * hz) := rfl
  rw [e]
  unfold roundDiv
  have a := Int.emod_add_mul_ediv (25000000 - 4096 * (hz : Int)) (4096 * hz)
  have b1 := Int.emod_nonneg (25000000 - 4096 * (hz : Int)) hp.ne'
  have b2 := Int.emod_lt_of_pos (25000000 - 4096 * (hz : Int)) hp
  generalize (25000000 - 4096 * (hz : Int)) / (4096 * hz) = q at *
  generalize (25000000 - 4096 * (hz : Int)) % (4096 * hz) = r at *
  have ne : 2 * r ≠ 4096 * hz := by
    intro e
    have : (50000000 : Int) = 4096 * (hz * (2 * q + 3)) := by
      have : 2 * (25000000 - 4096 * (hz : Int)) = 4096 * hz + 2 * (4096 * hz * q) := by linarith
      linarith
    omega
  dsimp only
  split_ifs
  · symm; rw [Int.ediv_eq_iff_of_pos (by omega)]
    constructor <;> nlinarith
  · symm; rw [Int.ediv_eq_iff_of_pos (by omega)]
    constructor <;> nlinarith
  all_goals exfalso; omega

/-- The prescaler byte of a legal frequency (R55). -/
theorem prescale_le {hz : Nat} (h1 : 24 ≤ hz) (h2 : hz ≤ 12207) : 0 ≤ prescale hz ∧ prescale hz ≤ 253 := by
  rw [prescale, prescaleWith_eq _ _ (by omega)]
  have e : ∀ x : Int, x / (8192 * hz) ≤ 253 ↔ x < 254 * (8192 * hz) := fun x => by
    rw [← Int.lt_add_one_iff, Int.ediv_lt_iff_lt_mul (by omega)]; norm_num
  rw [Int.le_ediv_iff_mul_le (by omega), e]
  omega

end Machine

end Sys2Proof
end

