-- ==== Sys2Proof/Laws/Assembler.lean ====
section
/-! SUPPORT. Reading a spelled line back (R56): its parts, its numbers, its operands. -/

namespace Sys2Proof.Machine

/-! ## Characters and parts of a line -/

/-- A character that separates nothing in a line. -/
def isPlain (c : Char) : Bool := decide (c ≠ ' ') && decide (c ≠ ',') && decide (c ≠ ';')

/-- The text of an operand: no separator in it, and not empty. -/
structure Plain (cs : List Char) : Prop where
  nonempty : cs ≠ []
  plain    : cs.all isPlain = true

theorem OperandText.plain {cs : List Char} (h : OperandText cs) : Plain cs :=
  ⟨h.1, List.all_eq_true.2 fun c hc => by simpa [isPlain, and_assoc] using h.2 c hc⟩

theorem isPlain_ne {c : Char} (h : isPlain c = true) : c ≠ ' ' ∧ c ≠ ',' ∧ c ≠ ';' := by
  simp only [isPlain, Bool.and_eq_true, decide_eq_true_eq] at h
  exact ⟨h.1.1, h.1.2, h.2⟩

theorem stripComment_append (line comment : List Char) (h : ';' ∉ line) :
    stripComment (line ++ ';' :: comment) = stripComment line := by
  induction line with
  | nil => rfl
  | cons c cs ih =>
    have hc : c ≠ ';' := fun e => h (by simp [e])
    simp only [List.cons_append, stripComment, if_neg hc]
    rw [ih fun hm => h (by simp [hm])]

theorem stripComment_id {line : List Char} (h : ';' ∉ line) : stripComment line = line := by
  induction line with
  | nil => rfl
  | cons c cs ih =>
    have hc : c ≠ ';' := fun e => h (by simp [e])
    rw [stripComment, if_neg hc, ih fun hm => h (by simp [hm])]

theorem dropBlanks_id {cs : List Char} (h : ∀ c, cs.head? = some c → c ≠ ' ') : dropBlanks cs = cs := by
  cases cs with
  | nil => rfl
  | cons c cs => rw [dropBlanks, if_neg (h c rfl)]

/-- A text with no blank at either end is trimmed already. -/
theorem trimBlanks_id {cs : List Char} (h : ∀ c, cs.head? = some c → c ≠ ' ')
    (h' : ∀ c, cs.getLast? = some c → c ≠ ' ') : trimBlanks cs = cs := by
  rw [trimBlanks, dropBlanks_id h, dropBlanks_id (by simpa using h'), List.reverse_reverse]

theorem dropBlanks_replicate (k : Nat) (cs : List Char) : dropBlanks (List.replicate k ' ' ++ cs) = dropBlanks cs := by
  induction k with
  | zero => rfl
  | succ k ih => rw [List.replicate_succ, List.cons_append, dropBlanks, if_pos rfl, ih]

/-- Blanks at the end go only where nothing but blanks stands before them. -/
theorem dropBlanks_append_replicate (cs : List Char) (k : Nat) :
    (dropBlanks cs = [] ∧ dropBlanks (cs ++ List.replicate k ' ') = []) ∨
    dropBlanks (cs ++ List.replicate k ' ') = dropBlanks cs ++ List.replicate k ' ' := by
  induction cs with
  | nil =>
    refine .inl ⟨rfl, ?_⟩
    simpa [dropBlanks] using dropBlanks_replicate k []
  | cons c cs ih =>
    by_cases hc : c = ' '
    · simpa only [List.cons_append, dropBlanks, if_pos hc] using ih
    · simp only [List.cons_append, dropBlanks, if_neg hc]
      exact .inr trivial

/-- Blanks at either end of a text are trimmed. -/
theorem trimBlanks_blanks (cs : List Char) (k : Nat) :
    trimBlanks (cs ++ List.replicate k ' ') = trimBlanks cs ∧ trimBlanks (List.replicate k ' ' ++ cs) = trimBlanks cs := by
  refine ⟨?_, by rw [trimBlanks, trimBlanks, dropBlanks_replicate]⟩
  rw [trimBlanks, trimBlanks]
  obtain ⟨h1, h2⟩ | h := dropBlanks_append_replicate cs k
  · rw [h1, h2]
  · rw [h, List.reverse_append, List.reverse_replicate, dropBlanks_replicate]

theorem stripComment_blanks (line : List Char) (k : Nat) :
    (stripComment (line ++ List.replicate k ' ') = stripComment line ∨
      stripComment (line ++ List.replicate k ' ') = stripComment line ++ List.replicate k ' ') ∧
    stripComment (List.replicate k ' ' ++ line) = List.replicate k ' ' ++ stripComment line := by
  constructor
  · induction line with
    | nil => exact .inr (stripComment_id (by simp))
    | cons c cs ih =>
      by_cases hc : c = ';'
      · exact .inl (by simp [stripComment, hc])
      · simp only [List.cons_append, stripComment, if_neg hc]
        exact ih.imp (congrArg _) (congrArg _)
  · induction k with
    | zero => rfl
    | succ k ih =>
      rw [List.replicate_succ, List.cons_append, stripComment, if_neg (by decide), ih]
      rfl

/-- Blanks at either end of a line change nothing, before a comment or without one. -/
theorem assembleLine_blanks (line : List Char) (k : Nat) :
    assembleLine (line ++ List.replicate k ' ') = assembleLine line ∧
    assembleLine (List.replicate k ' ' ++ line) = assembleLine line := by
  obtain ⟨h1, h2⟩ := stripComment_blanks line k
  constructor
  · obtain h | h := h1
    · rw [assembleLine, h]; rfl
    · rw [assembleLine, h, (trimBlanks_blanks _ k).1]; rfl
  · rw [assembleLine, h2, (trimBlanks_blanks _ k).2]; rfl

theorem splitWord_append {w rest : List Char} (h : ∀ c ∈ w, c ≠ ' ') : splitWord (w ++ ' ' :: rest) = (w, rest) := by
  induction w with
  | nil => simp [splitWord]
  | cons c cs ih =>
    rw [List.cons_append, splitWord, if_neg (h c (by simp)), ih fun c hc => h c (by simp [hc])]

theorem splitWord_id {w : List Char} (h : ∀ c ∈ w, c ≠ ' ') : splitWord w = (w, []) := by
  induction w with
  | nil => rfl
  | cons c cs ih => rw [splitWord, if_neg (h c (by simp)), ih fun c hc => h c (by simp [hc])]

theorem splitCommas_id {cs : List Char} (h : ',' ∉ cs) : splitCommas cs = [cs] := by
  induction cs with
  | nil => rfl
  | cons c cs ih =>
    have hc : c ≠ ',' := fun e => h (by simp [e])
    rw [splitCommas, ih fun hm => h (by simp [hm])]
    simp [hc]

theorem splitCommas_append {cs rest : List Char} (h : ',' ∉ cs) :
    splitCommas (cs ++ ',' :: rest) = cs :: splitCommas rest := by
  have some_part : ∀ r, splitCommas r ≠ [] := by
    intro r
    cases r with
    | nil => simp [splitCommas]
    | cons c cs => rw [splitCommas]; split <;> [simp; (split <;> simp)]
  induction cs with
  | nil =>
    rw [List.nil_append, splitCommas]
    split
    · next hr => exact absurd hr (some_part _)
    · next p ps hr => simp [hr]
  | cons c cs ih =>
    have hc : c ≠ ',' := fun e => h (by simp [e])
    rw [List.cons_append, splitCommas, ih fun hm => h (by simp [hm])]
    simp [hc]

theorem Plain.head {cs : List Char} (h : Plain cs) : ∀ c, cs.head? = some c → c ≠ ' ' := fun c hc =>
  (isPlain_ne (List.all_eq_true.1 h.plain c (List.mem_of_mem_head? hc))).1

theorem Plain.last {cs : List Char} (h : Plain cs) : ∀ c, cs.getLast? = some c → c ≠ ' ' := fun c hc =>
  (isPlain_ne (List.all_eq_true.1 h.plain c (List.mem_of_mem_getLast? hc))).1

theorem Plain.not_mem {cs : List Char} (h : Plain cs) : ' ' ∉ cs ∧ ',' ∉ cs ∧ ';' ∉ cs := by
  have hp := List.all_eq_true.1 h.plain
  exact ⟨fun hm => (isPlain_ne (hp _ hm)).1 rfl, fun hm => (isPlain_ne (hp _ hm)).2.1 rfl,
    fun hm => (isPlain_ne (hp _ hm)).2.2 rfl⟩

/-- An operand, with or without the blank that follows a comma, is trimmed to itself. -/
theorem Plain.trim {cs : List Char} (h : Plain cs) : trimBlanks cs = cs ∧ trimBlanks (' ' :: cs) = cs := by
  refine ⟨trimBlanks_id h.head h.last, ?_⟩
  rw [trimBlanks, dropBlanks, if_pos rfl]
  exact trimBlanks_id h.head h.last

/-- Operands with ", " between them are split into themselves. -/
theorem splitCommas_intercalate {o : List Char} {os : List (List Char)} (ho : Plain o) (h : ∀ p ∈ os, Plain p) :
    (splitCommas ([',', ' '].intercalate (o :: os))).map trimBlanks = o :: os := by
  have blank : ∀ (os : List (List Char)) (o : List Char), Plain o → (∀ p ∈ os, Plain p) → ∀ pre, (pre = [] ∨ pre = [' ']) →
      (splitCommas (pre ++ [',', ' '].intercalate (o :: os))).map trimBlanks = o :: os := by
    intro os
    induction os with
    | nil =>
      rintro o ho - pre (rfl | rfl)
      · simp [splitCommas_id ho.not_mem.2.1, ho.trim.1]
      · simp only [List.intercalate_singleton, List.cons_append, List.nil_append]
        rw [splitCommas_id (by simp [ho.not_mem.2.1])]
        simp [ho.trim.2]
    | cons p os ih =>
      intro o ho hos pre hpre
      have hp := hos p (by simp)
      have next := ih p hp (fun q hq => hos q (by simp [hq])) [' '] (.inr rfl)
      have hsplit : pre ++ [',', ' '].intercalate (o :: p :: os) =
          (pre ++ o) ++ ',' :: ([' '] ++ [',', ' '].intercalate (p :: os)) := by
        rw [List.intercalate_cons_cons]; simp
      have hcomma : ',' ∉ pre ++ o := by
        obtain rfl | rfl := hpre <;> simp [ho.not_mem.2.1]
      rw [hsplit, splitCommas_append hcomma, List.map_cons, next]
      obtain rfl | rfl := hpre
      · simp [ho.trim.1]
      · simp [ho.trim.2]
  exact blank os o ho h [] (.inl rfl)

/-- A spelled line is read as its mnemonic and its operands. -/
theorem assembleLine_lineText {m : String} (hm : Plain m.toList) {os : List (List Char)} (h : ∀ o ∈ os, Plain o) :
    assembleLine (lineText m os) = asmInstr m.toList os := by
  have hblank : ∀ c ∈ m.toList, c ≠ ' ' := fun c hc => (isPlain_ne (List.all_eq_true.1 hm.plain c hc)).1
  cases os with
  | nil =>
    simp only [lineText, if_true, assembleLine]
    rw [stripComment_id hm.not_mem.2.2, hm.trim.1, splitWord_id hblank]
    rfl
  | cons o os =>
    have ho := h o (by simp)
    have hos : ∀ p ∈ os, Plain p := fun p hp => h p (by simp [hp])
    generalize hl : [',', ' '].intercalate (o :: os) = l
    have parts := splitCommas_intercalate ho hos
    rw [hl] at parts
    have ends : ∀ (os : List (List Char)) (o : List Char), Plain o → (∀ p ∈ os, Plain p) →
        ';' ∉ [',', ' '].intercalate (o :: os) ∧ [',', ' '].intercalate (o :: os) ≠ [] ∧
        (∀ c, ([',', ' '].intercalate (o :: os)).head? = some c → c ≠ ' ') ∧
        ∀ c, ([',', ' '].intercalate (o :: os)).getLast? = some c → c ≠ ' ' := by
      intro os
      induction os with
      | nil =>
        intro o ho _
        rw [List.intercalate_singleton]
        exact ⟨ho.not_mem.2.2, ho.nonempty, ho.head, ho.last⟩
      | cons p os ih =>
        intro o ho hos
        obtain ⟨h1, h2, -, h4⟩ := ih p (hos p (by simp)) (fun q hq => hos q (by simp [hq]))
        rw [List.intercalate_cons_cons]
        refine ⟨by simp [ho.not_mem.2.2, h1], by simp [ho.nonempty], fun c hc => ?_, fun c hc => ?_⟩
        · obtain ⟨x, xs, rfl⟩ := List.exists_cons_of_ne_nil ho.nonempty
          exact ho.head c (by simpa using hc)
        · rw [List.getLast?_append_of_ne_nil _ h2] at hc
          exact h4 c hc
    obtain ⟨h1, h2, h3, h4⟩ := ends os o ho hos
    rw [hl] at h1 h2 h3 h4
    have hsemi : ';' ∉ m.toList ++ ' ' :: l := by simp [hm.not_mem.2.2, h1]
    have htrim : trimBlanks (m.toList ++ ' ' :: l) = m.toList ++ ' ' :: l := by
      refine trimBlanks_id (fun c hc => ?_) (fun c hc => ?_)
      · obtain ⟨x, xs, hx⟩ := List.exists_cons_of_ne_nil hm.nonempty
        exact hm.head c (by rw [hx] at hc ⊢; simpa using hc)
      · rw [List.getLast?_append_of_ne_nil _ (by simp), List.getLast?_cons_of_ne_nil h2] at hc
        exact h4 c hc
    simp only [lineText, reduceCtorEq, if_false, assembleLine]
    rw [hl, stripComment_id hsemi, htrim, splitWord_append hblank]
    simp only [asmOperands]
    rw [trimBlanks_id h3 h4, if_neg h2, parts]

/-! ## Numbers -/

theorem digitChar_facts (d : Fin 10) :
    isPlain (Nat.digitChar d.val) = true ∧ Nat.digitChar d.val ≠ '.' ∧ Nat.digitChar d.val ≠ '-' ∧
    ('0' ≤ Nat.digitChar d.val ∧ Nat.digitChar d.val ≤ '9') ∧
    (Nat.digitChar d.val).toNat - '0'.toNat = d.val := by revert d; decide

theorem digitsFrom_digitText (ds : List (Fin 10)) (acc : Nat) :
    digitsFrom acc (digitText ds) = some (ds.foldl (fun n d => n * 10 + d.val) acc) := by
  induction ds generalizing acc with
  | nil => rfl
  | cons d ds ih =>
    obtain ⟨-, -, -, hd, hv⟩ := digitChar_facts d
    rw [digitText, List.map_cons, digitsFrom, if_pos hd, hv]
    exact ih _

theorem natOfDigits_digitText {ds : List (Fin 10)} (h : ds ≠ []) : natOfDigits (digitText ds) = some (digitsValue ds) := by
  rw [natOfDigits, if_neg (by simpa [digitText] using h), digitsFrom_digitText, digitsValue]

theorem digitsValue_append (a b : List (Fin 10)) : digitsValue (a ++ b) = digitsValue a * 10 ^ b.length + digitsValue b := by
  have gen : ∀ (b : List (Fin 10)) (n : Nat), b.foldl (fun n d => n * 10 + d.val) n =
      n * 10 ^ b.length + b.foldl (fun n d => n * 10 + d.val) 0 := by
    intro b
    induction b with
    | nil => simp
    | cons d b ih =>
      intro n
      rw [List.foldl_cons, List.foldl_cons, ih, ih (0 * 10 + d.val), List.length_cons]
      ring
  rw [digitsValue, List.foldl_append, gen]
  rfl

theorem splitPoint_digitText (ds : List (Fin 10)) : splitPoint (digitText ds) = none := by
  induction ds with
  | nil => rfl
  | cons d ds ih =>
    rw [digitText, List.map_cons, splitPoint, if_neg (digitChar_facts d).2.1]
    rw [digitText] at ih
    rw [ih]; rfl

theorem splitPoint_point (ds : List (Fin 10)) (rest : List Char) :
    splitPoint (digitText ds ++ '.' :: rest) = some (digitText ds, rest) := by
  induction ds with
  | nil => simp [digitText, splitPoint]
  | cons d ds ih =>
    rw [digitText] at ih ⊢
    rw [List.map_cons, List.cons_append, splitPoint, if_neg (digitChar_facts d).2.1, ih]
    rfl

/-- The signed numerator of a numeral over `10 ^ frac.length`. -/
def Numeral.numerator (q : Numeral) : Int := if q.neg then -(digitsValue (q.whole ++ q.frac) : Int) else digitsValue (q.whole ++ q.frac)

theorem Numeral.value_eq (q : Numeral) : q.value = (q.numerator : ℚ) / 10 ^ q.frac.length := by
  unfold Numeral.value Numeral.numerator
  split <;> push_cast <;> ring

theorem unsignedDecimal_text {whole frac : List (Fin 10)} (h : whole ≠ []) :
    unsignedDecimal (digitText whole ++ (if frac = [] then [] else '.' :: digitText frac)) =
      some (digitsValue (whole ++ frac), frac.length) := by
  split
  · next hf =>
    subst hf
    rw [List.append_nil, List.append_nil, unsignedDecimal, splitPoint_digitText]
    simp [natOfDigits_digitText h]
  · next hf =>
    rw [unsignedDecimal, splitPoint_point]
    simp only [natOfDigits_digitText h, natOfDigits_digitText hf, digitsValue_append, Option.bind_some, Option.map_some]
    simp [digitText]

/-- A numeral is read as its numerator and its number of places. -/
theorem decimal_text {q : Numeral} (h : q.whole ≠ []) : decimal q.text = some (q.numerator, q.frac.length) := by
  unfold Numeral.text Numeral.numerator
  cases hn : q.neg with
  | true =>
    simp only [if_true, List.cons_append, List.nil_append, decimal]
    rw [unsignedDecimal_text h]
    rfl
  | false =>
    obtain ⟨d, ds, hw⟩ := List.exists_cons_of_ne_nil h
    have hd : digitText q.whole = Nat.digitChar d.val :: digitText ds := by rw [hw]; rfl
    have hu := unsignedDecimal_text (frac := q.frac) h
    simp only [Bool.false_eq_true, if_false, List.nil_append]
    rw [hd, List.cons_append] at hu ⊢
    unfold decimal
    split
    · next cs hc => exact absurd (List.cons.inj hc).1 (digitChar_facts d).2.2.1
    · rw [hu]; rfl

theorem Numeral.text_plain {q : Numeral} (h : q.whole ≠ []) : Plain q.text := by
  have digits : ∀ ds : List (Fin 10), (digitText ds).all isPlain = true := fun ds => by
    simp only [digitText, List.all_map, List.all_eq_true]
    exact fun d _ => (digitChar_facts d).1
  refine ⟨by simp [Numeral.text, digitText, h], ?_⟩
  unfold Numeral.text
  rw [List.all_append, List.all_append, digits]
  split <;> split <;> simp [digits, show isPlain '-' = true by decide, show isPlain '.' = true by decide]

/-! ## Only numerals are read as numbers -/

theorem digitText_of_digitsFrom {cs : List Char} {acc n : Nat} (h : digitsFrom acc cs = some n) :
    ∃ ds, cs = digitText ds := by
  have digit : ∀ c : Char, '0' ≤ c → c ≤ '9' → ∃ d : Fin 10, c = Nat.digitChar d.val := by
    intro c h0 h9
    have h0' : 48 ≤ c.toNat := h0
    have h9' : c.toNat ≤ 57 := h9
    have small : ∀ n : Nat, n ≤ 57 → 48 ≤ n → ∃ d : Fin 10, Char.ofNat n = Nat.digitChar d.val := by decide
    simpa using small c.toNat h9' h0'
  induction cs generalizing acc with
  | nil => exact ⟨[], rfl⟩
  | cons c cs ih =>
    rw [digitsFrom] at h
    split at h
    · next hc =>
      obtain ⟨ds, rfl⟩ := ih h
      obtain ⟨d, rfl⟩ := digit c hc.1 hc.2
      exact ⟨d :: ds, rfl⟩
    · cases h

theorem digitText_of_natOfDigits {cs : List Char} {n : Nat} (h : natOfDigits cs = some n) :
    ∃ ds, ds ≠ [] ∧ cs = digitText ds := by
  rw [natOfDigits] at h
  split at h
  · cases h
  · next hc =>
    obtain ⟨ds, rfl⟩ := digitText_of_digitsFrom h
    exact ⟨ds, fun hd => hc (by rw [hd]; rfl), rfl⟩

theorem splitPoint_eq {cs a b : List Char} (h : splitPoint cs = some (a, b)) : cs = a ++ '.' :: b := by
  induction cs generalizing a with
  | nil => cases h
  | cons c cs ih =>
    rw [splitPoint] at h
    split at h
    · next hc => cases h; simp [hc]
    · rw [Option.map_eq_some_iff] at h
      obtain ⟨⟨a', b'⟩, hr, he⟩ := h
      cases he
      rw [ih hr]; rfl

theorem text_of_unsignedDecimal {cs : List Char} {n k : Nat} (h : unsignedDecimal cs = some (n, k)) :
    ∃ whole frac : List (Fin 10), whole ≠ [] ∧ frac.length = k ∧
      cs = digitText whole ++ (if frac = [] then [] else '.' :: digitText frac) := by
  rw [unsignedDecimal] at h
  split at h
  · rw [Option.map_eq_some_iff] at h
    obtain ⟨m, hm, he⟩ := h
    obtain ⟨ds, hd, rfl⟩ := digitText_of_natOfDigits hm
    cases he
    exact ⟨ds, [], hd, rfl, by simp⟩
  · next whole frac hp =>
    rw [Option.bind_eq_some_iff] at h
    obtain ⟨m, hm, h⟩ := h
    rw [Option.map_eq_some_iff] at h
    obtain ⟨f, hf, he⟩ := h
    obtain ⟨ds, hd, rfl⟩ := digitText_of_natOfDigits hm
    obtain ⟨fs, hfs, rfl⟩ := digitText_of_natOfDigits hf
    cases he
    exact ⟨ds, fs, hd, by simp [digitText], by rw [splitPoint_eq hp, if_neg hfs]⟩

/-- What is read as a number is the text of a numeral with as many places. -/
theorem text_of_decimal {cs : List Char} {n : Int} {k : Nat} (h : decimal cs = some (n, k)) :
    ∃ q : Numeral, q.whole ≠ [] ∧ q.frac.length = k ∧ cs = q.text := by
  unfold decimal at h
  split at h <;> rw [Option.map_eq_some_iff] at h <;> obtain ⟨⟨m, j⟩, hm, he⟩ := h <;>
    obtain ⟨whole, frac, hw, hf, rfl⟩ := text_of_unsignedDecimal hm <;> cases he
  · exact ⟨⟨true, whole, frac⟩, hw, hf, rfl⟩
  · exact ⟨⟨false, whole, frac⟩, hw, hf, rfl⟩

/-! ## Operands -/

/-- `64 q` is the integer `z` exactly when the assembler's division leaves nothing. -/
theorem scaled_iff (q : Numeral) (z : Int) :
    (z : ℚ) = 64 * q.value ↔ q.numerator * 2 ^ config.pctFrac = z * (10 ^ q.frac.length : Int) := by
  rw [Numeral.value_eq, ← mul_div_assoc, eq_div_iff (by positivity), ← Int.cast_inj (α := ℚ)]
  push_cast [show config.pctFrac = 6 from rfl]
  constructor <;> intro h <;> linarith

theorem asmPercent_reads {cs : List Char} {p : Option Percent} (h : ReadsPercent cs p) : asmPercent cs = p := by
  have not_nan : ∀ {q : Numeral}, q.whole ≠ [] → q.text ≠ ['N', 'a', 'N'] := by
    intro q hq he
    have := decimal_text hq
    rw [he] at this
    exact absurd this (by rw [show decimal ['N', 'a', 'N'] = none by decide]; simp)
  cases h with
  | nan => rfl
  | exact q z hq hz hlo hhi =>
    rw [scaled_iff] at hz
    rw [asmPercent, if_neg (not_nan hq), decimal_text hq, Option.bind_some, percentOfDecimal]
    have hp : (10 ^ q.frac.length : Int) ≠ 0 := by positivity
    simp only [hz, Int.mul_emod_left, Int.mul_ediv_cancel _ hp]
    rw [if_pos ⟨trivial, hlo, hhi⟩]
  | refused q hq hz =>
    rw [asmPercent, if_neg (not_nan hq), decimal_text hq, Option.bind_some, percentOfDecimal]
    dsimp only
    refine if_neg fun hc => ?_
    have hd := Int.ediv_mul_cancel (Int.dvd_of_emod_eq_zero hc.1)
    have := hz _ ((scaled_iff q _).2 hd.symm)
    omega
  | other cs ht hn hq =>
    rw [asmPercent, if_neg hn, Option.bind_eq_none_iff]
    rintro ⟨n, k⟩ hd
    obtain ⟨q, hw, -, rfl⟩ := text_of_decimal hd
    exact absurd rfl (hq q hw)

theorem asmInteger_reads {lo hi : Int} {cs : List Char} {r : Option Int} (h : ReadsInteger lo hi cs r) :
    asmInteger lo hi cs = r := by
  have value : ∀ {q : Numeral} {z : Int}, q.frac = [] → (z : ℚ) = q.value → q.numerator = z := by
    intro q z hf hz
    rw [Numeral.value_eq, hf, List.length_nil, pow_zero, div_one] at hz
    exact_mod_cast hz.symm
  cases h with
  | exact q z hq hf hz hlo hhi =>
    rw [asmInteger, decimal_text hq, Option.bind_some, value hf hz, hf]
    exact if_pos ⟨rfl, hlo, hhi⟩
  | refused q z hq hf hz hr =>
    rw [asmInteger, decimal_text hq, Option.bind_some, value hf hz, hf]
    exact if_neg fun hc => by omega
  | other cs ht hq =>
    rw [asmInteger, Option.bind_eq_none_iff]
    rintro ⟨n, k⟩ hd
    obtain ⟨q, hw, hk, rfl⟩ := text_of_decimal hd
    refine if_neg fun hc => hq q hw (List.length_eq_zero_iff.1 ?_) rfl
    rw [hk]
    exact hc.1

/-- Any other text is no wheel. -/
theorem asmWheel_none {cs : List Char} (h : ∀ w, cs ∉ wheelTexts w) : asmWheel cs = none := by
  have bl := h .backLeft
  have fl := h .frontLeft
  have br := h .backRight
  have fr := h .frontRight
  simp only [wheelTexts, List.mem_cons, List.not_mem_nil, or_false] at bl fl br fr
  rw [asmWheel, if_neg bl, if_neg fl, if_neg br, if_neg fr]

theorem asmWheel_reads {w : Wheel} {cs : List Char} (h : cs ∈ wheelTexts w) : asmWheel cs = some w := by
  cases w <;> simp only [wheelTexts, List.mem_cons, List.not_mem_nil, or_false] at h <;> obtain rfl | rfl := h <;> rfl

theorem ReadsPercent.plain {cs : List Char} {p : Option Percent} (h : ReadsPercent cs p) : Plain cs := by
  cases h with
  | nan => exact ⟨by simp, by decide⟩
  | exact q z hq => exact Numeral.text_plain hq
  | refused q hq => exact Numeral.text_plain hq
  | other cs ht => exact ht.plain

theorem ReadsInteger.plain {lo hi : Int} {cs : List Char} {r : Option Int} (h : ReadsInteger lo hi cs r) : Plain cs := by
  cases h with
  | exact q z hq => exact Numeral.text_plain hq
  | refused q z hq => exact Numeral.text_plain hq
  | other cs ht => exact ht.plain

theorem wheelTexts_plain {w : Wheel} {cs : List Char} (h : cs ∈ wheelTexts w) : Plain cs := by
  cases w <;> simp only [wheelTexts, List.mem_cons, List.not_mem_nil, or_false] at h <;> obtain rfl | rfl := h <;>
    exact ⟨by simp, by decide⟩

end Sys2Proof.Machine
end

