-- ==== Sys2Proof/Laws/Memory.lean ====
section
/-! SUPPORT. The laws of the bookkeeping map DEV: reading after an update, and that every update keeps the canonical
form. -/

namespace Sys2Proof.Machine

theorem Memory.read_write (m : Memory) (a : Nat) (v : Byte) (b : Nat) :
    Memory.read (Memory.write m a v) b = if b = a then some v else Memory.read m b := by
  induction m with
  | nil => simp [Memory.write, Memory.read]
  | cons c m ih =>
    obtain ⟨k, u⟩ := c
    unfold Memory.write
    split
    · simp [Memory.read]
    · split
      · subst_vars; simp only [Memory.read]; split <;> simp_all
      · simp only [Memory.read, ih]; split <;> split <;> simp_all

theorem Memory.risesFrom_mono {lo lo' : Nat} {m : Memory} (h : Memory.risesFrom lo m = true) (hl : lo' ≤ lo) :
    Memory.risesFrom lo' m = true := by
  cases m with
  | nil => rfl
  | cons c m =>
    simp only [Memory.risesFrom, Bool.and_eq_true, decide_eq_true_eq] at h ⊢
    exact ⟨⟨by omega, h.1.2⟩, h.2⟩

/-- No register below the bound is listed. -/
theorem Memory.read_below {lo : Nat} {m : Memory} (h : Memory.risesFrom lo m = true) {a : Nat} (ha : a < lo) :
    Memory.read m a = none := by
  induction m generalizing lo with
  | nil => rfl
  | cons c m ih =>
    simp only [Memory.risesFrom, Bool.and_eq_true, decide_eq_true_eq] at h
    have hne : a ≠ c.1 := by omega
    simp only [Memory.read, if_neg hne]
    exact ih h.2 (by omega)

theorem Memory.risesFrom_write {lo : Nat} {m : Memory} (h : Memory.risesFrom lo m = true) {a : Nat} (hl : lo ≤ a)
    (ha : a < 256) (v : Byte) : Memory.risesFrom lo (Memory.write m a v) = true := by
  induction m generalizing lo with
  | nil => simp [Memory.write, Memory.risesFrom, hl, ha]
  | cons c m ih =>
    obtain ⟨k, u⟩ := c
    simp only [Memory.risesFrom, Bool.and_eq_true, decide_eq_true_eq] at h
    unfold Memory.write
    split
    · simp only [Memory.risesFrom, Bool.and_eq_true, decide_eq_true_eq]
      exact ⟨⟨hl, ha⟩, ⟨by omega, h.1.2⟩, h.2⟩
    · split
      · subst_vars
        simp only [Memory.risesFrom, Bool.and_eq_true, decide_eq_true_eq]
        exact ⟨h.1, h.2⟩
      · simp only [Memory.risesFrom, Bool.and_eq_true, decide_eq_true_eq]
        exact ⟨h.1, ih h.2 (by omega)⟩

theorem Memory.risesFrom_forget {lo : Nat} {m : Memory} (h : Memory.risesFrom lo m = true) (a : Nat) :
    Memory.risesFrom lo (Memory.forget m a) = true := by
  induction m generalizing lo with
  | nil => rfl
  | cons c m ih =>
    obtain ⟨k, u⟩ := c
    simp only [Memory.risesFrom, Bool.and_eq_true, decide_eq_true_eq] at h
    unfold Memory.forget
    split
    · exact Memory.risesFrom_mono h.2 (by omega)
    · simp only [Memory.risesFrom, Bool.and_eq_true, decide_eq_true_eq]
      exact ⟨h.1, ih h.2⟩

theorem Memory.read_forget {lo : Nat} {m : Memory} (h : Memory.risesFrom lo m = true) (a b : Nat) :
    Memory.read (Memory.forget m a) b = if b = a then none else Memory.read m b := by
  induction m generalizing lo with
  | nil => simp [Memory.forget, Memory.read]
  | cons c m ih =>
    obtain ⟨k, u⟩ := c
    simp only [Memory.risesFrom, Bool.and_eq_true, decide_eq_true_eq] at h
    unfold Memory.forget
    split
    · next hak =>
      subst hak
      split
      · next hb => subst hb; exact Memory.read_below h.2 (by omega)
      · next hb => simp [Memory.read, hb]
    · next hak =>
      simp only [Memory.read, ih h.2]
      split <;> split <;> simp_all

theorem Memory.read_forget_of_ne {m : Memory} {a b : Nat} (h : b ≠ a) :
    Memory.read (Memory.forget m a) b = Memory.read m b := by
  induction m with
  | nil => rfl
  | cons c m ih =>
    obtain ⟨k, u⟩ := c
    unfold Memory.forget
    split
    · next hak => subst hak; simp [Memory.read, h]
    · simp only [Memory.read, ih]

theorem Memory.wf_write {m : Memory} (h : Memory.wf m = true) (r : Reg) (v : Byte) :
    Memory.wf (Memory.write m r.toNat v) = true :=
  Memory.risesFrom_write h (Nat.zero_le _) r.isLt v

theorem Memory.wf_forget {m : Memory} (h : Memory.wf m = true) (a : Nat) : Memory.wf (Memory.forget m a) = true :=
  Memory.risesFrom_forget h a

@[simp] theorem Event.applyDev_pending (m : Memory) (d : Addr) (r : Reg) (v : Byte) :
    Event.applyDev m (.write d r v .pending) = m := rfl

/-- Every event of the trace keeps DEV canonical. -/
theorem Event.applyDev_wf {m : Memory} (h : Memory.wf m = true) (e : Event) : Memory.wf (Event.applyDev m e) = true := by
  cases e with
  | write d r v f => cases f <;> simp [Event.applyDev, Memory.wf_write h, Memory.wf_forget h, h]
  | read d r f => exact h
  | delay ms => exact h

/-- DEV is canonical after any trace. -/
theorem devOfTrace_wf (t : List Event) : Memory.wf (devOfTrace t) = true := by
  have gen : ∀ (t : List Event) (m : Memory), Memory.wf m = true → Memory.wf (t.foldl Event.applyDev m) = true := by
    intro t
    induction t with
    | nil => intro m h; exact h
    | cons e t ih => intro m h; exact ih _ (Event.applyDev_wf h e)
  exact gen t [] rfl

@[simp] theorem devOfTrace_append (t : List Event) (e : Event) :
    devOfTrace (t ++ [e]) = Event.applyDev (devOfTrace t) e := by
  simp [devOfTrace]

/-- An event that is no write to `r` leaves DEV[r] alone. -/
theorem Event.applyDev_read_other {m : Memory} {e : Event} {r : Nat}
    (h : ∀ d reg v f, e = .write d reg v f → reg.toNat ≠ r) : Memory.read (Event.applyDev m e) r = Memory.read m r := by
  cases e with
  | write d reg v f =>
    have hne : r ≠ reg.toNat := fun hr => h d reg v f rfl hr.symm
    cases f
    · simp [Event.applyDev, Memory.read_write, hne]
    · exact Memory.read_forget_of_ne hne
    · rfl
  | read d r f => rfl
  | delay ms => rfl

end Sys2Proof.Machine
end

