-- ==== Sys2Proof/Laws/State.lean ====
section
/-! SUPPORT. What each update of the state does to each field: true by rfl, so that no proof unfolds an update. -/

namespace Sys2Proof.Machine

variable (s : State)

@[simp] theorem State.advance_motors : (s.advance).motors = s.motors := rfl
@[simp] theorem State.advance_ctl : (s.advance).ctl = s.ctl := rfl
@[simp] theorem State.advance_trace : (s.advance).trace = s.trace := rfl
@[simp] theorem State.advance_dev : (s.advance).dev = s.dev := rfl
@[simp] theorem State.advance_responses : (s.advance).responses = s.responses := rfl
@[simp] theorem State.advance_construction : (s.advance).construction = s.construction := rfl
@[simp] theorem State.advance_stuck : (s.advance).stuck = s.stuck := rfl
@[simp] theorem State.advance_host : (s.advance).host = s.host := rfl
@[simp] theorem State.advance_bus : (s.advance).bus = s.bus.tail := rfl
@[simp] theorem State.advance_issued : (s.advance).issued = s.issued + 1 := rfl

@[simp] theorem State.logEvent_motors (e : Event) : (s.logEvent e).motors = s.motors := rfl
@[simp] theorem State.logEvent_ctl (e : Event) : (s.logEvent e).ctl = s.ctl := rfl
@[simp] theorem State.logEvent_trace (e : Event) : (s.logEvent e).trace = s.trace ++ [e] := rfl
@[simp] theorem State.logEvent_dev (e : Event) : (s.logEvent e).dev = Event.applyDev s.dev e := rfl
@[simp] theorem State.logEvent_responses (e : Event) : (s.logEvent e).responses = s.responses := rfl
@[simp] theorem State.logEvent_construction (e : Event) : (s.logEvent e).construction = s.construction := rfl
@[simp] theorem State.logEvent_stuck (e : Event) : (s.logEvent e).stuck = s.stuck := rfl
@[simp] theorem State.logEvent_host (e : Event) : (s.logEvent e).host = s.host := rfl
@[simp] theorem State.logEvent_bus (e : Event) : (s.logEvent e).bus = s.bus := rfl
@[simp] theorem State.logEvent_issued (e : Event) : (s.logEvent e).issued = s.issued := rfl

@[simp] theorem State.hang_motors : (s.hang).motors = s.motors := rfl
@[simp] theorem State.hang_ctl : (s.hang).ctl = s.ctl := rfl
@[simp] theorem State.hang_trace : (s.hang).trace = s.trace := rfl
@[simp] theorem State.hang_dev : (s.hang).dev = s.dev := rfl
@[simp] theorem State.hang_responses : (s.hang).responses = s.responses := rfl
@[simp] theorem State.hang_construction : (s.hang).construction = s.construction := rfl
@[simp] theorem State.hang_stuck : (s.hang).stuck = true := rfl
@[simp] theorem State.hang_host : (s.hang).host = s.host := rfl
@[simp] theorem State.hang_bus : (s.hang).bus = s.bus := rfl
@[simp] theorem State.hang_issued : (s.hang).issued = s.issued := rfl

@[simp] theorem State.cacheAddr_motors (a : Addr) : (s.cacheAddr a).motors = s.motors := rfl
@[simp] theorem State.cacheAddr_ctl (a : Addr) : (s.cacheAddr a).ctl = { s.ctl with addrValid := true, addr := a } := rfl
@[simp] theorem State.cacheAddr_trace (a : Addr) : (s.cacheAddr a).trace = s.trace := rfl
@[simp] theorem State.cacheAddr_dev (a : Addr) : (s.cacheAddr a).dev = s.dev := rfl
@[simp] theorem State.cacheAddr_responses (a : Addr) : (s.cacheAddr a).responses = s.responses := rfl
@[simp] theorem State.cacheAddr_construction (a : Addr) : (s.cacheAddr a).construction = s.construction := rfl
@[simp] theorem State.cacheAddr_stuck (a : Addr) : (s.cacheAddr a).stuck = s.stuck := rfl
@[simp] theorem State.cacheAddr_host (a : Addr) : (s.cacheAddr a).host = s.host := rfl
@[simp] theorem State.cacheAddr_bus (a : Addr) : (s.cacheAddr a).bus = s.bus := rfl
@[simp] theorem State.cacheAddr_issued (a : Addr) : (s.cacheAddr a).issued = s.issued := rfl

@[simp] theorem State.setFreq_motors (hz : BitVec 16) : (s.setFreq hz).motors = s.motors := rfl
@[simp] theorem State.setFreq_ctl (hz : BitVec 16) : (s.setFreq hz).ctl = { s.ctl with freqValid := true, freq := hz } := rfl
@[simp] theorem State.setFreq_trace (hz : BitVec 16) : (s.setFreq hz).trace = s.trace := rfl
@[simp] theorem State.setFreq_dev (hz : BitVec 16) : (s.setFreq hz).dev = s.dev := rfl
@[simp] theorem State.setFreq_responses (hz : BitVec 16) : (s.setFreq hz).responses = s.responses := rfl
@[simp] theorem State.setFreq_construction (hz : BitVec 16) : (s.setFreq hz).construction = s.construction := rfl
@[simp] theorem State.setFreq_stuck (hz : BitVec 16) : (s.setFreq hz).stuck = s.stuck := rfl
@[simp] theorem State.setFreq_host (hz : BitVec 16) : (s.setFreq hz).host = s.host := rfl
@[simp] theorem State.setFreq_bus (hz : BitVec 16) : (s.setFreq hz).bus = s.bus := rfl
@[simp] theorem State.setFreq_issued (hz : BitVec 16) : (s.setFreq hz).issued = s.issued := rfl

@[simp] theorem State.setPhase_motors (p : Phase) : (s.setPhase p).motors = s.motors := rfl
@[simp] theorem State.setPhase_ctl (p : Phase) : (s.setPhase p).ctl = { s.ctl with phase := p } := rfl
@[simp] theorem State.setPhase_trace (p : Phase) : (s.setPhase p).trace = s.trace := rfl
@[simp] theorem State.setPhase_dev (p : Phase) : (s.setPhase p).dev = s.dev := rfl
@[simp] theorem State.setPhase_responses (p : Phase) : (s.setPhase p).responses = s.responses := rfl
@[simp] theorem State.setPhase_construction (p : Phase) : (s.setPhase p).construction = s.construction := rfl
@[simp] theorem State.setPhase_stuck (p : Phase) : (s.setPhase p).stuck = s.stuck := rfl
@[simp] theorem State.setPhase_host (p : Phase) : (s.setPhase p).host = s.host := rfl
@[simp] theorem State.setPhase_bus (p : Phase) : (s.setPhase p).bus = s.bus := rfl
@[simp] theorem State.setPhase_issued (p : Phase) : (s.setPhase p).issued = s.issued := rfl

@[simp] theorem State.reportConstruction_motors (r : Status) : (s.reportConstruction r).motors = s.motors := rfl
@[simp] theorem State.reportConstruction_ctl (r : Status) : (s.reportConstruction r).ctl = s.ctl := rfl
@[simp] theorem State.reportConstruction_trace (r : Status) : (s.reportConstruction r).trace = s.trace := rfl
@[simp] theorem State.reportConstruction_dev (r : Status) : (s.reportConstruction r).dev = s.dev := rfl
@[simp] theorem State.reportConstruction_responses (r : Status) : (s.reportConstruction r).responses = s.responses := rfl
@[simp] theorem State.reportConstruction_construction (r : Status) : (s.reportConstruction r).construction = some r := rfl
@[simp] theorem State.reportConstruction_stuck (r : Status) : (s.reportConstruction r).stuck = s.stuck := rfl
@[simp] theorem State.reportConstruction_host (r : Status) : (s.reportConstruction r).host = s.host := rfl
@[simp] theorem State.reportConstruction_bus (r : Status) : (s.reportConstruction r).bus = s.bus := rfl
@[simp] theorem State.reportConstruction_issued (r : Status) : (s.reportConstruction r).issued = s.issued := rfl

@[simp] theorem State.respond_motors (r : Response) : (s.respond r).motors = s.motors := rfl
@[simp] theorem State.respond_ctl (r : Response) : (s.respond r).ctl = s.ctl := rfl
@[simp] theorem State.respond_trace (r : Response) : (s.respond r).trace = s.trace := rfl
@[simp] theorem State.respond_dev (r : Response) : (s.respond r).dev = s.dev := rfl
@[simp] theorem State.respond_responses (r : Response) : (s.respond r).responses = s.responses ++ [r] := rfl
@[simp] theorem State.respond_construction (r : Response) : (s.respond r).construction = s.construction := rfl
@[simp] theorem State.respond_stuck (r : Response) : (s.respond r).stuck = s.stuck := rfl
@[simp] theorem State.respond_host (r : Response) : (s.respond r).host = s.host := rfl
@[simp] theorem State.respond_bus (r : Response) : (s.respond r).bus = s.bus := rfl
@[simp] theorem State.respond_issued (r : Response) : (s.respond r).issued = s.issued := rfl

@[simp] theorem State.withHost_motors (rest : List HostRequest) : (s.withHost rest).motors = s.motors := rfl
@[simp] theorem State.withHost_ctl (rest : List HostRequest) : (s.withHost rest).ctl = s.ctl := rfl
@[simp] theorem State.withHost_trace (rest : List HostRequest) : (s.withHost rest).trace = s.trace := rfl
@[simp] theorem State.withHost_dev (rest : List HostRequest) : (s.withHost rest).dev = s.dev := rfl
@[simp] theorem State.withHost_responses (rest : List HostRequest) : (s.withHost rest).responses = s.responses := rfl
@[simp] theorem State.withHost_construction (rest : List HostRequest) : (s.withHost rest).construction = s.construction := rfl
@[simp] theorem State.withHost_stuck (rest : List HostRequest) : (s.withHost rest).stuck = s.stuck := rfl
@[simp] theorem State.withHost_host (rest : List HostRequest) : (s.withHost rest).host = rest := rfl
@[simp] theorem State.withHost_bus (rest : List HostRequest) : (s.withHost rest).bus = s.bus := rfl
@[simp] theorem State.withHost_issued (rest : List HostRequest) : (s.withHost rest).issued = s.issued := rfl

@[simp] theorem State.present_motors (c : CmdWord) : (s.present c).motors = s.motors := rfl
@[simp] theorem State.present_ctl (c : CmdWord) : (s.present c).ctl = { s.ctl with phase := .operational } := rfl
@[simp] theorem State.present_trace (c : CmdWord) : (s.present c).trace = s.trace := rfl
@[simp] theorem State.present_dev (c : CmdWord) : (s.present c).dev = s.dev := rfl
@[simp] theorem State.present_responses (c : CmdWord) : (s.present c).responses = s.responses := rfl
@[simp] theorem State.present_construction (c : CmdWord) : (s.present c).construction = s.construction := rfl
@[simp] theorem State.present_stuck (c : CmdWord) : (s.present c).stuck = false := rfl
@[simp] theorem State.present_host (c : CmdWord) : (s.present c).host = .command c :: s.host := rfl
@[simp] theorem State.present_bus (c : CmdWord) : (s.present c).bus = s.bus := rfl
@[simp] theorem State.present_issued (c : CmdWord) : (s.present c).issued = s.issued := rfl

/-! ## Results -/

@[simp] theorem OpResult.state_done {α : Type} (v : α) (s : State) : (OpResult.done v s).state = s := rfl
@[simp] theorem OpResult.state_raise {α : Type} (e : ErrKind) (s : State) : (OpResult.raise e s : OpResult α).state = s := rfl
@[simp] theorem OpResult.state_hang {α : Type} (s : State) : (OpResult.hang s : OpResult α).state = s := rfl
@[simp] theorem OpResult.bind_done {α β : Type} (v : α) (s : State) (f : α → State → OpResult β) :
    (OpResult.done v s).bind f = f v s := rfl
@[simp] theorem OpResult.bind_raise {α β : Type} (e : ErrKind) (s : State) (f : α → State → OpResult β) :
    (OpResult.raise e s : OpResult α).bind f = .raise e s := rfl
@[simp] theorem OpResult.bind_hang {α β : Type} (s : State) (f : α → State → OpResult β) :
    (OpResult.hang s : OpResult α).bind f = .hang s := rfl

@[simp] theorem OpResult.settle_done {α β : Type} (v : α) (s : State) (f : Status → State → OpResult β) :
    (OpResult.done v s).settle f = f .ok s := rfl
@[simp] theorem OpResult.settle_raise {α β : Type} (e : ErrKind) (s : State) (f : Status → State → OpResult β) :
    (OpResult.raise e s : OpResult α).settle f = f (.err e) s := rfl
@[simp] theorem OpResult.settle_hang {α β : Type} (s : State) (f : Status → State → OpResult β) :
    (OpResult.hang s : OpResult α).settle f = .hang s := rfl

@[simp] theorem finish_done {α : Type} (mk : Status → Response) (v : α) (s : State) :
    finish mk (OpResult.done v s) = s.respond (mk .ok) := rfl
@[simp] theorem finish_raise {α : Type} (mk : Status → Response) (e : ErrKind) (s : State) :
    finish mk (OpResult.raise e s : OpResult α) = s.respond (mk (.err e)) := rfl
@[simp] theorem finish_hang {α : Type} (mk : Status → Response) (s : State) :
    finish mk (OpResult.hang s : OpResult α) = s := rfl
@[simp] theorem finishWheels_done (wst : PerWheel Status) (s : State) :
    finishWheels (.done wst s) = s.respond (.wheels wst) := rfl
@[simp] theorem finishWheels_raise (e : ErrKind) (s : State) :
    finishWheels (.raise e s) = s.respond (.wheels (.all (.err e))) := rfl
@[simp] theorem finishWheels_hang (s : State) : finishWheels (.hang s) = s := rfl

/-! ## Per-wheel values -/

@[simp] theorem PerWheel.get_all {α : Type} (v : α) (w : Wheel) : (PerWheel.all v).get w = v := by cases w <;> rfl
@[simp] theorem PerWheel.get_map {α β : Type} (f : α → β) (p : PerWheel α) (w : Wheel) :
    (p.map f).get w = f (p.get w) := by cases w <;> rfl
theorem PerWheel.get_set {α : Type} (p : PerWheel α) (w w' : Wheel) (v : α) :
    (p.set w v).get w' = if w' = w then v else p.get w' := by
  cases w <;> cases w' <;> rfl
theorem PerWheel.ext_get {α : Type} (p q : PerWheel α) (h : ∀ w, p.get w = q.get w) : p = q := by
  cases p; cases q
  simpa [PerWheel.get] using ⟨h .backLeft, h .frontLeft, h .backRight, h .frontRight⟩

/-! ## The parameters (R5) -/

@[simp] theorem config_nch : config.nch = 16 := rfl
@[simp] theorem config_dutyMax : config.dutyMax = 4095 := rfl
@[simp] theorem config_maxpctDefault : config.maxpctDefault = 2560 := rfl
@[simp] theorem config_deadbandDefault : config.deadbandDefault = 128 := rfl
@[simp] theorem config_cfgPctMax : config.cfgPctMax = 6400 := rfl
@[simp] theorem config_pctFrac : config.pctFrac = 6 := rfl
@[simp] theorem config_oscHz : config.oscHz = 25000000 := rfl
@[simp] theorem config_periodCounts : config.periodCounts = 4096 := rfl
@[simp] theorem config_hzMin : config.hzMin = 24 := rfl
@[simp] theorem config_hzMax : config.hzMax = 12207 := rfl
theorem config_candidates : config.candidates = [0x40, 0x41, 0x42, 0x43, 0x44, 0x45, 0x46, 0x31] := rfl
@[simp] theorem config_probeReg : config.probeReg = 0x00 := rfl
@[simp] theorem config_regLed0OnL : config.regLed0OnL = 0x06 := rfl
@[simp] theorem config_blockStride : config.blockStride = 4 := rfl
@[simp] theorem config_fullFlag : config.fullFlag = 0x10 := rfl
theorem config_cfgSeq : config.cfgSeq = [.write 0x00 0x10, .write 0x01 0x04, .write 0x00 0x30] := rfl
theorem config_freqSeq (p : Byte) :
    config.freqSeq p = [.write 0x00 0x30, .write 0xFE p, .write 0x00 0x20, .delay 5, .write 0x00 0xA0] := rfl

end Sys2Proof.Machine
end

