-- ==== Sys2Proof/Laws/Bus.lean ====
section
/-! SUPPORT. What the bus operations do, said once: where the next outcomes lie after a transaction, one transaction,
an event list (all complete, or cut short), and address discovery. -/

namespace Sys2Proof.Machine

/-! ## Outcomes -/

@[simp] theorem State.outcome_advance (s : State) (k : Nat) : s.advance.outcome k = s.outcome (k + 1) := by
  simp only [State.outcome, State.advance_bus, State.advance_issued, List.getElem?_tail]
  rw [show s.issued + 1 + k = s.issued + (k + 1) by omega]

@[simp] theorem State.outcome_logEvent (s : State) (e : Event) (k : Nat) : (s.logEvent e).outcome k = s.outcome k := rfl
@[simp] theorem State.outcome_hang (s : State) (k : Nat) : s.hang.outcome k = s.outcome k := rfl
@[simp] theorem State.outcome_cacheAddr (s : State) (a : Addr) (k : Nat) : (s.cacheAddr a).outcome k = s.outcome k := rfl
@[simp] theorem State.outcome_setFreq (s : State) (hz : BitVec 16) (k : Nat) : (s.setFreq hz).outcome k = s.outcome k := rfl
@[simp] theorem State.outcome_setPhase (s : State) (p : Phase) (k : Nat) : (s.setPhase p).outcome k = s.outcome k := rfl
@[simp] theorem State.outcome_respond (s : State) (r : Response) (k : Nat) : (s.respond r).outcome k = s.outcome k := rfl
@[simp] theorem State.outcome_withHost (s : State) (h : List HostRequest) (k : Nat) :
    (s.withHost h).outcome k = s.outcome k := rfl

/-- The outcomes of a state with the same environment, `n` transactions later. -/
theorem State.outcome_drop {s t : State} {n : Nat} (hb : t.bus = s.bus.drop n) (hi : t.issued = s.issued + n) (k : Nat) :
    t.outcome k = s.outcome (n + k) := by
  simp only [State.outcome, hb, hi, List.getElem?_drop]
  rw [show s.issued + n + k = s.issued + (n + k) by omega]

theorem completes_iff {r : BusReply} : r.completes = true ↔ ∃ v, r = .complete v := by
  cases r <;> simp [BusReply.completes]

/-! ## One transaction -/

theorem memWrite_complete {s : State} (h : (s.outcome 0).completes = true) (reg : Reg) (v : Byte) :
    memWrite reg v s = .done () (s.advance.logEvent (.write s.ctl.addr reg v .completed)) := by
  obtain ⟨b, hb⟩ := completes_iff.1 h
  simp [memWrite, hb]

theorem memWrite_fail {s : State} (h : s.outcome 0 = .fail) (reg : Reg) (v : Byte) :
    memWrite reg v s = .raise .busError (s.advance.logEvent (.write s.ctl.addr reg v .failed)) := by
  simp [memWrite, h]

theorem memWrite_never {s : State} (h : s.outcome 0 = .never) (reg : Reg) (v : Byte) :
    memWrite reg v s = .hang (s.advance.logEvent (.write s.ctl.addr reg v .pending)).hang := by
  simp [memWrite, h]

theorem memReadAt_fail {s : State} (h : s.outcome 0 = .fail) (a : Addr) (reg : Reg) :
    memReadAt a reg s = .raise .busError (s.advance.logEvent (.read a reg .failed)) := by
  simp [memReadAt, h]

/-! ## What an operation moves -/

/-- `t` is `s` after the events `evs`, by `n` transactions, with the controller state `ctl`; nothing else differs. -/
structure Moved (s t : State) (evs : List Event) (n : Nat) (ctl : Ctl) : Prop where
  trace        : t.trace = s.trace ++ evs
  dev          : t.dev = evs.foldl Event.applyDev s.dev
  ctl          : t.ctl = ctl
  bus          : t.bus = s.bus.drop n
  issued       : t.issued = s.issued + n
  motors       : t.motors = s.motors
  responses    : t.responses = s.responses
  construction : t.construction = s.construction
  stuck        : t.stuck = s.stuck
  host         : t.host = s.host

namespace Moved

theorem refl (s : State) : Moved s s [] 0 s.ctl := by
  constructor <;> simp

theorem trans {s t u : State} {e1 e2 : List Event} {n1 n2 : Nat} {c1 c2 : Ctl} (h1 : Moved s t e1 n1 c1)
    (h2 : Moved t u e2 n2 c2) : Moved s u (e1 ++ e2) (n1 + n2) c2 := by
  constructor
  · rw [h2.trace, h1.trace, List.append_assoc]
  · rw [h2.dev, h1.dev, List.foldl_append]
  · exact h2.ctl
  · rw [h2.bus, h1.bus, List.drop_drop]
  · rw [h2.issued, h1.issued, Nat.add_assoc]
  · rw [h2.motors, h1.motors]
  · rw [h2.responses, h1.responses]
  · rw [h2.construction, h1.construction]
  · rw [h2.stuck, h1.stuck]
  · rw [h2.host, h1.host]

theorem outcome {s t : State} {evs : List Event} {n : Nat} {c : Ctl} (h : Moved s t evs n c) (k : Nat) :
    t.outcome k = s.outcome (n + k) := State.outcome_drop h.bus h.issued k

theorem completesFrom {s t : State} {evs : List Event} {n : Nat} {c : Ctl} (h : Moved s t evs n c) {first count : Nat}
    (hc : s.CompletesFrom (n + first) count) : t.CompletesFrom first count := fun k hk => by
  rw [h.outcome, ← Nat.add_assoc]; exact hc k hk

/-- A command that ends with a response. -/
theorem respond {s t : State} {evs : List Event} {n : Nat} {c : Ctl} (h : Moved s t evs n c) (r : Response) :
    Ended s (t.respond r) evs n c r := by
  constructor <;> simp [h.trace, h.dev, h.ctl, h.bus, h.issued, h.motors, h.responses, h.construction, h.stuck, h.host]

theorem cacheAddr {s t : State} {evs : List Event} {n : Nat} {c : Ctl} (h : Moved s t evs n c) (a : Addr) :
    Moved s (t.cacheAddr a) evs n (c.withAddr a) := by
  constructor <;> simp [h.trace, h.dev, h.ctl, h.bus, h.issued, h.motors, h.responses, h.construction, h.stuck, h.host,
    Ctl.withAddr]

theorem setFreq {s t : State} {evs : List Event} {n : Nat} {c : Ctl} (h : Moved s t evs n c) (hz : BitVec 16) :
    Moved s (t.setFreq hz) evs n { c with freqValid := true, freq := hz } := by
  constructor <;> simp [h.trace, h.dev, h.ctl, h.bus, h.issued, h.motors, h.responses, h.construction, h.stuck, h.host]

end Moved

/-- One transaction that does not hang moves the state by its one event. -/
theorem moved_transaction (s : State) (e : Event) : Moved s (s.advance.logEvent e) [e] 1 s.ctl := by
  constructor <;> simp

theorem moved_delay (s : State) (ms : Nat) : Moved s (s.logEvent (.delay ms)) [.delay ms] 0 s.ctl := by
  constructor <;> simp

/-! ## Event lists -/

/-- All transactions complete: the list's events happen, in order, and nothing else. -/
theorem runSteps_complete (es : List BusStep) (s : State) (h : s.CompletesFrom 0 (transactions es)) :
    ∃ t, runSteps es s = .done () t ∧ Moved s t (completedEvents s.ctl.addr es) (transactions es) s.ctl := by
  induction es generalizing s with
  | nil => exact ⟨s, rfl, Moved.refl s⟩
  | cons e es ih =>
    cases e with
    | delay ms =>
      have hm := moved_delay s ms
      obtain ⟨t, hr, ht⟩ := ih (s.logEvent (.delay ms)) (hm.completesFrom (by simpa [transactions] using h))
      refine ⟨t, by simpa [runSteps, runStep, delay] using hr, ?_⟩
      simpa [completedEvents, BusStep.event, transactions] using hm.trans ht
    | write reg v =>
      have hm := moved_transaction s (.write s.ctl.addr reg v .completed)
      have h0 : (s.outcome 0).completes = true := by simpa using h 0 (by simp [transactions])
      obtain ⟨t, hr, ht⟩ := ih (s.advance.logEvent (.write s.ctl.addr reg v .completed))
        (hm.completesFrom fun k hk => by
          have := h (1 + k) (by simp only [transactions]; omega)
          simpa using this)
      refine ⟨t, by simpa [runSteps, runStep, memWrite_complete h0] using hr, ?_⟩
      simpa [completedEvents, BusStep.event, transactions, Nat.add_comm] using hm.trans ht

/-- Transaction number `k` fails: the events before it happen, it is the last event, and BusError is raised (R128). -/
theorem runSteps_fail (es : List BusStep) (s : State) (k : Nat) (hk : k < transactions es) (h : s.CompletesFrom 0 k)
    (hf : s.outcome k = .fail) :
    ∃ t, runSteps es s = .raise .busError t ∧ Moved s t (cutEvents s.ctl.addr .failed k es) (k + 1) s.ctl := by
  induction es generalizing s k with
  | nil => simp [transactions] at hk
  | cons e es ih =>
    cases e with
    | delay ms =>
      have hm := moved_delay s ms
      obtain ⟨t, hr, ht⟩ := ih (s.logEvent (.delay ms)) k (by simpa [transactions] using hk)
        (hm.completesFrom (by simpa using h)) (by simpa using hf)
      refine ⟨t, by simpa [runSteps, runStep, delay] using hr, ?_⟩
      have := hm.trans ht
      rw [show cutEvents s.ctl.addr .failed k (.delay ms :: es) = [.delay ms] ++ cutEvents s.ctl.addr .failed k es by
        cases k <;> rfl]
      simpa using this
    | write reg v =>
      cases k with
      | zero =>
        exact ⟨_, by simp [runSteps, runStep, memWrite_fail hf], moved_transaction s _⟩
      | succ k =>
        have hm := moved_transaction s (.write s.ctl.addr reg v .completed)
        have h0 : (s.outcome 0).completes = true := by simpa using h 0 (by omega)
        obtain ⟨t, hr, ht⟩ := ih (s.advance.logEvent (.write s.ctl.addr reg v .completed)) k
          (by simp only [transactions] at hk; omega)
          (hm.completesFrom fun j hj => by
            have := h (1 + j) (by omega)
            simpa using this)
          (by simpa using hf)
        refine ⟨t, by simpa [runSteps, runStep, memWrite_complete h0] using hr, ?_⟩
        simpa [cutEvents, Nat.add_comm] using hm.trans ht

/-- Transaction number `k` never completes: it is the last event, and PMD is stuck (R37). -/
theorem runSteps_hang (es : List BusStep) (s : State) (k : Nat) (hk : k < transactions es) (h : s.CompletesFrom 0 k)
    (hf : s.outcome k = .never) :
    ∃ t, runSteps es s = .hang t.hang ∧ Moved s t (cutEvents s.ctl.addr .pending k es) (k + 1) s.ctl := by
  induction es generalizing s k with
  | nil => simp [transactions] at hk
  | cons e es ih =>
    cases e with
    | delay ms =>
      have hm := moved_delay s ms
      obtain ⟨t, hr, ht⟩ := ih (s.logEvent (.delay ms)) k (by simpa [transactions] using hk)
        (hm.completesFrom (by simpa using h)) (by simpa using hf)
      refine ⟨t, by simpa [runSteps, runStep, delay] using hr, ?_⟩
      have := hm.trans ht
      rw [show cutEvents s.ctl.addr .pending k (.delay ms :: es) = [.delay ms] ++ cutEvents s.ctl.addr .pending k es by
        cases k <;> rfl]
      simpa using this
    | write reg v =>
      cases k with
      | zero =>
        exact ⟨_, by simp [runSteps, runStep, memWrite_never hf], moved_transaction s _⟩
      | succ k =>
        have hm := moved_transaction s (.write s.ctl.addr reg v .completed)
        have h0 : (s.outcome 0).completes = true := by simpa using h 0 (by omega)
        obtain ⟨t, hr, ht⟩ := ih (s.advance.logEvent (.write s.ctl.addr reg v .completed)) k
          (by simp only [transactions] at hk; omega)
          (hm.completesFrom fun j hj => by
            have := h (1 + j) (by omega)
            simpa using this)
          (by simpa using hf)
        refine ⟨t, by simpa [runSteps, runStep, memWrite_complete h0] using hr, ?_⟩
        simpa [cutEvents, Nat.add_comm] using hm.trans ht

/-- Running two lists one after the other is running their concatenation. -/
theorem runSteps_append (es fs : List BusStep) (s : State) :
    runSteps (es ++ fs) s = (runSteps es s).bind fun _ s' => runSteps fs s' := by
  induction es generalizing s with
  | nil => rfl
  | cons e es ih =>
    simp only [List.cons_append, runSteps]
    cases runStep e s with
    | done v t => simpa using ih t
    | raise e t => rfl
    | hang t => rfl

@[simp] theorem transactions_append (es fs : List BusStep) :
    transactions (es ++ fs) = transactions es + transactions fs := by
  induction es with
  | nil => simp [transactions]
  | cons e es ih => cases e <;> (simp [transactions, ih]; try omega)

/-! ## Discovery -/

/-- The first `k` candidates fail and candidate `k` answers (R81). -/
theorem discover_found (cands : List Addr) (s : State) (k : Nat) (a : Addr) (ha : cands[k]? = some a)
    (hf : ∀ j, j < k → s.outcome j = .fail) (hc : (s.outcome k).completes = true) :
    ∃ t, discover cands s = .done a t ∧
      Moved s t ((cands.take k).map (fun c => Event.read c 0x00 .failed) ++ [.read a 0x00 .completed]) (k + 1) s.ctl := by
  induction cands generalizing s k with
  | nil => simp at ha
  | cons c cands ih =>
    cases k with
    | zero =>
      obtain ⟨v, hv⟩ := completes_iff.1 hc
      obtain rfl : c = a := by simpa using ha
      exact ⟨s.advance.logEvent (.read c 0x00 .completed), by simp [discover, memReadAt, hv],
        moved_transaction s (.read c 0x00 .completed)⟩
    | succ k =>
      have hm := moved_transaction s (.read c 0x00 .failed)
      obtain ⟨t, hr, ht⟩ := ih (s.advance.logEvent (.read c 0x00 .failed)) k (by simpa using ha)
        (fun j hj => by simpa using hf (j + 1) (by omega)) (by simpa using hc)
      refine ⟨t, by simpa [discover, memReadAt_fail (hf 0 (by omega))] using hr, ?_⟩
      simpa [Nat.add_comm] using hm.trans ht

/-- Every candidate fails (R127). -/
theorem discover_none (cands : List Addr) (s : State) (hf : ∀ j, j < cands.length → s.outcome j = .fail) :
    ∃ t, discover cands s = .raise .deviceNotFound t ∧
      Moved s t (cands.map fun c => Event.read c 0x00 .failed) cands.length s.ctl := by
  induction cands generalizing s with
  | nil => exact ⟨s, rfl, Moved.refl s⟩
  | cons c cands ih =>
    have hm := moved_transaction s (.read c 0x00 .failed)
    obtain ⟨t, hr, ht⟩ := ih (s.advance.logEvent (.read c 0x00 .failed))
      (fun j hj => by simpa using hf (j + 1) (by simpa using hj))
    refine ⟨t, by simpa [discover, memReadAt_fail (hf 0 (by simp))] using hr, ?_⟩
    simpa [Nat.add_comm] using hm.trans ht

/-- ENSUREADDR settles on `a` after `n` probes (R80). -/
theorem ensureAddr_found {s : State} {n : Nat} {a : Addr} (h : s.Discovers n a) :
    ∃ t, ensureAddr s = .done () t ∧ Moved s t (probeEvents n a) n (s.ctl.withAddr a) := by
  obtain ⟨hv, rfl, rfl⟩ | ⟨hv, k, rfl, ha, hf, hc⟩ := h
  · refine ⟨s, by simp [ensureAddr, hv], ?_⟩
    have : s.ctl.withAddr s.ctl.addr = s.ctl := by simp [Ctl.withAddr, ← hv]
    rw [this]
    exact Moved.refl s
  · obtain ⟨t, hr, ht⟩ := discover_found config.candidates s k a ha hf hc
    exact ⟨t.cacheAddr a, by simp [ensureAddr, hv, hr], ht.cacheAddr a⟩

/-- ENSUREADDR finds no device (R127). -/
theorem ensureAddr_none {s : State} (h : s.NoDevice) :
    ∃ t, ensureAddr s = .raise .deviceNotFound t ∧ Moved s t failedProbes 8 s.ctl := by
  obtain ⟨t, hr, ht⟩ := discover_none config.candidates s h.2
  exact ⟨t, by simp [ensureAddr, h.1, hr], ht⟩

/-- An address is cached: ENSUREADDR does nothing (R80). -/
@[simp] theorem ensureAddr_cached {s : State} (h : s.ctl.addrValid = true) : ensureAddr s = .done () s := by
  simp [ensureAddr, h]

/-! ## Every end of an event list, and its events -/

/-- Whatever the bus does, an event list completes, is cut by a failing transaction, or by one that hangs. -/
theorem runSteps_cases (es : List BusStep) (s : State) :
    (∃ t, runSteps es s = .done () t ∧ Moved s t (completedEvents s.ctl.addr es) (transactions es) s.ctl) ∨
    (∃ k t, k < transactions es ∧ runSteps es s = .raise .busError t ∧
      Moved s t (cutEvents s.ctl.addr .failed k es) (k + 1) s.ctl) ∨
    (∃ k t, k < transactions es ∧ runSteps es s = .hang t.hang ∧
      Moved s t (cutEvents s.ctl.addr .pending k es) (k + 1) s.ctl) := by
  by_cases h : s.CompletesFrom 0 (transactions es)
  · exact .inl (runSteps_complete es s h)
  · right
    have ex : ∃ k, k < transactions es ∧ (s.outcome k).completes = false := by
      by_contra hn
      refine h fun k hk => ?_
      by_contra hc
      exact hn ⟨k, hk, by simpa using hc⟩
    obtain ⟨hk, hc⟩ := Nat.find_spec ex
    have least := fun j hj => Nat.find_min ex (m := j) hj
    generalize Nat.find ex = k at *
    have before : s.CompletesFrom 0 k := fun j hj => by
      have := least j hj
      simp only [not_and, Bool.not_eq_false] at this
      simpa using this (by omega)
    cases ho : s.outcome k with
    | complete v => simp [ho, BusReply.completes] at hc
    | fail =>
      obtain ⟨t, h1, h2⟩ := runSteps_fail es s k hk before ho
      exact .inl ⟨k, t, hk, h1, h2⟩
    | never =>
      obtain ⟨t, h1, h2⟩ := runSteps_hang es s k hk before ho
      exact .inr ⟨k, t, hk, h1, h2⟩

@[simp] theorem completedEvents_append (a : Addr) (es fs : List BusStep) :
    completedEvents a (es ++ fs) = completedEvents a es ++ completedEvents a fs := List.map_append

theorem cutEvents_delay (a : Addr) (f : Fate) (k ms : Nat) (es : List BusStep) :
    cutEvents a f k (.delay ms :: es) = .delay ms :: cutEvents a f k es := by cases k <;> rfl

/-- A list cut in its first or in its second part. -/
theorem cutEvents_append (a : Addr) (f : Fate) (k : Nat) (es fs : List BusStep) :
    cutEvents a f k (es ++ fs) =
      if k < transactions es then cutEvents a f k es
      else completedEvents a es ++ cutEvents a f (k - transactions es) fs := by
  induction es generalizing k with
  | nil => simp [transactions, completedEvents]
  | cons e es ih =>
    cases e with
    | delay ms =>
      rw [List.cons_append, cutEvents_delay, cutEvents_delay, ih]
      by_cases h : k < transactions es <;> simp [h, transactions, completedEvents, BusStep.event]
    | write r v =>
      cases k with
      | zero => simp [transactions, cutEvents]
      | succ k =>
        simp only [List.cons_append, cutEvents, ih, transactions, Nat.add_lt_add_iff_right]
        split <;> simp [completedEvents, BusStep.event, Nat.add_sub_add_right]

/-! ## What events do to DEV -/

theorem blockReg_toNat {ch i : Nat} (h : ch < 16) (hi : i < 4) : (blockReg ch i).toNat = 6 + 4 * ch + i := by
  simp [blockReg]; omega

/-- Probes leave DEV alone. -/
theorem probeEvents_dev (n : Nat) (a : Addr) (m : Memory) : (probeEvents n a).foldl Event.applyDev m = m := by
  have h : ∀ cs : List Addr, (cs.map fun c => Event.read c 0x00 .failed).foldl Event.applyDev m = m := by
    intro cs
    induction cs with
    | nil => rfl
    | cons c cs ih => exact ih
  cases n with
  | zero => rfl
  | succ k => rw [probeEvents, List.foldl_append, h]; rfl

/-- DEV after a channel's block has been written. -/
theorem read_blockWrites (m : Memory) (a : Addr) {ch : Nat} (h : ch < 16) (b0 b1 b2 b3 : Byte) (r : Nat) :
    Memory.read ((completedEvents a (blockWrites ch b0 b1 b2 b3)).foldl Event.applyDev m) r =
      if r = 6 + 4 * ch then some b0
      else if r = 6 + 4 * ch + 1 then some b1
      else if r = 6 + 4 * ch + 2 then some b2
      else if r = 6 + 4 * ch + 3 then some b3
      else Memory.read m r := by
  simp only [completedEvents, blockWrites, List.map, BusStep.event, List.foldl, Event.applyDev, Memory.read_write,
    blockReg_toNat h (show 0 < 4 by omega), blockReg_toNat h (show 1 < 4 by omega),
    blockReg_toNat h (show 2 < 4 by omega), blockReg_toNat h (show 3 < 4 by omega)]
  split_ifs <;> first | rfl | omega

/-- The channel's block reads as full-off. -/
def FullOff (m : Memory) (ch : Nat) : Prop :=
  Memory.read m (6 + 4 * ch) = some 0x00 ∧ Memory.read m (6 + 4 * ch + 1) = some 0x00 ∧
    Memory.read m (6 + 4 * ch + 2) = some 0x00 ∧ Memory.read m (6 + 4 * ch + 3) = some 0x10

/-- After zeroing a list of channels: those of the list are full-off, those that were stay so, and nothing outside the
blocks changes. -/
theorem fullOff_after (a : Addr) (chs : List Nat) (hc : ∀ c ∈ chs, c < 16) (m : Memory) :
    (∀ ch, ch < 16 → (FullOff m ch ∨ ch ∈ chs) →
      FullOff ((completedEvents a (chs.flatMap fullOffWrites)).foldl Event.applyDev m) ch) ∧
    (∀ r, (r < 0x06 ∨ 0x45 < r) →
      Memory.read ((completedEvents a (chs.flatMap fullOffWrites)).foldl Event.applyDev m) r = Memory.read m r) := by
  induction chs generalizing m with
  | nil => simp [completedEvents]
  | cons c chs ih =>
    have hc0 := hc c (by simp)
    rw [List.flatMap_cons, completedEvents_append, List.foldl_append]
    have rb := read_blockWrites m a hc0 0x00 0x00 0x00 0x10
    obtain ⟨i1, i2⟩ := ih (fun x hx => hc x (by simp [hx])) ((completedEvents a (fullOffWrites c)).foldl Event.applyDev m)
    refine ⟨fun ch hch h => i1 ch hch ?_, fun r hr => ?_⟩
    · by_cases hin : ch ∈ chs
      · exact .inr hin
      · left
        simp only [FullOff, fullOffWrites, rb]
        by_cases hcc : ch = c
        · subst hcc; simp
        · obtain h | h := h
          · simp only [FullOff] at h
            have : ch < c ∨ c < ch := by omega
            rw [h.1, h.2.1, h.2.2.1, h.2.2.2]
            refine ⟨?_, ?_, ?_, ?_⟩ <;> split_ifs <;> first | rfl | omega
          · simp [hcc, hin] at h
    · rw [i2 r hr, fullOffWrites, rb]
      split_ifs <;> first | rfl | omega

end Sys2Proof.Machine
end

