-- ==== Sys2Proof/Laws/Frame.lean ====
section
/-! SUPPORT. Everything an operation can do, whatever the bus does, as a chain of five kinds of move; one lemma per
shared operation. Frames and invariants follow by induction over the chain instead of unfolding the operations. -/

namespace Sys2Proof.Machine

/-- How a transaction with this outcome ends in the trace (R36). -/
def BusReply.fate : BusReply → Fate
  | .complete _ => .completed
  | .fail => .failed
  | .never => .pending

/-- One move of an operation that may write a byte `v` to a register `r` where `W r v`, and may configure a frequency
where `F`. A move starts in a state that is not stuck; a transaction takes the next outcome. -/
inductive Move (W : Reg → Byte → Prop) (F : Prop) : State → State → Prop
  | wrote (s : State) (r : Reg) (v : Byte) (hs : s.stuck = false) (ha : s.ctl.addrValid = true) (hw : W r v)
      (ho : s.outcome 0 ≠ .never) :
      Move W F s (s.advance.logEvent (.write s.ctl.addr r v (BusReply.fate (s.outcome 0))))
  | writeHung (s : State) (r : Reg) (v : Byte) (hs : s.stuck = false) (ha : s.ctl.addrValid = true) (hw : W r v)
      (ho : s.outcome 0 = .never) : Move W F s (s.advance.logEvent (.write s.ctl.addr r v .pending)).hang
  | probed (s : State) (a : Addr) (hs : s.stuck = false) (ha : a ∈ config.candidates) (ho : s.outcome 0 ≠ .never) :
      Move W F s (s.advance.logEvent (.read a 0x00 (BusReply.fate (s.outcome 0))))
  | probeHung (s : State) (a : Addr) (hs : s.stuck = false) (ha : a ∈ config.candidates) (ho : s.outcome 0 = .never) :
      Move W F s (s.advance.logEvent (.read a 0x00 .pending)).hang
  | delayed (s : State) (hs : s.stuck = false) : Move W F s (s.logEvent (.delay 5))
  | cached (s : State) (a : Addr) (hs : s.stuck = false) (hv : s.ctl.addrValid = false) (ha : a ∈ config.candidates) :
      Move W F s (s.cacheAddr a)
  | configured (s : State) (hz : BitVec 16) (hs : s.stuck = false) (hF : F) (hl : freqLegal hz = true) :
      Move W F s (s.setFreq hz)

/-- A chain of moves. -/
abbrev Moves (W : Reg → Byte → Prop) (F : Prop) : State → State → Prop := Relation.ReflTransGen (Move W F)

/-- The operation waits for ever. -/
def OpResult.hangs {α : Type} : OpResult α → Bool
  | .done _ _ => false
  | .raise _ _ => false
  | .hang _ => true

@[simp] theorem OpResult.hangs_done {α : Type} (v : α) (s : State) : (OpResult.done v s).hangs = false := rfl
@[simp] theorem OpResult.hangs_raise {α : Type} (e : ErrKind) (s : State) :
    (OpResult.raise e s : OpResult α).hangs = false := rfl
@[simp] theorem OpResult.hangs_hang {α : Type} (s : State) : (OpResult.hang s : OpResult α).hangs = true := rfl

/-- The operation's result is reached by moves, and it is stuck exactly when the operation hangs. -/
structure Runs (W : Reg → Byte → Prop) (F : Prop) {α : Type} (s : State) (r : OpResult α) : Prop where
  moves : Moves W F s r.state
  stuck : r.state.stuck = r.hangs

variable {W : Reg → Byte → Prop} {F : Prop}

theorem Move.mono {W' : Reg → Byte → Prop} {F' : Prop} (hW : ∀ r v, W r v → W' r v) (hF : F → F') {s t : State}
    (h : Move W F s t) : Move W' F' s t := by
  cases h with
  | wrote r v hs ha hw ho => exact .wrote _ r v hs ha (hW r v hw) ho
  | writeHung r v hs ha hw ho => exact .writeHung _ r v hs ha (hW r v hw) ho
  | probed a hs ha ho => exact .probed _ a hs ha ho
  | probeHung a hs ha ho => exact .probeHung _ a hs ha ho
  | delayed hs => exact .delayed _ hs
  | cached a hs hv ha => exact .cached _ a hs hv ha
  | configured hz hs hF' hl => exact .configured _ hz hs (hF hF') hl

/-- What no move changes, whatever it may write: the motor file, the phase, the responses, the construction result, the
host's requests. -/
theorem Moves.frame {s t : State} (h : Moves W F s t) :
    t.motors = s.motors ∧ t.ctl.phase = s.ctl.phase ∧ t.responses = s.responses ∧ t.construction = s.construction ∧
      t.host = s.host := by
  induction h with
  | refl => simp
  | tail _ hm ih => cases hm <;> simpa using ih

/-- A cached address stays. -/
theorem Moves.addr {s t : State} (h : Moves W F s t) (hv : s.ctl.addrValid = true) :
    t.ctl.addrValid = true ∧ t.ctl.addr = s.ctl.addr := by
  induction h with
  | refl => simp [hv]
  | tail _ hm ih => cases hm <;> simp_all

/-- Without leave to configure, the frequency stays. -/
theorem Moves.freq {s t : State} (h : Moves W False s t) :
    t.ctl.freqValid = s.ctl.freqValid ∧ t.ctl.freq = s.ctl.freq := by
  induction h with
  | refl => simp
  | tail _ hm ih =>
    cases hm with
    | configured hz hs hF hl => exact hF.elim
    | _ => simpa using ih

/-- A register the operation may not write keeps its DEV entry. -/
theorem Moves.dev_other {s t : State} (h : Moves W F s t) {r : Reg} (hr : ∀ v, ¬ W r v) :
    Memory.read t.dev r.toNat = Memory.read s.dev r.toNat := by
  induction h with
  | refl => rfl
  | tail _ hm ih =>
    cases hm with
    | wrote reg v hs ha hw ho =>
      rw [← ih, State.logEvent_dev]
      exact Event.applyDev_read_other fun d reg' v' f' he hr' => by
        cases he; rw [BitVec.toNat_inj] at hr'; subst hr'; exact hr _ hw
    | writeHung reg v hs ha hw ho =>
      rw [← ih, State.hang_dev, State.logEvent_dev]
      exact Event.applyDev_read_other fun d reg' v' f' he hr' => by
        cases he; rw [BitVec.toNat_inj] at hr'; subst hr'; exact hr _ hw
    | _ => exact ih

/-- The trace only grows, and DEV is updated by the new events alone. -/
theorem Moves.events {s t : State} (h : Moves W F s t) :
    ∃ evs, t.trace = s.trace ++ evs ∧ t.dev = evs.foldl Event.applyDev s.dev := by
  induction h with
  | refl => exact ⟨[], by simp⟩
  | tail _ hm ih =>
    obtain ⟨evs, h1, h2⟩ := ih
    cases hm
    case cached => exact ⟨evs, by simpa using h1, by simpa using h2⟩
    case configured => exact ⟨evs, by simpa using h1, by simpa using h2⟩
    all_goals exact ⟨evs ++ [_], by simp [h1]; rfl, by simp [h2]⟩

/-- Every new event satisfies `P`, if the events of single moves do. -/
theorem Moves.events_of {P : Event → Prop} {s t : State} (h : Moves W F s t)
    (hw : ∀ a r v f, W r v → P (.write a r v f)) (hr : ∀ a f, a ∈ config.candidates → P (.read a 0x00 f))
    (hd : P (.delay 5)) : ∃ evs, t.trace = s.trace ++ evs ∧ ∀ e ∈ evs, P e := by
  induction h with
  | refl => exact ⟨[], by simp⟩
  | @tail b c _ hm ih =>
    obtain ⟨evs, h1, h2⟩ := ih
    have more : ∀ (u : State) (e : Event), u.trace = b.trace ++ [e] → P e →
        ∃ evs, u.trace = s.trace ++ evs ∧ ∀ x ∈ evs, P x := by
      intro u e hu he
      refine ⟨evs ++ [e], by rw [hu, h1, List.append_assoc], fun x hx => ?_⟩
      rw [List.mem_append, List.mem_singleton] at hx
      obtain hx | rfl := hx
      · exact h2 x hx
      · exact he
    cases hm
    case cached => exact ⟨evs, by simpa using h1, h2⟩
    case configured => exact ⟨evs, by simpa using h1, h2⟩
    case delayed => exact more _ _ rfl hd
    case wrote r v hs ha hw' ho => exact more _ _ rfl (hw _ _ _ _ hw')
    case writeHung r v hs ha hw' ho => exact more _ _ rfl (hw _ _ _ _ hw')
    case probed a hs ha ho => exact more _ _ rfl (hr _ _ ha)
    case probeHung a hs ha ho => exact more _ _ rfl (hr _ _ ha)

/-- The last new event waits for ever exactly when the state is stuck; no earlier one does. -/
theorem Moves.pending {s t : State} (h : Moves W F s t) (hs : s.stuck = false) :
    (t.stuck = false → ∃ evs, t.trace = s.trace ++ evs ∧ ∀ e ∈ evs, Event.isPending e = false) ∧
    (t.stuck = true → ∃ evs e, t.trace = s.trace ++ evs ++ [e] ∧ Event.isPending e = true ∧
      ∀ x ∈ evs, Event.isPending x = false) := by
  induction h with
  | refl => simp [hs]
  | @tail b c _ hm ih =>
    have hb : b.stuck = false := by cases hm <;> assumption
    obtain ⟨evs, h1, h2⟩ := ih.1 hb
    have more : ∀ e, Event.isPending e = false → ∀ x ∈ evs ++ [e], Event.isPending x = false := by
      intro e he x hx
      rw [List.mem_append, List.mem_singleton] at hx
      obtain hx | rfl := hx
      · exact h2 x hx
      · exact he
    cases hm
    case cached => exact ⟨fun _ => ⟨evs, by simpa using h1, h2⟩, by simp [hb]⟩
    case configured => exact ⟨fun _ => ⟨evs, by simpa using h1, h2⟩, by simp [hb]⟩
    case delayed => exact ⟨fun _ => ⟨evs ++ [.delay 5], by simp [h1], more _ rfl⟩, by simp [hb]⟩
    case wrote r v hs' ha hw ho =>
      refine ⟨fun _ => ⟨evs ++ [_], by simp [h1]; rfl, more _ ?_⟩, by simp [hb]⟩
      cases h : b.outcome 0 <;> simp_all [Event.isPending, BusReply.fate]
    case probed a hs' ha ho =>
      refine ⟨fun _ => ⟨evs ++ [_], by simp [h1]; rfl, more _ ?_⟩, by simp [hb]⟩
      cases h : b.outcome 0 <;> simp_all [Event.isPending, BusReply.fate]
    case writeHung => exact ⟨by simp, fun _ => ⟨evs, _, by simp [h1]; rfl, rfl, h2⟩⟩
    case probeHung => exact ⟨by simp, fun _ => ⟨evs, _, by simp [h1]; rfl, rfl, h2⟩⟩

/-- Outcomes are taken in order, one for each transaction issued. -/
theorem Moves.outcome {s t : State} (h : Moves W F s t) :
    s.issued ≤ t.issued ∧ ∀ k, t.outcome k = s.outcome (t.issued - s.issued + k) := by
  induction h with
  | refl => simp
  | @tail b c _ hm ih =>
    obtain ⟨h1, h2⟩ := ih
    have taken : ∀ k, b.outcome (k + 1) = s.outcome (b.issued + 1 - s.issued + k) := fun k => by
      rw [h2]; congr 1; omega
    cases hm
    case cached => exact ⟨by simpa using h1, fun k => by simpa using h2 k⟩
    case configured => exact ⟨by simpa using h1, fun k => by simpa using h2 k⟩
    case delayed => exact ⟨by simpa using h1, fun k => by simpa using h2 k⟩
    all_goals exact ⟨by simp; omega, fun k => by simpa using taken k⟩

/-- When none of the transactions an operation issues hangs, it does not hang. -/
theorem Moves.neverHangs {s t : State} (h : Moves W F s t) (hs : s.stuck = false) {n : Nat} (hn : s.NeverHangsFor n)
    (hi : t.issued ≤ s.issued + n) : t.stuck = false := by
  cases h with
  | refl => exact hs
  | @tail b _ hb hm =>
    have hb' := Moves.outcome hb
    have never : b.outcome 0 = .never → b.issued + 1 ≤ s.issued + n → False := fun ho hi =>
      hn (b.issued - s.issued) (by omega) (by rw [← ho, hb'.2 0]; rfl)
    cases hm
    case writeHung ho => exact (never ho (by simpa using hi)).elim
    case probeHung ho => exact (never ho (by simpa using hi)).elim
    all_goals simpa

theorem Runs.bind {α β : Type} {s : State} {r : OpResult α} {f : α → State → OpResult β} (h : Runs W F s r)
    (hf : ∀ v t, r = .done v t → t.stuck = false → Runs W F t (f v t)) : Runs W F s (r.bind f) := by
  cases r with
  | done v t =>
    have := hf v t rfl h.stuck
    exact ⟨h.moves.trans this.moves, this.stuck⟩
  | raise e t => exact ⟨h.moves, h.stuck⟩
  | hang t => exact ⟨h.moves, h.stuck⟩

theorem Runs.settle {α β : Type} {s : State} {r : OpResult α} {f : Status → State → OpResult β} (h : Runs W F s r)
    (hf : ∀ st t, r.state = t → t.stuck = false → Runs W F t (f st t)) : Runs W F s (r.settle f) := by
  cases r with
  | done v t =>
    have := hf .ok t rfl h.stuck
    exact ⟨h.moves.trans this.moves, this.stuck⟩
  | raise e t =>
    have := hf (.err e) t rfl h.stuck
    exact ⟨h.moves.trans this.moves, this.stuck⟩
  | hang t => exact ⟨h.moves, h.stuck⟩

theorem settle_never_raises {α β : Type} {r : OpResult α} {f : Status → State → OpResult β}
    (hf : ∀ st t e u, f st t ≠ .raise e u) (e : ErrKind) (u : State) : r.settle f ≠ .raise e u := by
  cases r with
  | done v t => exact hf .ok t e u
  | raise e' t => exact hf (.err e') t e u
  | hang t => simp

theorem runs_done {α : Type} {s : State} (hs : s.stuck = false) (v : α) : Runs W F s (.done v s) := ⟨.refl, hs⟩

theorem runs_raise {α : Type} {s : State} (hs : s.stuck = false) (e : ErrKind) :
    Runs W F s (.raise e s : OpResult α) := ⟨.refl, hs⟩

theorem memWrite_runs {s : State} (hs : s.stuck = false) (ha : s.ctl.addrValid = true) {r : Reg} {v : Byte} (hw : W r v) :
    Runs W F s (memWrite r v s) := by
  unfold memWrite
  cases ho : s.outcome 0 with
  | complete b =>
    have hm : Move W F s _ := .wrote s r v hs ha hw (by simp [ho])
    rw [ho] at hm
    exact ⟨.single hm, by simpa using hs⟩
  | fail =>
    have hm : Move W F s _ := .wrote s r v hs ha hw (by simp [ho])
    rw [ho] at hm
    exact ⟨.single hm, by simpa using hs⟩
  | never => exact ⟨.single (.writeHung s r v hs ha hw ho), rfl⟩

/-- A write that completes leaves the controller state. -/
theorem memWrite_done_ctl {s t : State} {r : Reg} {v : Byte} {u : Unit} (h : memWrite r v s = .done u t) :
    t.ctl = s.ctl := by
  unfold memWrite at h
  cases ho : s.outcome 0 <;> simp [ho] at h
  simp [← h]

/-- A list of allowed writes and 5 ms delays. -/
theorem runSteps_runs (es : List BusStep) {s : State} (hs : s.stuck = false) (ha : s.ctl.addrValid = true)
    (hw : ∀ r v, BusStep.write r v ∈ es → W r v) (hd : ∀ ms, BusStep.delay ms ∈ es → ms = 5) :
    Runs W F s (runSteps es s) := by
  induction es generalizing s with
  | nil => exact runs_done hs ()
  | cons e es ih =>
    cases e with
    | write r v =>
      refine (memWrite_runs hs ha (hw r v (by simp))).bind fun u t ht hts => ?_
      exact ih hts (by rw [memWrite_done_ctl ht]; exact ha) (fun r' v' h' => hw r' v' (by simp [h']))
        (fun ms h' => hd ms (by simp [h']))
    | delay ms =>
      obtain rfl : ms = 5 := hd ms (by simp)
      have h1 : Runs W F s (delay 5 s) := ⟨.single (.delayed s hs), by simpa [delay] using hs⟩
      refine h1.bind fun u t ht hts => ?_
      have hc : t.ctl = s.ctl := by simp [delay] at ht; simp [← ht]
      exact ih hts (by rw [hc]; exact ha) (fun r' v' h' => hw r' v' (by simp [h'])) (fun ms h' => hd ms (by simp [h']))

theorem discover_runs (cands : List Addr) {s : State} (hs : s.stuck = false) (hc : ∀ a ∈ cands, a ∈ config.candidates) :
    Runs W F s (discover cands s) ∧ ∀ a t, discover cands s = .done a t → a ∈ cands ∧ t.ctl = s.ctl := by
  induction cands generalizing s with
  | nil => exact ⟨runs_raise hs _, by simp [discover]⟩
  | cons c cands ih =>
    have hc0 := hc c (by simp)
    simp only [discover, memReadAt]
    cases ho : s.outcome 0 with
    | complete v =>
      have hm : Move W F s _ := .probed s c hs hc0 (by simp [ho])
      rw [ho] at hm
      refine ⟨⟨.single hm, by simpa using hs⟩, fun a t h => ?_⟩
      cases h; simp
    | fail =>
      have hm : Move W F s _ := .probed s c hs hc0 (by simp [ho])
      rw [ho] at hm
      obtain ⟨h1, h2⟩ := ih (s := s.advance.logEvent (.read c 0x00 .failed)) (by simpa using hs)
        (fun a ha => hc a (by simp [ha]))
      refine ⟨⟨.head hm h1.moves, h1.stuck⟩, fun a t h => ?_⟩
      have := h2 a t h
      exact ⟨by simp [this.1], by simpa using this.2⟩
    | never => exact ⟨⟨.single (.probeHung s c hs hc0 ho), rfl⟩, by simp⟩

/-- ENSUREADDR: at most probes and caching a candidate; when it completes an address is cached. -/
theorem ensureAddr_runs {s : State} (hs : s.stuck = false) :
    Runs W F s (ensureAddr s) ∧ ∀ u t, ensureAddr s = .done u t → t.ctl.addrValid = true ∧ t.motors = s.motors := by
  unfold ensureAddr
  split
  · next hv => exact ⟨runs_done hs (), fun u t h => by cases h; exact ⟨hv, rfl⟩⟩
  · next hv =>
    obtain ⟨h1, h2⟩ := discover_runs (W := W) (F := F) config.candidates hs (fun a ha => ha)
    refine ⟨h1.bind fun a t ht hts => ?_, ?_⟩
    · have := h2 a t ht
      exact ⟨.single (.cached t a hts (by rw [this.2]; simpa using hv) this.1), by simpa using hts⟩
    · intro u t h
      have hf := h1.moves.frame
      cases hd : discover config.candidates s with
      | done a t' =>
        rw [hd] at h hf
        simp at h hf
        simp [← h, hf]
      | raise e t' => simp [hd] at h
      | hang t' => simp [hd] at h

/-- SETDUTY writes nothing but the channel's block. -/
theorem setDuty_runs {s : State} (hs : s.stuck = false) (ch duty : Int)
    (hw : channelLegal ch = true → ∀ r v, BusStep.write r v ∈ blockSteps ch (enc duty) → W r v) :
    Runs W F s (setDuty ch duty s) := by
  unfold setDuty
  split
  · next hch =>
    obtain ⟨h1, h2⟩ := ensureAddr_runs (W := W) (F := F) hs
    exact h1.bind fun u t ht hts =>
      runSteps_runs _ hts (h2 u t ht).1 (hw hch) (fun ms h => by simp [blockSteps] at h)
  · exact runs_raise hs _

/-- MSETPOWER writes nothing but the motor's two blocks. -/
theorem motorSetPower_runs {s : State} (hs : s.stuck = false) (w : Wheel) (power : Option Int)
    (hw : ∀ p r v, power = some p →
      (BusStep.write r v ∈ blockSteps ((s.motors.get w).dir.toNat : Int)
          (enc (levelDuty (scale (s.motors.get w) p).dir)) ∨
        BusStep.write r v ∈ blockSteps ((s.motors.get w).pwm.toNat : Int) (enc (scale (s.motors.get w) p).duty)) →
      W r v) :
    Runs W F s (motorSetPower w power s) := by
  cases power with
  | none => exact runs_raise hs _
  | some p =>
    exact (setDuty_runs hs _ _ fun _ r v h => hw p r v rfl (.inl h)).bind fun u t ht hts =>
      setDuty_runs hts _ _ fun _ r v h => hw p r v rfl (.inr h)

/-- SETPOWER4's loop, and so DRIVE and ALLSTOP: nothing but the blocks of the motors of the wheels in the list. -/
theorem wheelLoop_runs (p : PerWheel (Option Int)) (ws : List Wheel) (wst : PerWheel Status) {s : State}
    (hs : s.stuck = false)
    (hw : ∀ w ∈ ws, ∀ q r v, p.get w = some q →
      (BusStep.write r v ∈ blockSteps ((s.motors.get w).dir.toNat : Int)
          (enc (levelDuty (scale (s.motors.get w) q).dir)) ∨
        BusStep.write r v ∈ blockSteps ((s.motors.get w).pwm.toNat : Int) (enc (scale (s.motors.get w) q).duty)) →
      W r v) :
    Runs W F s (wheelLoop p ws wst s) := by
  induction ws generalizing s wst with
  | nil => exact runs_done hs wst
  | cons w ws ih =>
    have h1 : Runs W F s (motorSetPower w (p.get w) s) := motorSetPower_runs hs w _ (hw w (by simp))
    rw [wheelLoop]
    refine h1.settle fun st t ht hts => ih (wst.set w st) hts fun w' hw' => ?_
    rw [← ht, h1.moves.frame.1]
    exact hw w' (by simp [hw'])

/-- No error escapes SETPOWER4's loop (R112). -/
theorem wheelLoop_never_raises (p : PerWheel (Option Int)) (ws : List Wheel) (wst : PerWheel Status) (s : State)
    (e : ErrKind) (t : State) : wheelLoop p ws wst s ≠ .raise e t := by
  induction ws generalizing s wst e t with
  | nil => simp [wheelLoop]
  | cons w ws ih => exact settle_never_raises (fun st t e u => ih _ t e u) e t

/-- CLEANUP's first loop: nothing but the full-off blocks of the channels in the list. -/
theorem cleanupLoop_runs (chs : List (BitVec 4)) {s : State} (hs : s.stuck = false)
    (hw : ∀ ch ∈ chs, ∀ r v, BusStep.write r v ∈ blockSteps (ch.toNat : Int) (enc 0) → W r v) :
    Runs W F s (cleanupLoop chs s) := by
  induction chs generalizing s with
  | nil => exact runs_done hs ()
  | cons ch chs ih =>
    have h1 : Runs W F s (setDuty ch.toNat 0 s) := setDuty_runs hs (ch.toNat : Int) 0 fun _ => hw ch (by simp)
    rw [cleanupLoop]
    exact h1.settle fun _ t _ hts => ih hts fun c hc => hw c (by simp [hc])

/-- CLEANUP's second loop: nothing but the full-off blocks of the direction channels. -/
theorem lowerLoop_runs (ws : List Wheel) {s : State} (hs : s.stuck = false)
    (hw : ∀ w ∈ ws, ∀ r v, BusStep.write r v ∈ blockSteps ((s.motors.get w).dir.toNat : Int) (enc 0) → W r v) :
    Runs W F s (lowerLoop ws s) := by
  induction ws generalizing s with
  | nil => exact runs_done hs ()
  | cons w ws ih =>
    have h1 : Runs W F s (setDig (s.motors.get w).dir.toNat false s) :=
      setDuty_runs hs ((s.motors.get w).dir.toNat : Int) (levelDuty false) fun _ => hw w (by simp)
    rw [lowerLoop]
    refine h1.settle fun _ t ht hts => ih hts fun w' hw' => ?_
    rw [← ht, h1.moves.frame.1]
    exact hw w' (by simp [hw'])

/-- CLEANUP's loops raise nothing (R116). -/
theorem cleanupLoop_never_raises (chs : List (BitVec 4)) (s : State) (e : ErrKind) (t : State) :
    cleanupLoop chs s ≠ .raise e t := by
  induction chs generalizing s e t with
  | nil => simp [cleanupLoop]
  | cons ch chs ih => exact settle_never_raises (fun _ t e u => ih t e u) e t

theorem lowerLoop_never_raises (ws : List Wheel) (s : State) (e : ErrKind) (t : State) : lowerLoop ws s ≠ .raise e t := by
  induction ws generalizing s e t with
  | nil => simp [lowerLoop]
  | cons w ws ih => exact settle_never_raises (fun _ t e u => ih t e u) e t

/-- CLEANUP: nothing but full-off blocks. -/
theorem cleanupAll_runs {s : State} (hs : s.stuck = false)
    (hw : ∀ ch : BitVec 4, ∀ r v, BusStep.write r v ∈ blockSteps (ch.toNat : Int) (enc 0) → W r v) :
    Runs W F s (cleanupAll s) :=
  (cleanupLoop_runs allChannels hs fun ch _ => hw ch).bind fun _ _ _ hts =>
    lowerLoop_runs Wheel.order hts fun _ _ => hw _

theorem zeroChannels_runs (chs : List (BitVec 4)) {s : State} (hs : s.stuck = false)
    (hw : ∀ ch ∈ chs, ∀ r v, BusStep.write r v ∈ blockSteps (ch.toNat : Int) (enc 0) → W r v) :
    Runs W F s (zeroChannels chs s) := by
  induction chs generalizing s with
  | nil => exact runs_done hs ()
  | cons ch chs ih =>
    exact (setDuty_runs hs (ch.toNat : Int) 0 fun _ r v h => hw ch (by simp) r v h).bind fun _ _ _ hts =>
      ih hts fun c hc => hw c (by simp [hc])

/-- INIT: the writes of CFGDEF and SETFREQ, and the full-off blocks of the known channels (R85). -/
theorem initController_runs {s : State} (hs : s.stuck = false) (hz : BitVec 16)
    (hcfg : freqLegal hz = true → ∀ r v,
      BusStep.write r v ∈ config.cfgSeq ++ config.freqSeq (BitVec.ofInt 8 (prescale hz.toNat)) → W r v)
    (hzero : ∀ ch ∈ knownChannels s.motors, ∀ r v,
      BusStep.write r v ∈ blockSteps (ch.toNat : Int) (enc 0) → W r v) :
    Runs W True s (initController hz s) := by
  unfold initController
  split
  · next hl =>
    obtain ⟨h1, h2⟩ := ensureAddr_runs (W := W) (F := True) hs
    refine h1.bind fun u1 s1 hr1 hs1 => ?_
    have ha1 := h2 u1 s1 hr1
    have h3 : Runs W True s1 (cfgDef s1) :=
      runSteps_runs _ hs1 ha1.1 (fun r v h => hcfg hl r v (by simp [h])) (fun ms h => by simp [config_cfgSeq] at h)
    refine h3.bind fun u2 s2 hr2 hs2 => ?_
    have hm2 := h3.moves.frame.1
    have ha2 := (h3.moves.addr ha1.1).1
    rw [hr2] at hm2 ha2
    have h4 : Runs W True s2 (setFreq hz s2) := by
      unfold setFreq
      rw [if_pos hl]
      have h5 : Runs W True s2 (runSteps (config.freqSeq (BitVec.ofInt 8 (prescale hz.toNat))) s2) :=
        runSteps_runs _ hs2 ha2 (fun r v h => hcfg hl r v (by simp [h])) (fun ms h => by
          simpa [config_freqSeq] using h)
      exact h5.bind fun u t ht hts => ⟨.single (.configured t hz hts trivial hl), by simpa using hts⟩
    refine h4.bind fun u3 s3 hr3 hs3 => ?_
    have hm3 := h4.moves.frame.1
    rw [hr3] at hm3
    simp only [OpResult.state_done] at hm2 hm3
    exact zeroChannels_runs _ hs3 (by rw [hm3, hm2, ha1.2]; exact hzero)
  · exact runs_raise hs _

/-- How a command's end looks: stuck without a response, or the operation's state with one response. -/
theorem finish_cases {α : Type} (mk : Status → Response) (r : OpResult α) :
    (∃ t, r = .hang t ∧ finish mk r = t) ∨
    ((∃ v t, r = .done v t) ∧ finish mk r = r.state.respond (mk .ok)) ∨
    (∃ e t, r = .raise e t ∧ finish mk r = r.state.respond (mk (.err e))) := by
  cases r with
  | done v t => exact .inr (.inl ⟨⟨v, t, rfl⟩, rfl⟩)
  | raise e t => exact .inr (.inr ⟨e, t, rfl, rfl⟩)
  | hang t => exact .inl ⟨t, rfl, rfl⟩

end Sys2Proof.Machine
end

