-- ==== Sys2Proof/Laws/Commands.lean ====
section
/-! SUPPORT. Each command's operation as address discovery followed by one event list: the form in which its completion
and its failures are read off the laws of event lists. -/

namespace Sys2Proof.Machine

/-! ## Channel blocks -/

theorem channelLegal_iff {ch : Int} : channelLegal ch = true ↔ 0 ≤ ch ∧ ch ≤ 15 := by
  rw [channelLegal, Bool.and_eq_true, decide_eq_true_eq, decide_eq_true_eq, config_nch]
  omega

theorem channelLegal_channel (ch : BitVec 4) : channelLegal (ch.toNat : Int) = true := by
  have := ch.isLt
  rw [channelLegal_iff]; omega

theorem freqLegal_iff {hz : BitVec 16} : freqLegal hz = true ↔ 24 ≤ hz.toNat ∧ hz.toNat ≤ 12207 := by
  rw [freqLegal, Bool.and_eq_true, decide_eq_true_eq, decide_eq_true_eq, config_hzMin, config_hzMax]

theorem blockBase_eq {ch : Int} (h0 : 0 ≤ ch) (h1 : ch ≤ 15) :
    blockBase ch = blockReg ch.toNat 0 ∧ blockBase ch + 1 = blockReg ch.toNat 1 ∧
      blockBase ch + 2 = blockReg ch.toNat 2 ∧ blockBase ch + 3 = blockReg ch.toNat 3 := by
  have all : ∀ c : Fin 16, blockBase (c.val : Int) = blockReg c.val 0 ∧ blockBase (c.val : Int) + 1 = blockReg c.val 1 ∧
      blockBase (c.val : Int) + 2 = blockReg c.val 2 ∧ blockBase (c.val : Int) + 3 = blockReg c.val 3 := by decide
  have := all ⟨ch.toNat, by omega⟩
  simpa [Int.toNat_of_nonneg h0] using this

/-- A write of a block goes to one of the block's registers. -/
theorem reg_of_blockSteps {ch : Int} (h : channelLegal ch = true) {b : Block} {r : Reg} {v : Byte}
    (hm : BusStep.write r v ∈ blockSteps ch b) : r ∈ blockRegs ch.toNat := by
  rw [channelLegal_iff] at h
  obtain ⟨h0, h1, h2, h3⟩ := blockBase_eq h.1 h.2
  rw [blockSteps, h1, h2, h3, h0] at hm
  simp only [List.mem_cons, BusStep.write.injEq, List.not_mem_nil, or_false] at hm
  simp only [blockRegs, List.mem_cons, List.not_mem_nil, or_false]
  tauto

/-- The writes of a block at the offsets of R32. -/
theorem blockSteps_eq {ch : Int} (h : channelLegal ch = true) (duty : Int) :
    blockSteps ch (enc duty) = dutyWrites ch.toNat duty := by
  rw [channelLegal_iff] at h
  obtain ⟨h0, h1, h2, h3⟩ := blockBase_eq h.1 h.2
  rw [blockSteps, h1, h2, h3, h0]
  rfl

theorem dutyWrites_level (ch : Nat) (high : Bool) : dutyWrites ch (levelDuty high) = levelWrites ch high := by
  cases high <;> rfl

theorem dutyWrites_zero (ch : Nat) : dutyWrites ch 0 = fullOffWrites ch := rfl

@[simp] theorem transactions_dutyWrites (ch : Nat) (duty : Int) : transactions (dutyWrites ch duty) = 4 := rfl
@[simp] theorem transactions_fullOffWrites (ch : Nat) : transactions (fullOffWrites ch) = 4 := rfl
@[simp] theorem transactions_levelWrites (ch : Nat) (g : Bool) : transactions (levelWrites ch g) = 4 := by
  cases g <;> rfl
@[simp] theorem transactions_motorWrites (m : MotorCfg) (p : Int) : transactions (motorWrites m p) = 8 := by
  simp [motorWrites]

/-! ## Operations as discovery and one event list -/

theorem runSteps_nil (s : State) : runSteps [] s = .done () s := rfl

theorem runSteps_done_ctl {es : List BusStep} {s t : State} {u : Unit} (h : runSteps es s = .done u t) :
    t.ctl = s.ctl ∧ t.motors = s.motors := by
  induction es generalizing s with
  | nil => cases h; exact ⟨rfl, rfl⟩
  | cons e es ih =>
    simp only [runSteps] at h
    cases hr : runStep e s with
    | done v s' =>
      rw [hr] at h
      have h1 := ih h
      have h2 : s'.ctl = s.ctl ∧ s'.motors = s.motors := by
        cases e with
        | write r v =>
          simp only [runStep, memWrite] at hr
          cases ho : s.outcome 0 <;> simp [ho] at hr
          simp [← hr]
        | delay ms => simp [runStep, delay] at hr; simp [← hr]
      exact ⟨h1.1.trans h2.1, h1.2.trans h2.2⟩
    | raise e s' => rw [hr] at h; cases h
    | hang s' => rw [hr] at h; cases h

/-- After discovery an address is cached and the motor file is unchanged. -/
theorem ensureAddr_done {s t : State} {u : Unit} (h : ensureAddr s = .done u t) :
    t.ctl.addrValid = true ∧ t.motors = s.motors := by
  have hd : ∀ (cands : List Addr) (s : State) (a : Addr) (t : State), discover cands s = .done a t →
      t.motors = s.motors := by
    intro cands
    induction cands with
    | nil => simp [discover]
    | cons c cands ih =>
      intro s a t h
      simp only [discover, memReadAt] at h
      cases ho : s.outcome 0 with
      | complete v => simp [ho] at h; simp [← h.2]
      | fail => simp [ho] at h; simpa using ih _ _ _ h
      | never => simp [ho] at h
  unfold ensureAddr at h
  split at h
  · next hv => cases h; exact ⟨hv, rfl⟩
  · cases hr : discover config.candidates s with
    | done a s' =>
      rw [hr] at h
      cases h
      exact ⟨rfl, by rw [State.cacheAddr_motors]; exact hd _ _ _ _ hr⟩
    | raise e s' => rw [hr] at h; cases h
    | hang s' => rw [hr] at h; cases h

/-- SETDUTY on a legal channel. -/
theorem setDuty_eq {ch : Int} (h : channelLegal ch = true) (duty : Int) (s : State) :
    setDuty ch duty s = (ensureAddr s).bind fun _ t => runSteps (dutyWrites ch.toNat duty) t := by
  rw [setDuty, if_pos h, blockSteps_eq h]

/-- With an address cached, SETDUTY after an event list is a longer event list. -/
theorem runSteps_setDuty {ch : Int} (h : channelLegal ch = true) (duty : Int) (es : List BusStep) {s : State}
    (hs : s.ctl.addrValid = true) :
    ((runSteps es s).bind fun _ t => setDuty ch duty t) = runSteps (es ++ dutyWrites ch.toNat duty) s := by
  rw [runSteps_append]
  cases hr : runSteps es s with
  | done u t =>
    have hc := (runSteps_done_ctl hr).1
    simp [setDuty_eq h, hc, hs]
  | raise e t => rfl
  | hang t => rfl

/-- MSETPOWER on a numeric power: discovery, then the eight writes (R96). -/
theorem motorSetPower_eq (w : Wheel) (p : Int) (s : State) :
    motorSetPower w (some p) s = (ensureAddr s).bind fun _ t => runSteps (motorWrites (s.motors.get w) p) t := by
  simp only [motorSetPower, setDig]
  rw [setDuty_eq (channelLegal_channel _)]
  cases hr : ensureAddr s with
  | done u t =>
    simp only [OpResult.bind_done]
    rw [runSteps_setDuty (channelLegal_channel _) _ _ (ensureAddr_done hr).1, dutyWrites_level]
    rfl
  | raise e t => rfl
  | hang t => rfl

/-- With an address cached, zeroing channels after an event list is a longer event list. -/
theorem runSteps_zeroChannels (chs : List (BitVec 4)) (es : List BusStep) {s : State} (hs : s.ctl.addrValid = true) :
    ((runSteps es s).bind fun _ t => zeroChannels chs t) =
      runSteps (es ++ chs.flatMap fun ch => fullOffWrites ch.toNat) s := by
  induction chs generalizing es with
  | nil =>
    simp only [zeroChannels, List.flatMap_nil, List.append_nil]
    cases runSteps es s <;> rfl
  | cons ch chs ih =>
    have h1 : ((runSteps es s).bind fun _ t => zeroChannels (ch :: chs) t) =
        ((runSteps es s).bind fun _ t => setDuty ch.toNat 0 t).bind fun _ t => zeroChannels chs t := by
      cases runSteps es s <;> rfl
    rw [h1, runSteps_setDuty (channelLegal_channel ch) 0 es hs, ih]
    simp [dutyWrites_zero]

theorem knownChannels_writes (m : PerWheel MotorCfg) :
    ((knownChannels m).flatMap fun ch => fullOffWrites ch.toNat) =
      Wheel.order.flatMap fun w => fullOffWrites (m.get w).dir.toNat ++ fullOffWrites (m.get w).pwm.toNat := by
  simp [knownChannels, Wheel.order]

/-- Zeroing the known channels of a controller with an address cached is one event list. -/
theorem zeroKnown_eq {s : State} (hs : s.ctl.addrValid = true) :
    zeroChannels (knownChannels s.motors) s =
      runSteps (Wheel.order.flatMap fun w =>
        fullOffWrites (s.motors.get w).dir.toNat ++ fullOffWrites (s.motors.get w).pwm.toNat) s := by
  have h := runSteps_zeroChannels (knownChannels s.motors) [] hs
  rw [runSteps_nil, OpResult.bind_done, List.nil_append, knownChannels_writes] at h
  exact h

/-- SETFREQ on a legal frequency: its events, then recording it. -/
theorem setFreq_eq {hz : BitVec 16} (h : freqLegal hz = true) (s : State) :
    setFreq hz s = (runSteps (config.freqSeq (BitVec.ofInt 8 (prescale hz.toNat))) s).bind fun _ t =>
      .done () (t.setFreq hz) := by
  rw [setFreq, if_pos h]

/-- INIT on a legal frequency: discovery, CFGDEF's and SETFREQ's events, recording the frequency, then the zeroing
(R85). -/
theorem initController_eq {hz : BitVec 16} (h : freqLegal hz = true) (s : State) :
    initController hz s = (ensureAddr s).bind fun _ t =>
      (runSteps (config.cfgSeq ++ config.freqSeq (BitVec.ofInt 8 (prescale hz.toNat))) t).bind fun _ u =>
        runSteps (Wheel.order.flatMap fun w =>
          fullOffWrites (s.motors.get w).dir.toNat ++ fullOffWrites (s.motors.get w).pwm.toNat) (u.setFreq hz) := by
  rw [initController, if_pos h]
  cases hr : ensureAddr s with
  | done u t =>
    rw [OpResult.bind_done, OpResult.bind_done, cfgDef, runSteps_append]
    cases hr1 : runSteps config.cfgSeq t with
    | done u1 t1 =>
      rw [OpResult.bind_done, OpResult.bind_done, setFreq_eq h]
      generalize hf : config.freqSeq (BitVec.ofInt 8 (prescale hz.toNat)) = fs
      cases hr2 : runSteps fs t1 with
      | done u2 t2 =>
        have hm : (t2.setFreq hz).motors = s.motors := by
          rw [State.setFreq_motors, (runSteps_done_ctl hr2).2, (runSteps_done_ctl hr1).2, (ensureAddr_done hr).2]
        have hv : (t2.setFreq hz).ctl.addrValid = true := by
          rw [State.setFreq_ctl, (runSteps_done_ctl hr2).1, (runSteps_done_ctl hr1).1]
          exact (ensureAddr_done hr).1
        rw [OpResult.bind_done, OpResult.bind_done, OpResult.bind_done, zeroKnown_eq hv, hm]
      | raise e t2 => simp only [OpResult.bind_raise]
      | hang t2 => simp only [OpResult.bind_hang]
    | raise e t1 => simp only [OpResult.bind_raise]
    | hang t1 => simp only [OpResult.bind_hang]
  | raise e t => simp only [OpResult.bind_raise]
  | hang t => simp only [OpResult.bind_hang]

/-! ## Completion and failure of discovery followed by one event list -/

/-- Discovery settles and every transaction completes. -/
theorem discoverThen_complete {s : State} {n : Nat} {a : Addr} (es : List BusStep) (h : s.Ready n a (transactions es)) :
    ∃ t, ((ensureAddr s).bind fun _ t => runSteps es t) = .done () t ∧
      Moved s t (probeEvents n a ++ completedEvents a es) (n + transactions es) (s.ctl.withAddr a) := by
  obtain ⟨t1, h1, m1⟩ := ensureAddr_found h.1
  obtain ⟨t2, h2, m2⟩ := runSteps_complete es t1 (m1.completesFrom (by simpa using h.2))
  refine ⟨t2, by simp [h1, h2], ?_⟩
  have := m1.trans m2
  rw [m1.ctl] at this
  exact this

/-- Discovery settles and transaction number `k` of the list fails. -/
theorem discoverThen_fail {s : State} {n k : Nat} {a : Addr} (es : List BusStep) (hd : s.Discovers n a)
    (hk : k < transactions es) (hc : s.CompletesFrom n k) (hf : s.outcome (n + k) = .fail) :
    ∃ t, ((ensureAddr s).bind fun _ t => runSteps es t) = .raise .busError t ∧
      Moved s t (probeEvents n a ++ cutEvents a .failed k es) (n + (k + 1)) (s.ctl.withAddr a) := by
  obtain ⟨t1, h1, m1⟩ := ensureAddr_found hd
  obtain ⟨t2, h2, m2⟩ := runSteps_fail es t1 k hk (m1.completesFrom (by simpa using hc)) (by rw [m1.outcome]; exact hf)
  refine ⟨t2, by simp [h1, h2], ?_⟩
  have := m1.trans m2
  rw [m1.ctl] at this
  exact this

/-- No device. -/
theorem discoverThen_none {s : State} (f : Unit → State → OpResult Unit) (h : s.NoDevice) :
    ∃ t, (ensureAddr s).bind f = .raise .deviceNotFound t ∧ Moved s t failedProbes 8 s.ctl := by
  obtain ⟨t, h1, m⟩ := ensureAddr_none h
  exact ⟨t, by simp [h1], m⟩

/-! ## Whole operations when every transaction completes -/

theorem withAddr_cached {s : State} (hv : s.ctl.addrValid = true) : s.ctl.withAddr s.ctl.addr = s.ctl := by
  simp [Ctl.withAddr, ← hv]

/-- SETDUTY with an address cached. -/
theorem setDuty_complete {ch : Int} (h : channelLegal ch = true) (duty : Int) {s : State}
    (hv : s.ctl.addrValid = true) (hc : s.CompletesFrom 0 4) :
    ∃ t, setDuty ch duty s = .done () t ∧
      Moved s t (completedEvents s.ctl.addr (dutyWrites ch.toNat duty)) 4 s.ctl := by
  rw [setDuty_eq h, ensureAddr_cached hv]
  exact runSteps_complete _ s hc

/-- The 32 zeroing writes of INIT (R85). -/
theorem transactions_zeroing (m : PerWheel MotorCfg) :
    transactions (Wheel.order.flatMap fun w => fullOffWrites (m.get w).dir.toNat ++ fullOffWrites (m.get w).pwm.toNat) =
      32 := rfl

theorem initSteps_eq (m : PerWheel MotorCfg) (p : Byte) :
    initSteps m p = (config.cfgSeq ++ config.freqSeq p) ++
      Wheel.order.flatMap fun w => fullOffWrites (m.get w).dir.toNat ++ fullOffWrites (m.get w).pwm.toNat := rfl

/-- INIT: discovery settles and all 39 writes complete (R85). -/
theorem initController_complete {hz : BitVec 16} (h : freqLegal hz = true) {s : State} {n : Nat} {a : Addr}
    (hr : s.Ready n a 39) :
    ∃ t, initController hz s = .done () t ∧
      Moved s t (probeEvents n a ++ completedEvents a (initSteps s.motors (BitVec.ofInt 8 (prescale hz.toNat)))) (n + 39)
        (s.ctl.withAddrFreq a hz) := by
  rw [initController_eq h, initSteps_eq, completedEvents_append]
  have h7 : transactions (config.cfgSeq ++ config.freqSeq (BitVec.ofInt 8 (prescale hz.toNat))) = 7 := rfl
  have h32 := transactions_zeroing s.motors
  generalize config.cfgSeq ++ config.freqSeq (BitVec.ofInt 8 (prescale hz.toNat)) = es at *
  generalize (Wheel.order.flatMap fun w =>
    fullOffWrites (s.motors.get w).dir.toNat ++ fullOffWrites (s.motors.get w).pwm.toNat) = zs at *
  obtain ⟨t1, e1, m1⟩ := ensureAddr_found hr.1
  obtain ⟨t2, e2, m2⟩ := runSteps_complete es t1 (m1.completesFrom fun k hk => hr.2 k (by omega))
  have m12 := m1.trans (m2.setFreq hz)
  have ec : (t2.setFreq hz).ctl = s.ctl.withAddrFreq a hz := by rw [m12.ctl, m1.ctl]; rfl
  obtain ⟨t3, e3, m3⟩ := runSteps_complete zs (t2.setFreq hz) (m12.completesFrom fun k hk => by
    have := hr.2 (7 + k) (by omega)
    simpa [h7, Nat.add_assoc] using this)
  have m := m12.trans m3
  rw [ec, show t1.ctl.addr = a by rw [m1.ctl]; rfl, show (s.ctl.withAddrFreq a hz).addr = a from rfl, h7, h32,
    List.append_assoc] at m
  exact ⟨t3, by rw [e1, OpResult.bind_done, e2, OpResult.bind_done, e3], m⟩

/-- INIT: discovery settles and write number `k` of the 39 fails (R86). -/
theorem initController_fail {hz : BitVec 16} (h : freqLegal hz = true) {s : State} {n k : Nat} {a : Addr}
    (hd : s.Discovers n a) (hk : k < 39) (hc : s.CompletesFrom n k) (hf : s.outcome (n + k) = .fail) :
    ∃ t, initController hz s = .raise .busError t ∧
      Moved s t
        (probeEvents n a ++ cutEvents a .failed k (initSteps s.motors (BitVec.ofInt 8 (prescale hz.toNat)))) (n + k + 1)
        (if k < 7 then s.ctl.withAddr a else s.ctl.withAddrFreq a hz) := by
  rw [initController_eq h, initSteps_eq, cutEvents_append]
  have h7 : transactions (config.cfgSeq ++ config.freqSeq (BitVec.ofInt 8 (prescale hz.toNat))) = 7 := rfl
  have h32 := transactions_zeroing s.motors
  generalize config.cfgSeq ++ config.freqSeq (BitVec.ofInt 8 (prescale hz.toNat)) = es at *
  generalize (Wheel.order.flatMap fun w =>
    fullOffWrites (s.motors.get w).dir.toNat ++ fullOffWrites (s.motors.get w).pwm.toNat) = zs at *
  rw [h7]
  obtain ⟨t1, e1, m1⟩ := ensureAddr_found hd
  have ea : t1.ctl.addr = a := by rw [m1.ctl]; rfl
  by_cases hk7 : k < 7
  · obtain ⟨t2, e2, m2⟩ := runSteps_fail es t1 k (by omega) (m1.completesFrom hc) (by rw [m1.outcome]; exact hf)
    have m := m1.trans m2
    rw [ea, m1.ctl] at m
    rw [if_pos hk7, if_pos hk7]
    exact ⟨t2, by rw [e1, OpResult.bind_done, e2, OpResult.bind_raise], m⟩
  · obtain ⟨t2, e2, m2⟩ := runSteps_complete es t1 (m1.completesFrom fun j hj => hc j (by omega))
    have m12 := m1.trans (m2.setFreq hz)
    rw [h7] at m12
    have ec : (t2.setFreq hz).ctl = s.ctl.withAddrFreq a hz := by rw [m12.ctl, m1.ctl]; rfl
    obtain ⟨t3, e3, m3⟩ := runSteps_fail zs (t2.setFreq hz) (k - 7) (by omega)
      (m12.completesFrom fun j hj => by
        have := hc (7 + j) (by omega)
        simpa [Nat.add_assoc] using this)
      (by rw [m12.outcome, ← hf]; congr 1; omega)
    have m := m12.trans m3
    rw [ec, ea, show (s.ctl.withAddrFreq a hz).addr = a from rfl, List.append_assoc,
      show n + 7 + (k - 7 + 1) = n + k + 1 by omega] at m
    rw [if_neg hk7, if_neg hk7]
    exact ⟨t3, by rw [e1, OpResult.bind_done, e2, OpResult.bind_done, e3], m⟩

/-- INIT with no device (R127). -/
theorem initController_none {hz : BitVec 16} (h : freqLegal hz = true) {s : State} (hn : s.NoDevice) :
    ∃ t, initController hz s = .raise .deviceNotFound t ∧ Moved s t failedProbes 8 s.ctl := by
  rw [initController_eq h]
  exact discoverThen_none _ hn

/-- The writes of the four-wheel loop over a list of wheels. -/
def writesOf (m : PerWheel MotorCfg) (p : PerWheel (Option Int)) (ws : List Wheel) : List BusStep :=
  ws.flatMap fun w =>
    match p.get w with
    | none => []
    | some power => motorWrites (m.get w) power

/-- The statuses the four-wheel loop records over a list of wheels when nothing fails. -/
def statusesOf (p : PerWheel (Option Int)) : List Wheel → PerWheel Status → PerWheel Status
  | [], wst => wst
  | w :: ws, wst => statusesOf p ws (wst.set w (if (p.get w).isSome then .ok else .err .invalidInput))

/-- SETPOWER4's loop when every transaction completes and there is an address or a numeric power. -/
theorem wheelLoop_complete (p : PerWheel (Option Int)) (ws : List Wheel) (wst : PerWheel Status) {s : State} {n : Nat}
    {a : Addr} (h : s.Ready n a (transactions (writesOf s.motors p ws)))
    (hany : s.ctl.addrValid = true ∨ ∃ w ∈ ws, (p.get w).isSome = true) :
    ∃ t, wheelLoop p ws wst s = .done (statusesOf p ws wst) t ∧
      Moved s t (probeEvents n a ++ completedEvents a (writesOf s.motors p ws))
        (n + transactions (writesOf s.motors p ws)) (s.ctl.withAddr a) := by
  induction ws generalizing s n wst with
  | nil =>
    obtain hv | ⟨w, hw, -⟩ := hany
    · obtain ⟨-, rfl, rfl⟩ | ⟨hv', -⟩ := h.1
      · exact ⟨s, rfl, by rw [withAddr_cached hv]; exact Moved.refl s⟩
      · simp [hv] at hv'
    · simp at hw
  | cons w ws ih =>
    cases hp : p.get w with
    | none =>
      have e : writesOf s.motors p (w :: ws) = writesOf s.motors p ws := by simp [writesOf, hp]
      rw [e] at h ⊢
      have hany' : s.ctl.addrValid = true ∨ ∃ w ∈ ws, (p.get w).isSome = true := by
        obtain hv | ⟨x, hx, hs⟩ := hany
        · exact .inl hv
        · right
          obtain rfl | hx := List.mem_cons.1 hx
          · simp [hp] at hs
          · exact ⟨x, hx, hs⟩
      obtain ⟨t, hr, m⟩ := ih (wst.set w (.err .invalidInput)) h hany'
      exact ⟨t, by rw [wheelLoop, hp]; simp [motorSetPower, statusesOf, hp, hr], m⟩
    | some q =>
      have e : writesOf s.motors p (w :: ws) = motorWrites (s.motors.get w) q ++ writesOf s.motors p ws := by
        simp [writesOf, hp]
      rw [e, transactions_append, transactions_motorWrites] at h ⊢
      obtain ⟨t, hr, m⟩ := discoverThen_complete (motorWrites (s.motors.get w) q) (s := s) (n := n) (a := a)
        ⟨h.1, fun k hk => h.2 k (by rw [transactions_motorWrites] at hk; omega)⟩
      rw [transactions_motorWrites] at m
      have hv : t.ctl.addrValid = true := by rw [m.ctl]; rfl
      have ha : t.ctl.addr = a := by rw [m.ctl]; rfl
      obtain ⟨u, hr2, m2⟩ := ih (s := t) (n := 0) (wst.set w .ok) ⟨.inl ⟨hv, rfl, ha.symm⟩, by
        rw [m.motors]
        exact m.completesFrom fun k hk => by
          have := h.2 (8 + k) (by omega)
          simpa [Nat.add_assoc] using this⟩ (.inl hv)
      refine ⟨u, ?_, ?_⟩
      · rw [wheelLoop, hp, motorSetPower_eq, hr]
        simp [statusesOf, hp, hr2]
      · have mm := m.trans m2
        rw [m.ctl, m.motors] at mm
        simp only [Nat.zero_add, probeEvents, List.nil_append] at mm
        rw [completedEvents_append, ← List.append_assoc, ← Nat.add_assoc]
        exact mm

/-- CLEANUP's first loop with an address cached. -/
theorem cleanupLoop_complete (chs : List (BitVec 4)) {s : State} (hv : s.ctl.addrValid = true)
    (hc : s.CompletesFrom 0 (4 * chs.length)) :
    ∃ t, cleanupLoop chs s = .done () t ∧
      Moved s t (completedEvents s.ctl.addr (chs.flatMap fun c => fullOffWrites c.toNat)) (4 * chs.length) s.ctl := by
  induction chs generalizing s with
  | nil => exact ⟨s, rfl, Moved.refl s⟩
  | cons c chs ih =>
    obtain ⟨t, h1, m1⟩ := setDuty_complete (channelLegal_channel c) 0 hv fun k hk => hc k (by simp; omega)
    obtain ⟨u, h2, m2⟩ := ih (s := t) (by rw [m1.ctl]; exact hv) (m1.completesFrom fun k hk => by
      have := hc (4 + k) (by simp; omega)
      simpa using this)
    have m := m1.trans m2
    rw [m1.ctl] at m
    exact ⟨u, by rw [cleanupLoop, h1]; exact h2, by
      simpa [completedEvents, dutyWrites_zero, Nat.mul_add, Nat.add_comm] using m⟩

/-- CLEANUP's second loop with an address cached. -/
theorem lowerLoop_complete (ws : List Wheel) {s : State} (hv : s.ctl.addrValid = true)
    (hc : s.CompletesFrom 0 (4 * ws.length)) :
    ∃ t, lowerLoop ws s = .done () t ∧
      Moved s t (completedEvents s.ctl.addr (ws.flatMap fun w => fullOffWrites (s.motors.get w).dir.toNat))
        (4 * ws.length) s.ctl := by
  induction ws generalizing s with
  | nil => exact ⟨s, rfl, Moved.refl s⟩
  | cons w ws ih =>
    obtain ⟨t, h1, m1⟩ := setDuty_complete (channelLegal_channel (s.motors.get w).dir) (levelDuty false) hv
      fun k hk => hc k (by simp; omega)
    obtain ⟨u, h2, m2⟩ := ih (s := t) (by rw [m1.ctl]; exact hv) (m1.completesFrom fun k hk => by
      have := hc (4 + k) (by simp; omega)
      simpa using this)
    have m := m1.trans m2
    rw [m1.ctl, m1.motors, dutyWrites_level] at m
    exact ⟨u, by rw [lowerLoop, setDig, h1]; exact h2, by
      simpa [completedEvents, levelWrites, Nat.mul_add, Nat.add_comm] using m⟩

/-- CLEANUP with an address cached. -/
theorem cleanupAll_complete {s : State} (hv : s.ctl.addrValid = true) (hc : s.CompletesFrom 0 80) :
    ∃ t, cleanupAll s = .done () t ∧ Moved s t (completedEvents s.ctl.addr (cleanupSteps s.motors)) 80 s.ctl := by
  obtain ⟨t, h1, m1⟩ := cleanupLoop_complete allChannels hv fun k hk => hc k (by simp [allChannels] at hk; omega)
  obtain ⟨u, h2, m2⟩ := lowerLoop_complete Wheel.order (s := t) (by rw [m1.ctl]; exact hv)
    (m1.completesFrom fun k hk => by
      have := hc (64 + k) (by simp [Wheel.order] at hk; omega)
      simpa [allChannels] using this)
  have m := m1.trans m2
  rw [m1.ctl, m1.motors] at m
  have e : cleanupSteps s.motors = (allChannels.flatMap fun c => fullOffWrites c.toNat) ++
      Wheel.order.flatMap fun w => fullOffWrites (s.motors.get w).dir.toNat := rfl
  rw [e, completedEvents_append]
  exact ⟨u, by rw [cleanupAll, h1]; exact h2, m⟩

/-- CLEANUP that has to discover the device first goes on as from the state where it is found. -/
theorem cleanupAll_found {s t : State} (h : ensureAddr s = .done () t) (hv : t.ctl.addrValid = true) :
    cleanupAll s = cleanupAll t := by
  have first : setDuty (0#4).toNat 0 s = setDuty (0#4).toNat 0 t := by
    rw [setDuty_eq (channelLegal_channel _), setDuty_eq (channelLegal_channel _), h, ensureAddr_cached hv]
  rw [cleanupAll, cleanupAll, show allChannels = 0#4 :: allChannels.tail from rfl, cleanupLoop, cleanupLoop, first]

end Sys2Proof.Machine
end

