-- ==== Sys2Proof/Laws/Step.lean ====
section
/-! SUPPORT. Every command as one operation and the response that ends it; everything one step can do; and the principle
by which a property that operations keep is kept by every step. -/

namespace Sys2Proof.Machine

/-! ## Commands as operations -/

/-- The operation behind a command; the command is it, ended with a response. -/
def operation : Instr → State → (α : Type) × OpResult α
  | .drive x y h, s => ⟨_, setPower4 (drivePowers x.value y.value h.value) s⟩
  | .setpower4 bl fl br fr, s =>
    ⟨_, setPower4 { backLeft := bl.value, frontLeft := fl.value, backRight := br.value, frontRight := fr.value } s⟩
  | .allstop, s => ⟨_, setPower4 (.all (some 0)) s⟩
  | .cleanup, s => ⟨_, cleanupAll s⟩
  | .msetpower w p, s => ⟨_, motorSetPower w p.value s⟩
  | .setduty ch duty, s => ⟨_, setDuty ch duty s⟩
  | .setdig ch high, s => ⟨_, setDig ch high s⟩
  | .init hz, s => ⟨_, initController hz s⟩

/-- The command may configure a frequency. -/
def configures : Instr → Prop
  | .init _ => True
  | _ => False

/-- A command ends stuck in its operation's state, or not stuck with one response added to it. -/
theorem exec_end {i : Instr} {s t : State} (h : exec i s = .next t) :
    ((operation i s).2.hangs = true ∧ t = (operation i s).2.state) ∨
    ((operation i s).2.hangs = false ∧ ∃ r, t = (operation i s).2.state.respond r) := by
  have fin : ∀ {α : Type} (mk : Status → Response) (r : OpResult α), finish mk r = t →
      (r.hangs = true ∧ t = r.state) ∨ (r.hangs = false ∧ ∃ x, t = r.state.respond x) := by
    rintro α mk (⟨v, u⟩ | ⟨e, u⟩ | u) rfl
    · exact .inr ⟨rfl, _, rfl⟩
    · exact .inr ⟨rfl, _, rfl⟩
    · exact .inl ⟨rfl, rfl⟩
  have finw : ∀ r : OpResult (PerWheel Status), finishWheels r = t →
      (r.hangs = true ∧ t = r.state) ∨ (r.hangs = false ∧ ∃ x, t = r.state.respond x) := by
    rintro (⟨v, u⟩ | ⟨e, u⟩ | u) rfl
    · exact .inr ⟨rfl, _, rfl⟩
    · exact .inr ⟨rfl, _, rfl⟩
    · exact .inl ⟨rfl, rfl⟩
  cases i <;>
    simp only [exec, execDrive, execSetpower4, execAllstop, execCleanup, execMsetpower, execSetduty, execSetdig, execInit,
      Host.Outcome.next.injEq] at h
  · exact finw _ h
  · exact finw _ h
  · exact finw _ h
  · exact fin _ _ h
  · exact fin _ _ h
  · exact fin _ _ h
  · exact fin _ _ h
  · exact fin _ _ h

/-- Every command answers a next state: none faults and none is refused. -/
theorem exec_next (i : Instr) (s : State) : ∃ t, exec i s = .next t := by cases i <;> exact ⟨_, rfl⟩

/-! ## The writes of R55 -/

theorem enc_bytes (duty : Int) :
    (enc duty).onL = 0x00 ∧ ((enc duty).onH = 0x00 ∨ (enc duty).onH = 0x10) ∧ (enc duty).offH.toNat ≤ 0x10 := by
  unfold enc
  split
  · decide
  · split
    · decide
    · next h =>
      simp only [config_dutyMax, Nat.cast_ofNat, not_le] at h
      refine ⟨rfl, .inl rfl, ?_⟩
      rw [BitVec.toNat_ofInt]
      omega

theorem legalWrite_of_block {ch : Int} (h : channelLegal ch = true) (duty : Int) {r : Reg} {v : Byte}
    (hm : BusStep.write r v ∈ blockSteps ch (enc duty)) : LegalWrite r v := by
  rw [blockSteps_eq h] at hm
  rw [channelLegal_iff] at h
  have hc : ch.toNat < 16 := by omega
  have he := enc_bytes duty
  simp only [dutyWrites, blockWrites, List.mem_cons, BusStep.write.injEq, List.not_mem_nil, or_false] at hm
  unfold LegalWrite
  obtain ⟨rfl, rfl⟩ | ⟨rfl, rfl⟩ | ⟨rfl, rfl⟩ | ⟨rfl, rfl⟩ := hm
  · exact .inr (.inr (.inr (.inl ⟨_, hc, rfl, he.1⟩)))
  · exact .inr (.inr (.inr (.inr (.inl ⟨_, hc, rfl, he.2.1⟩))))
  · exact .inr (.inr (.inr (.inr (.inr (.inl ⟨_, hc, rfl⟩)))))
  · exact .inr (.inr (.inr (.inr (.inr (.inr ⟨_, hc, rfl, he.2.2⟩)))))

theorem legalWrite_of_setup {hz : BitVec 16} (h : freqLegal hz = true) {r : Reg} {v : Byte}
    (hm : BusStep.write r v ∈ config.cfgSeq ++ config.freqSeq (BitVec.ofInt 8 (prescale hz.toNat))) :
    LegalWrite r v := by
  rw [freqLegal_iff] at h
  have hp : (BitVec.ofInt 8 (prescale hz.toNat)).toNat ≤ 253 := by
    have := prescale_le h.1 h.2
    rw [BitVec.toNat_ofInt]
    omega
  generalize BitVec.ofInt 8 (prescale hz.toNat) = p at *
  simp [config_cfgSeq, config_freqSeq] at hm
  unfold LegalWrite
  obtain ⟨rfl, rfl⟩ | ⟨rfl, rfl⟩ | ⟨rfl, rfl⟩ | ⟨rfl, rfl⟩ | ⟨rfl, rfl⟩ | ⟨rfl, rfl⟩ | ⟨rfl, rfl⟩ := hm <;> simp [*]

/-- INIT runs by moves whose writes have R55's shapes. -/
theorem initController_legal {s : State} (hs : s.stuck = false) (hz : BitVec 16) :
    Runs LegalWrite True s (initController hz s) :=
  initController_runs hs hz (fun h _ _ hm => legalWrite_of_setup h hm)
    (fun _ _ _ _ hm => legalWrite_of_block (channelLegal_channel _) _ hm)

/-- Every command runs by moves whose writes have R55's shapes. -/
theorem operation_legal (i : Instr) {s : State} (hs : s.stuck = false) :
    Runs LegalWrite (configures i) s (operation i s).2 := by
  have wheels : ∀ {p : PerWheel (Option Int)}, Runs LegalWrite False s (setPower4 p s) := fun {p} =>
    wheelLoop_runs p Wheel.order _ hs fun _ _ _ _ _ _ hm =>
      hm.elim (legalWrite_of_block (channelLegal_channel _) _) (legalWrite_of_block (channelLegal_channel _) _)
  cases i with
  | drive x y h => exact wheels
  | setpower4 bl fl br fr => exact wheels
  | allstop => exact wheels
  | cleanup => exact cleanupAll_runs hs fun _ _ _ hm => legalWrite_of_block (channelLegal_channel _) _ hm
  | msetpower w p =>
    exact motorSetPower_runs hs _ _ fun _ _ _ _ hm =>
      hm.elim (legalWrite_of_block (channelLegal_channel _) _) (legalWrite_of_block (channelLegal_channel _) _)
  | setduty ch duty => exact setDuty_runs hs _ _ fun hl _ _ hm => legalWrite_of_block hl _ hm
  | setdig ch high => exact setDuty_runs hs _ _ fun hl _ _ hm => legalWrite_of_block hl _ hm
  | init hz => exact initController_legal hs hz

/-- The same, forgetting which command it was. -/
theorem operation_moves (i : Instr) {s : State} (hs : s.stuck = false) :
    Moves LegalWrite True s (operation i s).2.state :=
  Relation.ReflTransGen.mono (p := Move LegalWrite True)
    (fun _ _ h => Move.mono (fun _ _ h => h) (fun _ => trivial) h) _ _ (operation_legal i hs).moves

/-! ## INIT and the frequency -/

/-- INIT leaves the recorded frequency alone, or records its own operand (R84). -/
theorem initController_freq {s : State} (hs : s.stuck = false) (hz : BitVec 16) :
    ((initController hz s).state.ctl.freqValid = s.ctl.freqValid ∧ (initController hz s).state.ctl.freq = s.ctl.freq) ∨
    ((initController hz s).state.ctl.freqValid = true ∧ (initController hz s).state.ctl.freq = hz) := by
  by_cases hl : freqLegal hz = true
  · rw [initController_eq hl]
    have d1 : ∀ ms, BusStep.delay ms ∈ config.cfgSeq ++ config.freqSeq (BitVec.ofInt 8 (prescale hz.toNat)) → ms = 5 := by
      intro ms; simp [config_cfgSeq, config_freqSeq]
    have d2 : ∀ ms, BusStep.delay ms ∈ (Wheel.order.flatMap fun w =>
        fullOffWrites (s.motors.get w).dir.toNat ++ fullOffWrites (s.motors.get w).pwm.toNat) → ms = 5 := by
      intro ms; simp [fullOffWrites, blockWrites]
    generalize config.cfgSeq ++ config.freqSeq (BitVec.ofInt 8 (prescale hz.toNat)) = es at *
    generalize (Wheel.order.flatMap fun w =>
      fullOffWrites (s.motors.get w).dir.toNat ++ fullOffWrites (s.motors.get w).pwm.toNat) = zs at *
    have h1 := (ensureAddr_runs (W := fun _ _ => True) (F := False) hs).1
    cases e1 : ensureAddr s with
    | raise e u => rw [e1] at h1; rw [OpResult.bind_raise]; exact .inl h1.moves.freq
    | hang u => rw [e1] at h1; rw [OpResult.bind_hang]; exact .inl h1.moves.freq
    | done v u =>
      rw [e1] at h1
      have ha := (ensureAddr_done e1).1
      have h2 := runSteps_runs (W := fun _ _ => True) (F := False) (s := u) es h1.stuck ha (fun _ _ _ => trivial) d1
      have f1 := h1.moves.freq
      rw [OpResult.bind_done]
      cases e2 : runSteps es u with
      | raise e w =>
        rw [e2] at h2
        have f2 := h2.moves.freq
        rw [OpResult.bind_raise]
        exact .inl ⟨f2.1.trans f1.1, f2.2.trans f1.2⟩
      | hang w =>
        rw [e2] at h2
        have f2 := h2.moves.freq
        rw [OpResult.bind_hang]
        exact .inl ⟨f2.1.trans f1.1, f2.2.trans f1.2⟩
      | done v w =>
        rw [e2] at h2
        rw [OpResult.bind_done]
        exact .inr (runSteps_runs (W := fun _ _ => True) (F := False) (s := w.setFreq hz) zs h2.stuck
          (h2.moves.addr ha).1 (fun _ _ _ => trivial) d2).moves.freq
  · rw [initController, if_neg hl]; simp

/-! ## One step -/

/-- What a construction can end in (R145 to R147). -/
theorem construct_cases (x : XCfg) (s : State) :
    (x.legal = false ∧ construct x s = (fresh (motorsOf XCfg.default) s).deadWith .rangeError) ∨
    (x.legal = true ∧ x.init = false ∧ construct x s = (fresh (motorsOf x) s).operational) ∨
    (x.legal = true ∧ x.init = true ∧
      ((∃ u t, initController x.hz (fresh (motorsOf x) s) = .done u t ∧ construct x s = t.operational) ∨
       (∃ e t, initController x.hz (fresh (motorsOf x) s) = .raise e t ∧ construct x s = t.deadWith e) ∨
       (∃ t, initController x.hz (fresh (motorsOf x) s) = .hang t ∧ construct x s = t))) := by
  unfold construct
  split
  · next hl =>
    split
    · next hi => cases h : initController x.hz (fresh (motorsOf x) s) <;> simp [hl, hi]
    · next hi => exact .inr (.inl ⟨hl, by simpa using hi, rfl⟩)
  · next hl => exact .inl ⟨by simpa using hl, rfl⟩

/-- Everything a step can do: nothing, a construction, a refusal of a word by Dead or IllegalCommand, or a command. -/
theorem step_cases {s t : State} (h : step s = .next t) :
    t = s ∨
    (s.stuck = false ∧ ∃ x rest, s.host = .construct x :: rest ∧ t = construct x (s.withHost rest)) ∨
    (s.stuck = false ∧ ∃ c rest, s.host = .command c :: rest ∧
      ((s.ctl.phase = .dead ∧ t = (s.withHost rest).respond (.single (.err .dead))) ∨
       (s.ctl.phase = .operational ∧
        ((∃ why, decode c = .illegal why ∧ t = (s.withHost rest).respond (.single (.err .illegalCommand))) ∨
         ∃ i, decode c = .legal i ∧ exec i (s.withHost rest) = .next t)))) := by
  unfold step serve at h
  split at h
  · cases h; exact .inl rfl
  · next hs =>
    have hs : s.stuck = false := by simpa using hs
    split at h
    · cases h; exact .inl rfl
    · next x rest hh => cases h; exact .inr (.inl ⟨hs, x, rest, hh, rfl⟩)
    · next c rest hh =>
      unfold dispatch at h
      split at h
      · cases h; exact .inl rfl
      · next hp => cases h; exact .inr (.inr ⟨hs, c, rest, hh, .inl ⟨hp, rfl⟩⟩)
      · next hp =>
        split at h
        · next why hd => cases h; exact .inr (.inr ⟨hs, c, rest, hh, .inr ⟨hp, .inl ⟨_, hd, rfl⟩⟩⟩)
        · next i hd => exact .inr (.inr ⟨hs, c, rest, hh, .inr ⟨hp, .inr ⟨i, hd, h⟩⟩⟩)

theorem step_construct {s : State} {x : XCfg} {rest : List HostRequest} (hs : s.stuck = false)
    (hh : s.host = .construct x :: rest) : step s = .next (construct x (s.withHost rest)) := by
  rw [step, serve, if_neg (by simp [hs]), hh]

theorem step_command {s : State} {c : CmdWord} {rest : List HostRequest} (hs : s.stuck = false)
    (hh : s.host = .command c :: rest) : step s = dispatch exec c s (s.withHost rest) := by
  rw [step, serve, if_neg (by simp [hs]), hh]

/-- A property is kept by every step if a construction starts with it, every move and every change of the phase and of
the construction result keeps it, and it does not look at the responses or the environment. -/
theorem step_keeps {P : State → Prop}
    (same : ∀ s t : State, t.motors = s.motors → t.ctl = s.ctl → t.trace = s.trace → t.dev = s.dev → t.stuck = s.stuck →
      t.construction = s.construction → P s → P t)
    (start : ∀ x s, x.legal = true → P (fresh (motorsOf x) s))
    (moves : ∀ s t, s.stuck = false → Moves LegalWrite True s t → P s → P t)
    (phase : ∀ s p, P s → P (s.setPhase p))
    (report : ∀ s r, P s → P (s.reportConstruction r))
    {s t : State} (hP : P s) (h : step s = .next t) : P t := by
  have host : ∀ rest, P (s.withHost rest) := fun rest => same s (s.withHost rest) rfl rfl rfl rfl rfl rfl hP
  have respond : ∀ (u : State) r, P u → P (u.respond r) := fun u r => same u (u.respond r) rfl rfl rfl rfl rfl rfl
  obtain rfl | ⟨-, x, rest, -, rfl⟩ | ⟨hs, c, rest, -, ⟨-, rfl⟩ | ⟨-, ⟨_, -, rfl⟩ | ⟨i, -, he⟩⟩⟩ := step_cases h
  · exact hP
  · have init := initController_legal (s := fresh (motorsOf x) (s.withHost rest)) rfl x.hz
    obtain ⟨-, e⟩ | ⟨hl, -, e⟩ | ⟨hl, -, ⟨u, t, e1, e⟩ | ⟨u, t, e1, e⟩ | ⟨t, e1, e⟩⟩ := construct_cases x (s.withHost rest)
    · rw [e]; exact report _ _ (phase _ _ (start _ _ (by decide)))
    · rw [e]; exact report _ _ (phase _ _ (start _ _ hl))
    · rw [e]; rw [e1] at init; exact report _ _ (phase _ _ (moves _ _ rfl init.moves (start _ _ hl)))
    · rw [e]; rw [e1] at init; exact report _ _ (phase _ _ (moves _ _ rfl init.moves (start _ _ hl)))
    · rw [e]; rw [e1] at init; exact moves _ _ rfl init.moves (start _ _ hl)
  · exact respond _ _ (host _)
  · exact respond _ _ (host _)
  · have hm := operation_moves i (s := s.withHost rest) hs
    obtain ⟨-, rfl⟩ | ⟨-, r, rfl⟩ := exec_end he
    · exact moves (s.withHost rest) _ hs hm (host _)
    · exact respond _ _ (moves (s.withHost rest) _ hs hm (host _))

/-- One step of a run. -/
theorem run_succ {s t : State} (h : step s = .next t) (n : Nat) :
    Host.Core.run core (n + 1) s = Host.Core.run core n t := by
  have gen : ∀ (M : Host.Core) (s t : M.State), M.step s = .next t → M.run (n + 1) s = M.run n t := by
    intro M s t h
    simp [Host.Core.run, h]
  exact gen core s t h

end Sys2Proof.Machine
end

