-- ==== Sys2Proof/Laws/Transactions.lean ====
section
/-! SUPPORT. How many transactions an operation can issue, whatever the bus does (R161). Discovery is paid for once: an
operation that leaves no address cached has written nothing. -/

namespace Sys2Proof.Machine

/-- The four transactions kept in hand for the first block after discovery. -/
def pendingBlock (s : State) : Nat := if s.ctl.addrValid then 0 else 4

/-- The operation issues at most `n` transactions, counting what discovery still allows before and after. -/
def Issues (n : Nat) {α : Type} (s : State) (r : OpResult α) : Prop :=
  r.state.issued + pendingBlock r.state ≤ s.issued + pendingBlock s + n

theorem Issues.le {n m : Nat} {α : Type} {s : State} {r : OpResult α} (h : Issues n s r) (hm : n + 4 ≤ m) :
    r.state.issued ≤ s.issued + m := by
  unfold Issues pendingBlock at h
  split at h <;> split at h <;> omega

theorem Issues.bind {n m : Nat} {α β : Type} {s : State} {r : OpResult α} {f : α → State → OpResult β}
    (h : Issues n s r) (hf : ∀ v t, Issues m t (f v t)) : Issues (n + m) s (r.bind f) := by
  unfold Issues at *
  cases r with
  | done v t => have := hf v t; simp only [OpResult.bind_done, OpResult.state_done] at *; omega
  | raise e t => simp only [OpResult.bind_raise, OpResult.state_raise] at *; omega
  | hang t => simp only [OpResult.bind_hang, OpResult.state_hang] at *; omega

theorem Issues.settle {n m : Nat} {α β : Type} {s : State} {r : OpResult α} {f : Status → State → OpResult β}
    (h : Issues n s r) (hf : ∀ st t, Issues m t (f st t)) : Issues (n + m) s (r.settle f) := by
  unfold Issues at *
  cases r with
  | done v t => have := hf .ok t; simp only [OpResult.settle, OpResult.state_done] at *; omega
  | raise e t => have := hf (.err e) t; simp only [OpResult.settle, OpResult.state_raise] at *; omega
  | hang t => simp only [OpResult.settle, OpResult.state_hang] at *; omega

/-- An event list issues at most its writes, and keeps the controller state. -/
theorem runSteps_issues (es : List BusStep) (s : State) :
    (runSteps es s).state.issued ≤ s.issued + transactions es ∧ (runSteps es s).state.ctl = s.ctl := by
  induction es generalizing s with
  | nil => exact ⟨Nat.le_refl _, rfl⟩
  | cons x es ih =>
    cases x with
    | delay ms =>
      have := ih (s.logEvent (.delay ms))
      simpa [runSteps, runStep, delay, transactions] using this
    | write r v =>
      simp only [runSteps, runStep, memWrite, transactions]
      cases s.outcome 0 with
      | complete b =>
        have := ih (s.advance.logEvent (.write s.ctl.addr r v .completed))
        simp at this ⊢
        exact ⟨by omega, this.2⟩
      | fail => simp; try omega
      | never => simp; try omega

theorem discover_issues (cs : List Addr) (s : State) :
    (discover cs s).state.issued ≤ s.issued + cs.length ∧ (discover cs s).state.ctl = s.ctl := by
  induction cs generalizing s with
  | nil => simp [discover]
  | cons c cs ih =>
    simp only [discover, memReadAt]
    cases s.outcome 0 with
    | fail =>
      have := ih (s.advance.logEvent (.read c config.probeReg .failed))
      simp at this ⊢
      exact ⟨by omega, this.2⟩
    | complete v => simp; try omega
    | never => simp; try omega

/-- ENSUREADDR issues at most eight probes; it completes only with an address cached, and costs nothing when one was. -/
theorem ensureAddr_issues (s : State) :
    (ensureAddr s).state.issued ≤ s.issued + 8 ∧
    (s.ctl.addrValid = true → (ensureAddr s) = .done () s) ∧
    (∀ u t, ensureAddr s = .done u t → t.ctl.addrValid = true) ∧
    (∀ e t, ensureAddr s = .raise e t → t.ctl = s.ctl) ∧ (∀ t, ensureAddr s = .hang t → t.ctl = s.ctl) := by
  unfold ensureAddr
  split
  · next hv => exact ⟨by simp, by simp, fun u t h => by cases h; exact hv, by simp, by simp⟩
  · next hv =>
    have h := discover_issues config.candidates s
    have h8 : config.candidates.length = 8 := rfl
    cases hd : discover config.candidates s <;> rw [hd] at h <;> simp at h <;> simp [hv, h.2]
    all_goals omega

/-- The four writes of a block after ENSUREADDR. -/
theorem setDuty_issues (ch duty : Int) (s : State) : Issues 8 s (setDuty ch duty s) := by
  unfold Issues pendingBlock
  unfold setDuty
  split
  · obtain ⟨h1, h2, h3, h4, h5⟩ := ensureAddr_issues s
    cases he : ensureAddr s with
    | done u t =>
      have hr := runSteps_issues (blockSteps ch (enc duty)) t
      have h4 : transactions (blockSteps ch (enc duty)) = 4 := rfl
      have hv := h3 u t he
      rw [h4] at hr
      rw [he, OpResult.state_done] at h1
      simp only [OpResult.bind_done, hr.2, hv, if_true]
      by_cases hs : s.ctl.addrValid = true
      · rw [h2 hs] at he
        cases he
        simp [hs]; omega
      · simp [hs]; omega
    | raise e t =>
      rw [he, OpResult.state_raise] at h1
      simp only [OpResult.bind_raise, OpResult.state_raise, h4 e t he]
      omega
    | hang t =>
      rw [he, OpResult.state_hang] at h1
      simp only [OpResult.bind_hang, OpResult.state_hang, h5 t he]
      omega
  · rw [OpResult.state_raise]; omega

theorem motorSetPower_issues (w : Wheel) (power : Option Int) (s : State) : Issues 16 s (motorSetPower w power s) := by
  cases power with
  | none => simp [Issues, motorSetPower]
  | some p => exact (setDuty_issues _ _ s).bind fun _ t => setDuty_issues _ _ t

theorem wheelLoop_issues (p : PerWheel (Option Int)) (ws : List Wheel) (wst : PerWheel Status) (s : State) :
    Issues (16 * ws.length) s (wheelLoop p ws wst s) := by
  induction ws generalizing wst s with
  | nil => simp [Issues, wheelLoop]
  | cons w ws ih =>
    have := (motorSetPower_issues w (p.get w) s).settle fun st t => ih (wst.set w st) t
    rw [wheelLoop, List.length_cons, Nat.mul_succ, Nat.add_comm]
    exact this

theorem cleanupLoop_issues (chs : List (BitVec 4)) (s : State) : Issues (8 * chs.length) s (cleanupLoop chs s) := by
  induction chs generalizing s with
  | nil => simp [Issues, cleanupLoop]
  | cons ch chs ih =>
    have := (setDuty_issues (ch.toNat : Int) 0 s).settle fun _ t => ih t
    rw [cleanupLoop, List.length_cons, Nat.mul_succ, Nat.add_comm]
    exact this

theorem lowerLoop_issues (ws : List Wheel) (s : State) : Issues (8 * ws.length) s (lowerLoop ws s) := by
  induction ws generalizing s with
  | nil => simp [Issues, lowerLoop]
  | cons w ws ih =>
    have := (setDuty_issues ((s.motors.get w).dir.toNat : Int) (levelDuty false) s).settle fun _ t => ih t
    rw [lowerLoop, List.length_cons, Nat.mul_succ, Nat.add_comm]
    exact this

theorem cleanupAll_issues (s : State) : Issues 160 s (cleanupAll s) :=
  (cleanupLoop_issues allChannels s).bind fun _ t => lowerLoop_issues Wheel.order t

/-- INIT: at most 8 probes and 39 writes. -/
theorem initController_issues (hz : BitVec 16) (s : State) : (initController hz s).state.issued ≤ s.issued + 47 := by
  by_cases hl : freqLegal hz = true
  · rw [initController_eq hl]
    have h1 := (ensureAddr_issues s).1
    cases he : ensureAddr s with
    | raise x u => rw [he, OpResult.state_raise] at h1; rw [OpResult.bind_raise, OpResult.state_raise]; omega
    | hang u => rw [he, OpResult.state_hang] at h1; rw [OpResult.bind_hang, OpResult.state_hang]; omega
    | done v u =>
      rw [he, OpResult.state_done] at h1
      rw [OpResult.bind_done]
      have h2 := (runSteps_issues (config.cfgSeq ++ config.freqSeq (BitVec.ofInt 8 (prescale hz.toNat))) u).1
      have h7 : transactions (config.cfgSeq ++ config.freqSeq (BitVec.ofInt 8 (prescale hz.toNat))) = 7 := rfl
      rw [h7] at h2
      cases he2 : runSteps (config.cfgSeq ++ config.freqSeq (BitVec.ofInt 8 (prescale hz.toNat))) u with
      | raise x u' => rw [he2, OpResult.state_raise] at h2; rw [OpResult.bind_raise, OpResult.state_raise]; omega
      | hang u' => rw [he2, OpResult.state_hang] at h2; rw [OpResult.bind_hang, OpResult.state_hang]; omega
      | done v' u' =>
        rw [he2, OpResult.state_done] at h2
        rw [OpResult.bind_done]
        have h3 := (runSteps_issues (Wheel.order.flatMap fun w =>
          fullOffWrites (s.motors.get w).dir.toNat ++ fullOffWrites (s.motors.get w).pwm.toNat) (u'.setFreq hz)).1
        have h32 : transactions (Wheel.order.flatMap fun w =>
          fullOffWrites (s.motors.get w).dir.toNat ++ fullOffWrites (s.motors.get w).pwm.toNat) = 32 := rfl
        rw [h32, State.setFreq_issued] at h3
        omega
  · rw [initController, if_neg hl]; simp

/-- No command issues more than 164 transactions: CLEANUP's twenty blocks, nineteen of them with eight failed probes
each and the last with a device found by the eighth. -/
theorem operation_issues (i : Instr) (s : State) : (operation i s).2.state.issued ≤ s.issued + 164 := by
  cases i with
  | drive x y h => exact (wheelLoop_issues _ Wheel.order _ s).le (by decide)
  | setpower4 bl fl br fr => exact (wheelLoop_issues _ Wheel.order _ s).le (by decide)
  | allstop => exact (wheelLoop_issues _ Wheel.order _ s).le (by decide)
  | cleanup => exact (cleanupAll_issues s).le (by decide)
  | msetpower w p => exact (motorSetPower_issues w _ s).le (by decide)
  | setduty ch duty => exact (setDuty_issues ch duty s).le (by decide)
  | setdig ch high => exact (setDuty_issues ch _ s).le (by decide)
  | init hz => have := initController_issues hz s; exact Nat.le_trans this (by omega)

end Sys2Proof.Machine
end

