-- ==== Sys2Proof/Laws/History.lean ====
section
/-! SUPPORT. What an operation does depends on the motor file, the cached address if there is one, and the coming outcomes
alone (R18, R22, R133): two states that agree on these run alike. One lemma per shared operation. -/

namespace Sys2Proof.Machine

/-- The two states agree on all that an operation looks at. -/
structure Agree (s s' : State) : Prop where
  motors  : s.motors = s'.motors
  valid   : s.ctl.addrValid = s'.ctl.addrValid
  addr    : s.ctl.addrValid = true → s.ctl.addr = s'.ctl.addr
  outcome : ∀ k, s.outcome k = s'.outcome k

/-- The two results end the same way. -/
def SameEnd {α : Type} : OpResult α → OpResult α → Prop
  | .done v _, .done v' _ => v = v'
  | .raise e _, .raise e' _ => e = e'
  | .hang _, .hang _ => True
  | _, _ => False

/-- From two states, the two results end the same way, add the same events, give no response, and agree again. -/
structure Alike {α : Type} (s s' : State) (r r' : OpResult α) : Prop where
  agree      : Agree r.state r'.state
  events     : ∃ evs, r.state.trace = s.trace ++ evs ∧ r'.state.trace = s'.trace ++ evs
  responses  : r.state.responses = s.responses
  responses' : r'.state.responses = s'.responses
  ends       : SameEnd r r'

variable {α β : Type} {s s' t t' : State}

/-- What follows an operation that ended in `r`, `r'`. -/
theorem Alike.then {r r' : OpResult α} {q q' : OpResult β} (h : Alike s s' r r')
    (hq : Alike r.state r'.state q q') : Alike s s' q q' := by
  obtain ⟨evs, h1, h2⟩ := h.events
  obtain ⟨evs', h3, h4⟩ := hq.events
  exact ⟨hq.agree, ⟨evs ++ evs', by rw [h3, h1, List.append_assoc], by rw [h4, h2, List.append_assoc]⟩,
    hq.responses.trans h.responses, hq.responses'.trans h.responses', hq.ends⟩

theorem Alike.bind {r r' : OpResult α} {f : α → State → OpResult β} (h : Alike s s' r r')
    (hf : ∀ v t t', r = .done v t → Agree t t' → Alike t t' (f v t) (f v t')) : Alike s s' (r.bind f) (r'.bind f) := by
  have he := h.ends
  cases r <;> cases r' <;> try exact he.elim
  case done.done v t v' t' =>
    obtain rfl : v = v' := he
    exact h.then (hf v t t' rfl h.agree)
  case raise.raise => exact ⟨h.agree, h.events, h.responses, h.responses', he⟩
  case hang.hang => exact ⟨h.agree, h.events, h.responses, h.responses', trivial⟩

theorem Alike.settle {r r' : OpResult α} {f : Status → State → OpResult β} (h : Alike s s' r r')
    (hf : ∀ st t t', Agree t t' → Alike t t' (f st t) (f st t')) : Alike s s' (r.settle f) (r'.settle f) := by
  have he := h.ends
  cases r <;> cases r' <;> try exact he.elim
  case done.done v t v' t' => exact h.then (hf .ok t t' h.agree)
  case raise.raise e t e' t' =>
    obtain rfl : e = e' := he
    exact h.then (hf (.err e) t t' h.agree)
  case hang.hang => exact ⟨h.agree, h.events, h.responses, h.responses', trivial⟩

theorem alike_done (h : Agree s s') (v : α) : Alike s s' (.done v s) (.done v s') :=
  ⟨h, ⟨[], by simp⟩, rfl, rfl, rfl⟩

theorem alike_raise (h : Agree s s') (e : ErrKind) : Alike s s' (.raise e s : OpResult α) (.raise e s') :=
  ⟨h, ⟨[], by simp⟩, rfl, rfl, rfl⟩

/-- One transaction, whatever its outcome. -/
theorem Agree.logged (h : Agree s s') (e : Event) : Agree (s.advance.logEvent e) (s'.advance.logEvent e) :=
  ⟨h.motors, h.valid, h.addr, fun k => by simpa using h.outcome _⟩

theorem memWrite_alike (h : Agree s s') (hv : s.ctl.addrValid = true) (r : Reg) (v : Byte) :
    Alike s s' (memWrite r v s) (memWrite r v s') := by
  unfold memWrite
  rw [← h.outcome 0, ← h.addr hv]
  cases s.outcome 0 with
  | complete b => exact ⟨h.logged _, ⟨[_], rfl, rfl⟩, rfl, rfl, rfl⟩
  | fail => exact ⟨h.logged _, ⟨[_], rfl, rfl⟩, rfl, rfl, rfl⟩
  | never =>
    have hl := h.logged (.write s.ctl.addr r v .pending)
    exact ⟨⟨hl.motors, hl.valid, hl.addr, hl.outcome⟩, ⟨[_], rfl, rfl⟩, rfl, rfl, trivial⟩

theorem runSteps_alike (es : List BusStep) (h : Agree s s') (hv : s.ctl.addrValid = true) :
    Alike s s' (runSteps es s) (runSteps es s') := by
  induction es generalizing s s' with
  | nil => exact alike_done h ()
  | cons e es ih =>
    cases e with
    | write r v =>
      refine (memWrite_alike h hv r v).bind fun u t t' ht ha => ih ha ?_
      rw [memWrite_done_ctl ht]
      exact hv
    | delay ms =>
      have h1 : Alike s s' (delay ms s) (delay ms s') :=
        ⟨⟨h.motors, h.valid, h.addr, h.outcome⟩, ⟨[_], rfl, rfl⟩, rfl, rfl, rfl⟩
      refine h1.bind fun u t t' ht ha => ih ha ?_
      simp only [delay, OpResult.done.injEq, true_and] at ht
      simpa [← ht] using hv

theorem discover_alike (cs : List Addr) (h : Agree s s') : Alike s s' (discover cs s) (discover cs s') := by
  induction cs generalizing s s' with
  | nil => exact alike_raise h _
  | cons c cs ih =>
    simp only [discover, memReadAt, ← h.outcome 0]
    cases s.outcome 0 with
    | complete b => exact ⟨h.logged _, ⟨[_], rfl, rfl⟩, rfl, rfl, rfl⟩
    | fail =>
      have h1 : Alike s s' (.raise .busError (s.advance.logEvent (.read c config.probeReg .failed)) : OpResult Addr)
          (.raise .busError (s'.advance.logEvent (.read c config.probeReg .failed))) :=
        ⟨h.logged _, ⟨[_], rfl, rfl⟩, rfl, rfl, rfl⟩
      exact h1.then (ih h1.agree)
    | never =>
      have hl := h.logged (.read c config.probeReg .pending)
      exact ⟨⟨hl.motors, hl.valid, hl.addr, hl.outcome⟩, ⟨[_], rfl, rfl⟩, rfl, rfl, trivial⟩

theorem ensureAddr_alike (h : Agree s s') : Alike s s' (ensureAddr s) (ensureAddr s') := by
  unfold ensureAddr
  rw [← h.valid]
  split
  · exact alike_done h ()
  · exact (discover_alike _ h).bind fun a t t' _ ha =>
      ⟨⟨ha.motors, rfl, fun _ => rfl, ha.outcome⟩, ⟨[], by simp⟩, rfl, rfl, rfl⟩

theorem setDuty_alike (ch duty : Int) (h : Agree s s') : Alike s s' (setDuty ch duty s) (setDuty ch duty s') := by
  unfold setDuty
  split
  · exact (ensureAddr_alike h).bind fun u t t' ht ha => runSteps_alike _ ha ((ensureAddr_issues s).2.2.1 u t ht)
  · exact alike_raise h _

theorem motorSetPower_alike (w : Wheel) (p : Option Int) (h : Agree s s') :
    Alike s s' (motorSetPower w p s) (motorSetPower w p s') := by
  cases p with
  | none => exact alike_raise h _
  | some p =>
    simp only [motorSetPower, ← h.motors]
    exact (setDuty_alike _ _ h).bind fun _ _ _ _ => setDuty_alike _ _

theorem wheelLoop_alike (p : PerWheel (Option Int)) (ws : List Wheel) (wst : PerWheel Status) (h : Agree s s') :
    Alike s s' (wheelLoop p ws wst s) (wheelLoop p ws wst s') := by
  induction ws generalizing wst s s' with
  | nil => exact alike_done h _
  | cons w ws ih => exact (motorSetPower_alike _ _ h).settle fun _ _ _ => ih _

theorem cleanupLoop_alike (chs : List (BitVec 4)) (h : Agree s s') : Alike s s' (cleanupLoop chs s) (cleanupLoop chs s') := by
  induction chs generalizing s s' with
  | nil => exact alike_done h ()
  | cons ch chs ih => exact (setDuty_alike _ _ h).settle fun _ _ _ => ih

theorem lowerLoop_alike (ws : List Wheel) (h : Agree s s') : Alike s s' (lowerLoop ws s) (lowerLoop ws s') := by
  induction ws generalizing s s' with
  | nil => exact alike_done h ()
  | cons w ws ih =>
    rw [lowerLoop, lowerLoop, ← h.motors]
    exact (setDuty_alike _ _ h).settle fun _ _ _ => ih

theorem zeroChannels_alike (chs : List (BitVec 4)) (h : Agree s s') :
    Alike s s' (zeroChannels chs s) (zeroChannels chs s') := by
  induction chs generalizing s s' with
  | nil => exact alike_done h ()
  | cons ch chs ih => exact (setDuty_alike _ _ h).bind fun _ _ _ _ => ih

theorem setFreq_alike (hz : BitVec 16) (h : Agree s s') (hv : s.ctl.addrValid = true) :
    Alike s s' (setFreq hz s) (setFreq hz s') := by
  unfold setFreq
  split
  · exact (runSteps_alike _ h hv).bind fun _ t t' _ ha =>
      ⟨⟨ha.motors, ha.valid, ha.addr, ha.outcome⟩, ⟨[], by simp⟩, rfl, rfl, rfl⟩
  · exact alike_raise h _

theorem initController_alike (hz : BitVec 16) (h : Agree s s') :
    Alike s s' (initController hz s) (initController hz s') := by
  unfold initController
  split
  · refine (ensureAddr_alike h).bind fun u1 s1 s1' h1 a1 => ?_
    have v1 := (ensureAddr_issues s).2.2.1 u1 s1 h1
    refine (runSteps_alike _ a1 v1).bind fun u2 s2 s2' h2 a2 => ?_
    have v2 : s2.ctl.addrValid = true := by
      have hc := (runSteps_issues config.cfgSeq s1).2
      rw [show runSteps config.cfgSeq s1 = _ from h2, OpResult.state_done] at hc
      rw [hc]
      exact v1
    refine (setFreq_alike hz a2 v2).bind fun u3 s3 s3' _ a3 => ?_
    rw [a3.motors]
    exact zeroChannels_alike _ a3
  · exact alike_raise h _

end Sys2Proof.Machine
end

