-- ==== Sys2Proof/Laws/Word.lean ====
section
/-! SUPPORT. Packing and unpacking a command word (R50), and each operand form's slot read back (R51). -/

namespace Sys2Proof

section Packing

variable (op : BitVec 4) (a b c d : Slot)

@[simp] theorem opcodeOf_packWord : opcodeOf (packWord op a b c d) = op := by
  apply BitVec.eq_of_getLsbD_eq
  intro i hi
  simp only [opcodeOf, packWord, BitVec.getLsbD_extractLsb', BitVec.getLsbD_append]
  simp [hi, show ¬ 68 + i < 17 by omega, show ¬ 68 + i - 17 < 17 by omega, show ¬ 68 + i - 17 - 17 < 17 by omega,
    show ¬ 68 + i - 17 - 17 - 17 < 17 by omega, show 68 + i - 17 - 17 - 17 - 17 = i by omega]

@[simp] theorem slotA_packWord : slotA (packWord op a b c d) = a := by
  apply BitVec.eq_of_getLsbD_eq
  intro i hi
  simp only [slotA, packWord, BitVec.getLsbD_extractLsb', BitVec.getLsbD_append]
  simp [hi, show ¬ 51 + i < 17 by omega, show ¬ 51 + i - 17 < 17 by omega, show ¬ 51 + i - 17 - 17 < 17 by omega,
    show 51 + i - 17 - 17 - 17 = i by omega]

@[simp] theorem slotB_packWord : slotB (packWord op a b c d) = b := by
  apply BitVec.eq_of_getLsbD_eq
  intro i hi
  simp only [slotB, packWord, BitVec.getLsbD_extractLsb', BitVec.getLsbD_append]
  simp [hi, show ¬ 34 + i < 17 by omega, show ¬ 34 + i - 17 < 17 by omega, show 34 + i - 17 - 17 = i by omega]

@[simp] theorem slotC_packWord : slotC (packWord op a b c d) = c := by
  apply BitVec.eq_of_getLsbD_eq
  intro i hi
  simp only [slotC, packWord, BitVec.getLsbD_extractLsb', BitVec.getLsbD_append]
  simp [hi, show ¬ 17 + i < 17 by omega, show 17 + i - 17 = i by omega]

@[simp] theorem slotD_packWord : slotD (packWord op a b c d) = d := by
  apply BitVec.eq_of_getLsbD_eq
  intro i hi
  simp only [slotD, packWord, BitVec.getLsbD_extractLsb', BitVec.getLsbD_append]
  simp [hi]

/-- Masking a word field by field. -/
theorem packWord_and (mop : BitVec 4) (ma mb mc md : Slot) :
    packWord op a b c d &&& packWord mop ma mb mc md =
      packWord (op &&& mop) (a &&& ma) (b &&& mb) (c &&& mc) (d &&& md) := by
  apply BitVec.eq_of_getLsbD_eq
  intro i hi
  simp only [packWord, BitVec.getLsbD_and, BitVec.getLsbD_append]
  split
  · rfl
  · split
    · rfl
    · split
      · rfl
      · split <;> rfl

theorem packWord_inj (op' : BitVec 4) (a' b' c' d' : Slot) :
    packWord op a b c d = packWord op' a' b' c' d' ↔ op = op' ∧ a = a' ∧ b = b' ∧ c = c' ∧ d = d' := by
  constructor
  · intro h
    exact ⟨by simpa using congrArg opcodeOf h, by simpa using congrArg slotA h, by simpa using congrArg slotB h,
      by simpa using congrArg slotC h, by simpa using congrArg slotD h⟩
  · rintro ⟨rfl, rfl, rfl, rfl, rfl⟩; rfl

end Packing

/-- Every word is the packing of its own fields. -/
theorem packWord_fields (w : CmdWord) : packWord (opcodeOf w) (slotA w) (slotB w) (slotC w) (slotD w) = w := by
  apply BitVec.eq_of_getLsbD_eq
  intro i hi
  simp only [packWord, opcodeOf, slotA, slotB, slotC, slotD, BitVec.getLsbD_append, BitVec.getLsbD_extractLsb']
  split
  · simp [*]
  · split
    · simp [*, show 17 + (i - 17) = i by omega]
    · split
      · simp [*, show 34 + (i - 17 - 17) = i by omega]
      · split
        · simp [*, show 51 + (i - 17 - 17 - 17) = i by omega]
        · simp [show 68 + (i - 17 - 17 - 17 - 17) = i by omega, show i - 17 - 17 - 17 - 17 < 4 by omega]

/-! ## Operand forms -/

theorem Percent.getLsbD_slot (p : Percent) (i : Nat) :
    p.slot.getLsbD i = if i < 16 then p.val.getLsbD i else (BitVec.ofBool p.num).getLsbD (i - 16) :=
  BitVec.getLsbD_append

@[simp] theorem percentOfSlot_slot (p : Percent) : percentOfSlot p.slot = p := by
  obtain ⟨num, val⟩ := p
  simp only [percentOfSlot, Percent.mk.injEq]
  constructor
  · simp only [Percent.getLsbD_slot]
    cases num <;> simp
  · apply BitVec.eq_of_getLsbD_eq
    intro i hi
    simp only [BitVec.getLsbD_extractLsb', Percent.getLsbD_slot, Nat.zero_add, hi, decide_true, Bool.true_and, if_true]

theorem slot_percentOfSlot (a : Slot) : (percentOfSlot a).slot = a := by
  apply BitVec.eq_of_getLsbD_eq
  intro i hi
  simp only [Percent.getLsbD_slot, percentOfSlot, BitVec.getLsbD_extractLsb']
  split
  · simp [*]
  · simp [show i = 16 by omega]

@[simp] theorem wheelOfSlot_slot (w : Wheel) : wheelOfSlot w.slot = some w := by cases w <;> decide

@[simp] theorem levelOfSlot_slot (g : Bool) : levelOfSlot (levelSlot g) = some g := by cases g <;> decide

@[simp] theorem freqOfSlot_slot (hz : BitVec 16) : freqOfSlot (freqSlot hz) = some hz := by
  have h : (freqSlot hz).extractLsb' 0 16 = hz := by
    apply BitVec.eq_of_getLsbD_eq
    intro i hi
    simp [freqSlot, hi, show i < 17 by omega]
  simp [freqOfSlot, freqSlot] at *
  exact h

theorem channelOfSlot_slot {ch : Int} (h : channelInRange ch = true) : channelOfSlot (channelSlot ch) = some ch := by
  have all : ∀ n : Fin 16, channelOfSlot (channelSlot (n.val : Int)) = some (n.val : Int) := by decide
  simp only [channelInRange, Bool.and_eq_true, decide_eq_true_eq] at h
  have := all ⟨ch.toNat, by omega⟩
  simpa [Int.toNat_of_nonneg h.1] using this

theorem setWidth_low16 (v : BitVec 16) : (v.setWidth 17).extractLsb' 0 16 = v := by
  apply BitVec.eq_of_getLsbD_eq
  intro i hi
  simp [hi, show i < 17 by omega]

theorem dutyOfSlot_slot {duty : Int} (h : dutyInRange duty = true) : dutyOfSlot (dutySlot duty) = some duty := by
  simp only [dutyInRange, Bool.and_eq_true, decide_eq_true_eq] at h
  have hb : (dutySlot duty).getLsbD 16 = false := by simp [dutySlot]
  have hv : (BitVec.ofInt 16 duty).toInt = duty := by
    rw [BitVec.toInt_ofInt, Int.bmod]
    omega
  rw [dutyOfSlot, if_pos hb, dutySlot, setWidth_low16, hv]

/-! ## Decoding a packed word, and the slot of what a slot decodes to -/

/-- The decoder reads a packed word's fields. -/
theorem decode_packWord (op : BitVec 4) (a b c d : Slot) :
    decode (packWord op a b c d) =
      match decodeFields op a b c d with
      | some (some i) => .legal i
      | some none => .illegal (.reservedBits op)
      | none => .illegal (.reservedOpcode op) := by
  rw [decode, opcodeOf_packWord, slotA_packWord, slotB_packWord, slotC_packWord, slotD_packWord]
  all_goals rfl

/-! A slot whose upper bits are 0 is its own lower bits. -/

theorem low1_of_slot {a : Slot} (h : a.extractLsb' 1 16 = 0) : (a.extractLsb' 0 1).setWidth 17 = a := by
  simp [← BitVec.toNat_inj, Nat.shiftRight_eq_div_pow] at h ⊢; omega

theorem low2_of_slot {a : Slot} (h : a.extractLsb' 2 15 = 0) : (a.extractLsb' 0 2).setWidth 17 = a := by
  simp [← BitVec.toNat_inj, Nat.shiftRight_eq_div_pow] at h ⊢; omega

theorem low4_of_slot {a : Slot} (h : a.extractLsb' 4 13 = 0) : (a.extractLsb' 0 4).setWidth 17 = a := by
  simp [← BitVec.toNat_inj, Nat.shiftRight_eq_div_pow] at h ⊢; omega

theorem low16_of_slot {a : Slot} (h : a.getLsbD 16 = false) : (a.extractLsb' 0 16).setWidth 17 = a := by
  rw [BitVec.getLsbD, Nat.testBit_eq_decide_div_mod_eq] at h
  simp [← BitVec.toNat_inj] at h ⊢; omega

theorem slot_of_wheelOfSlot {a : Slot} {w : Wheel} (h : wheelOfSlot a = some w) : w.slot = a := by
  have all : ∀ (v : BitVec 2) (w : Wheel), wheelOfSlot (v.setWidth 17) = some w → w.slot = v.setWidth 17 := by
    intro v w; revert v; cases w <;> decide
  have ha : a.extractLsb' 2 15 = 0 := by unfold wheelOfSlot at h; split at h <;> simp_all
  rw [← low2_of_slot ha] at h ⊢
  exact all _ _ h

theorem slot_of_channelOfSlot {a : Slot} {ch : Int} (h : channelOfSlot a = some ch) :
    channelSlot ch = a ∧ channelInRange ch = true := by
  have all : ∀ v : BitVec 4, channelSlot (v.toNat : Int) = v.setWidth 17 ∧ channelInRange (v.toNat : Int) = true := by
    decide
  unfold channelOfSlot at h
  split at h
  · next ha =>
    obtain rfl : ((a.extractLsb' 0 4).toNat : Int) = ch := by simpa only [Option.some.injEq] using h
    have := all (a.extractLsb' 0 4)
    rwa [low4_of_slot ha] at this
  · cases h

theorem slot_of_dutyOfSlot {a : Slot} {duty : Int} (h : dutyOfSlot a = some duty) :
    dutySlot duty = a ∧ dutyInRange duty = true := by
  unfold dutyOfSlot at h
  split at h
  · next ha =>
    obtain rfl : (a.extractLsb' 0 16).toInt = duty := by simpa only [Option.some.injEq] using h
    have h1 := (a.extractLsb' 0 16).toInt_lt
    have h2 := (a.extractLsb' 0 16).le_toInt
    refine ⟨by rw [dutySlot, BitVec.ofInt_toInt, low16_of_slot ha], ?_⟩
    rw [dutyInRange, Bool.and_eq_true, decide_eq_true_eq, decide_eq_true_eq]
    omega
  · cases h

theorem slot_of_levelOfSlot {a : Slot} {high : Bool} (h : levelOfSlot a = some high) : levelSlot high = a := by
  have all : ∀ v : BitVec 1, levelSlot ((v.setWidth 17).getLsbD 0) = v.setWidth 17 := by decide
  unfold levelOfSlot at h
  split at h
  · next ha =>
    obtain rfl : a.getLsbD 0 = high := by simpa only [Option.some.injEq] using h
    have := all (a.extractLsb' 0 1)
    rwa [low1_of_slot ha] at this
  · cases h

theorem slot_of_freqOfSlot {a : Slot} {hz : BitVec 16} (h : freqOfSlot a = some hz) : freqSlot hz = a := by
  unfold freqOfSlot at h
  split at h
  · next ha =>
    obtain rfl : a.extractLsb' 0 16 = hz := by simpa only [Option.some.injEq] using h
    exact low16_of_slot ha
  · cases h

end Sys2Proof
end

