-- ==== Sys2Proof/Laws/PerInstr.lean ====
section
/-! SUPPORT. Statements made per instruction. EncodeMatchesRow: the encoder's word of an instruction matches the
instruction's row of the opcode table. -/

namespace Sys2Proof

/-- A packed word matches a packed row field by field. -/
theorem packWord_matches {op mop bop : BitVec 4} {a b c d ma mb mc md ba bb bc bd : Slot}
    (h0 : op &&& mop = bop) (ha : a &&& ma = ba) (hb : b &&& mb = bb) (hc : c &&& mc = bc) (hd : d &&& md = bd) :
    packWord op a b c d &&& packWord mop ma mb mc md = packWord bop ba bb bc bd := by
  rw [packWord_and, h0, ha, hb, hc, hd]

theorem channelSlot_mask (ch : Int) : channelSlot ch &&& 0x1FFF0 = 0 := by
  have all : ∀ v : BitVec 4, v.setWidth 17 &&& 0x1FFF0#17 = 0 := by decide
  exact all _

theorem setWidth_mask (v : BitVec 16) : v.setWidth 17 &&& 0x10000#17 = 0 := by
  apply BitVec.eq_of_getLsbD_eq
  intro i hi
  by_cases h : i = 16
  · subst h; simp
  · have hz : (0x10000#17).getLsbD i = false := by
      have all : ∀ j : Fin 17, j.val ≠ 16 → (0x10000#17).getLsbD j.val = false := by decide
      exact all ⟨i, hi⟩ h
    simp [BitVec.getLsbD_and, hz]

namespace Laws.EncodeMatchesRow

/-- The word matches the row. -/
def Statement (i : Instr) : Prop := encode i &&& i.row.mask = i.row.bits

theorem drive (x y h : Percent) : Statement (.drive x y h) :=
  packWord_matches (mop := 0xF) (ma := 0) (mb := 0) (mc := 0) (md := 0x1FFFF) (bop := 1) (ba := 0) (bb := 0) (bc := 0)
    (bd := 0) rfl BitVec.and_zero BitVec.and_zero BitVec.and_zero rfl

theorem setpower4 (bl fl br fr : Percent) : Statement (.setpower4 bl fl br fr) :=
  packWord_matches (mop := 0xF) (ma := 0) (mb := 0) (mc := 0) (md := 0) (bop := 2) (ba := 0) (bb := 0) (bc := 0)
    (bd := 0) rfl BitVec.and_zero BitVec.and_zero BitVec.and_zero BitVec.and_zero

theorem allstop : Statement .allstop := by unfold Statement; decide

theorem cleanup : Statement .cleanup := by unfold Statement; decide

theorem msetpower (w : Wheel) (p : Percent) : Statement (.msetpower w p) :=
  packWord_matches (mop := 0xF) (ma := 0) (mb := 0x1FFFC) (mc := 0x1FFFF) (md := 0x1FFFF) (bop := 5) (ba := 0)
    (bb := 0) (bc := 0) (bd := 0) rfl BitVec.and_zero (by cases w <;> decide) rfl rfl

theorem setduty (ch duty : Int) : Statement (.setduty ch duty) :=
  packWord_matches (mop := 0xF) (ma := 0x10000) (mb := 0x1FFF0) (mc := 0x1FFFF) (md := 0x1FFFF) (bop := 6) (ba := 0)
    (bb := 0) (bc := 0) (bd := 0) rfl (setWidth_mask _) (channelSlot_mask ch) rfl rfl

theorem setdig (ch : Int) (high : Bool) : Statement (.setdig ch high) :=
  packWord_matches (mop := 0xF) (ma := 0x1FFFE) (mb := 0x1FFF0) (mc := 0x1FFFF) (md := 0x1FFFF) (bop := 7) (ba := 0)
    (bb := 0) (bc := 0) (bd := 0) rfl (by cases high <;> decide) (channelSlot_mask ch) rfl rfl

theorem init (hz : BitVec 16) : Statement (.init hz) :=
  packWord_matches (mop := 0xF) (ma := 0x10000) (mb := 0x1FFFF) (mc := 0x1FFFF) (md := 0x1FFFF) (bop := 8) (ba := 0)
    (bb := 0) (bc := 0) (bd := 0) rfl (setWidth_mask _) rfl rfl rfl

end Laws.EncodeMatchesRow

end Sys2Proof
end

