-- ==== Sys2Proof/Tests/Slice0.lean ====
section
/-! SUPPORT. Tests, each on one step and a small state, with expected results from the spec's tables and vectors (the
vector's number stands in the comment); then, for each statement with hypotheses, a witness that meets them. -/

namespace Sys2Proof.Tests

open Sys2Proof Sys2Proof.Machine

/-! ## States -/

/-- `n` transactions that complete, and `n` that fail. -/
def healthy (n : Nat) : List BusReply := List.replicate n (.complete 0x5A)
def failing (n : Nat) : List BusReply := List.replicate n .fail

/-- No address cached ("fresh" in the vectors). -/
def freshBlock (b : List BusReply) : State := { State.reset with bus := b }

/-- Address 0x40 cached ("cached"). -/
def cachedBlock (b : List BusReply) : State :=
  { State.reset with ctl := { State.reset.ctl with addrValid := true, addr := 0x40 }, bus := b }

def deadBlock : State := State.reset.deadWith .deviceNotFound

def constructingBlock : State := { State.reset.setPhase .constructing with construction := none }

def asking (s : State) (r : HostRequest) : State := { s with host := [r] }

/-- The state after one step. -/
def after (s : State) : State :=
  match step s with
  | .next t => t
  | .fault _ => s
  | .refused _ => s

/-- The state after the step that runs the command word. -/
def issue (c : CmdWord) (s : State) : State := after (asking s (.command c))

/-- The state after the step that constructs. -/
def constructed (x : XCfg) (b : List BusReply) : State := after (asking (freshBlock b) (.construct x))

/-- The events of a channel's block at device 0x40, as the vectors abbreviate them: `ch N: b0 b1 b2 b3`. -/
def block (ch : Nat) (b0 b1 b2 b3 : Byte) : List Event :=
  [.write 0x40 (BitVec.ofNat 8 (6 + 4 * ch)) b0 .completed, .write 0x40 (BitVec.ofNat 8 (7 + 4 * ch)) b1 .completed,
   .write 0x40 (BitVec.ofNat 8 (8 + 4 * ch)) b2 .completed, .write 0x40 (BitVec.ofNat 8 (9 + 4 * ch)) b3 .completed]

def fullOff (ch : Nat) : List Event := block ch 0x00 0x00 0x00 0x10
def fullOn (ch : Nat) : List Event := block ch 0x00 0x10 0x00 0x00

/-- A completed write to device 0x40. -/
def wr (reg : Reg) (v : Byte) : Event := .write 0x40 reg v .completed

/-- Probes of the given addresses that fail. -/
def deadProbes (as : List Addr) : List Event := as.map fun a => .read a 0x00 .failed

def allCandidates : List Addr := [0x40, 0x41, 0x42, 0x43, 0x44, 0x45, 0x46, 0x31]

/-- A response of a command that drives no wheel. -/
def alone (st : Status) : Response := ⟨st, ⟨.ok, .ok, .ok, .ok⟩⟩

/-! ## Decoding: words written out from 30_encoding.md, field by field -/

/-- DRIVE 20, 30, -10: op, then NUM and `val` of slots A, B, C, and slot D 0. -/
theorem test_decode_drive :
    decode (0x1#4 ++ 1#1 ++ 0x0500#16 ++ 1#1 ++ 0x0780#16 ++ 1#1 ++ 0xFD80#16 ++ 0#17) =
      .legal (.drive ⟨true, 0x0500⟩ ⟨true, 0x0780⟩ ⟨true, 0xFD80⟩) := by decide

/-- SETPOWER4 50, -50, 1.5, NaN. -/
theorem test_decode_setpower4 :
    decode (0x2#4 ++ 1#1 ++ 0x0C80#16 ++ 1#1 ++ 0xF380#16 ++ 1#1 ++ 0x0060#16 ++ 0#1 ++ 0x0000#16) =
      .legal (.setpower4 ⟨true, 0x0C80⟩ ⟨true, 0xF380⟩ ⟨true, 0x0060⟩ ⟨false, 0⟩) := by decide

theorem test_decode_allstop : decode (0x3#4 ++ 0#68) = .legal .allstop := by decide

theorem test_decode_cleanup : decode (0x4#4 ++ 0#68) = .legal .cleanup := by decide

/-- MSETPOWER BR, 50: the percent in slot A, wheel 2 in slot B. -/
theorem test_decode_msetpower :
    decode (0x5#4 ++ 1#1 ++ 0x0C80#16 ++ 0#15 ++ 0b10#2 ++ 0#34) = .legal (.msetpower .backRight ⟨true, 0x0C80⟩) := by
  decide

/-- SETDUTY 5, 2048 and SETDUTY 0, -1: the duty in slot A, the channel in slot B. -/
theorem test_decode_setduty :
    decode (0x6#4 ++ 0#1 ++ 0x0800#16 ++ 0#13 ++ 0b0101#4 ++ 0#34) = .legal (.setduty 5 2048) ∧
    decode (0x6#4 ++ 0#1 ++ 0xFFFF#16 ++ 0#13 ++ 0b0000#4 ++ 0#34) = .legal (.setduty 0 (-1)) := by decide

/-- SETDIG 12, 0 and SETDIG 3, 1: the level in slot A, the channel in slot B. -/
theorem test_decode_setdig :
    decode (0x7#4 ++ 0#16 ++ 0#1 ++ 0#13 ++ 0b1100#4 ++ 0#34) = .legal (.setdig 12 false) ∧
    decode (0x7#4 ++ 0#16 ++ 1#1 ++ 0#13 ++ 0b0011#4 ++ 0#34) = .legal (.setdig 3 true) := by decide

/-- INIT 1000: the frequency in slot A. -/
theorem test_decode_init : decode (0x8#4 ++ 0#1 ++ 0x03E8#16 ++ 0#51) = .legal (.init 1000) := by decide

/-- The words of section 7 that ExampleWordsDecode does not hold. -/
theorem test_decode_more_words :
    decode 0x180004640200000000 = .legal (.drive ⟨true, 0⟩ ⟨true, 0x1900⟩ ⟨true, 0⟩) ∧
    decode 0x586400000400000000 = .legal (.msetpower .frontLeft ⟨true, 0x0C80⟩) ∧
    decode 0x5FFC00000000000000 = .legal (.msetpower .backLeft ⟨true, 0xFF80⟩) ∧
    decode 0x604000001400000000 = .legal (.setduty 5 2048) ∧
    decode 0x700000003000000000 = .legal (.setdig 12 false) ∧
    decode 0x800190000000000000 = .legal (.init 50) := by decide

/-- V90 to V92: reserved opcodes. -/
theorem test_decode_reserved_opcodes :
    decode 0x000000000000000000 = .illegal (.reservedOpcode 0) ∧
    decode 0x900000000000000000 = .illegal (.reservedOpcode 9) ∧
    decode 0xF00000000000000000 = .illegal (.reservedOpcode 15) := by decide

/-- V93 to V99c: bits that must be 0. -/
theorem test_decode_reserved_bits :
    decode 0x604000004000000000 = .illegal (.reservedBits 6) ∧ decode 0x580000001000000000 = .illegal (.reservedBits 5) ∧
    decode 0x680000001400000000 = .illegal (.reservedBits 6) ∧ decode 0x700010000C00000000 = .illegal (.reservedBits 7) ∧
    decode 0x881F40000000000000 = .illegal (.reservedBits 8) ∧ decode 0x801F40000000020000 = .illegal (.reservedBits 8) ∧
    decode 0x180004640200000001 = .illegal (.reservedBits 1) ∧ decode 0x300000000000000001 = .illegal (.reservedBits 3) ∧
    decode 0x480000000000000000 = .illegal (.reservedBits 4) := by decide

/-- The encoder gives section 7's words, one for each opcode. -/
theorem test_encode_words :
    encode (.drive ⟨true, 0⟩ ⟨true, 0x1900⟩ ⟨true, 0⟩) = 0x180004640200000000 ∧
    encode (.setpower4 ⟨true, 0x0C80⟩ ⟨true, 0xF380⟩ ⟨true, 0x0060⟩ ⟨false, 0⟩) = 0x286407CE0200C00000 ∧
    encode .allstop = 0x300000000000000000 ∧ encode .cleanup = 0x400000000000000000 ∧
    encode (.msetpower .backLeft ⟨true, 0xFF80⟩) = 0x5FFC00000000000000 ∧
    encode (.setduty 15 4095) = 0x607FF8003C00000000 ∧ encode (.setdig 3 true) = 0x700008000C00000000 ∧
    encode (.init 1000) = 0x801F40000000000000 := by decide

/-! ## Well-formedness: an ill-formed term for each check -/

theorem test_wellFormed_refuses_channel_16 :
    Instr.wellFormed (.setduty 16 0) = false ∧ Instr.wellFormed (.setdig 16 true) = false := by decide

theorem test_wellFormed_refuses_negative_channel :
    Instr.wellFormed (.setduty (-1) 0) = false ∧ Instr.wellFormed (.setdig (-1) false) = false := by decide

theorem test_wellFormed_refuses_wide_duty :
    Instr.wellFormed (.setduty 0 32768) = false ∧ Instr.wellFormed (.setduty 0 (-32769)) = false := by decide

/-! ## Assembler lines (30_encoding.md section 7, R56) -/

theorem test_assemble_drive : assemble "DRIVE 20, 30, -10".toList = some 0x1828041E03FB000000 := by decide

theorem test_assemble_setpower4 :
    assemble "SETPOWER4 50, -50, 1.5, NaN ; stop the last".toList = some 0x286407CE0200C00000 := by decide

/-- R56's own spelling, with blanks before the comment. -/
theorem test_assemble_comment : assemble "ALLSTOP                  ; XDrive.allStop".toList = some 0x300000000000000000 := by
  decide

theorem test_assemble_setdig : assemble "SETDIG 12, 0".toList = some 0x700000003000000000 := by decide

/-- 0.01 percent is no multiple of 1/64; wheel 4 and channel 16 do not exist. -/
theorem test_assemble_refuses :
    assemble "MSETPOWER FL, 0.01".toList = none ∧ assemble "MSETPOWER 4, 50".toList = none ∧ assemble "SETDUTY 16, 0".toList = none := by decide

/-! ## Parameters: the widths of R5 are those of the types -/

theorem test_widths :
    config.cmdW = 4 + 17 + 17 + 17 + 17 ∧ config.pctW = 16 ∧ config.pctFrac = 6 ∧ config.cfgPctW = 13 ∧
    config.nwheel = Wheel.order.length ∧ config.nch = allChannels.length := by decide

/-! ## Pure functions -/

/-- V1 to V17. -/
theorem test_enc :
    enc (-32768) = ⟨0x00, 0x00, 0x00, 0x10⟩ ∧ enc (-1) = ⟨0x00, 0x00, 0x00, 0x10⟩ ∧ enc 0 = ⟨0x00, 0x00, 0x00, 0x10⟩ ∧
    enc 1 = ⟨0x00, 0x00, 0x01, 0x00⟩ ∧ enc 16 = ⟨0x00, 0x00, 0x10, 0x00⟩ ∧ enc 255 = ⟨0x00, 0x00, 0xFF, 0x00⟩ ∧
    enc 256 = ⟨0x00, 0x00, 0x00, 0x01⟩ ∧ enc 819 = ⟨0x00, 0x00, 0x33, 0x03⟩ ∧ enc 1638 = ⟨0x00, 0x00, 0x66, 0x06⟩ ∧
    enc 4094 = ⟨0x00, 0x00, 0xFE, 0x0F⟩ ∧ enc 4095 = ⟨0x00, 0x10, 0x00, 0x00⟩ ∧ enc 4096 = ⟨0x00, 0x10, 0x00, 0x00⟩ ∧
    enc 32767 = ⟨0x00, 0x10, 0x00, 0x00⟩ := by decide

/-- V31 to V47, S8. -/
theorem test_prescale :
    prescale 24 = 253 ∧ prescale 60 = 101 ∧ prescale 200 = 30 ∧ prescale 1000 = 5 ∧ prescale 1743 = 3 ∧
    prescale 1744 = 2 ∧ prescale 2441 = 2 ∧ prescale 2442 = 1 ∧ prescale 4069 = 1 ∧ prescale 4070 = 0 ∧
    prescale 12207 = 0 ∧ prescale 23 = 264 ∧ prescale 12208 = -1 := by decide

/-- The record of a motor with the given polarity bit, cap and deadband, in percent. -/
def motorWith (polneg : Bool) (cap dead : Nat) : MotorCfg :=
  ⟨0, 0, polneg, BitVec.ofNat 13 (64 * cap), BitVec.ofNat 13 (64 * dead)⟩

/-- V60a to V78, powers in 1/64 percent. -/
theorem test_scale_defaults :
    scale (motorWith false 40 2) 0 = ⟨true, 0⟩ ∧ scale (motorWith true 40 2) 0 = ⟨true, 0⟩ ∧
    scale (motorWith false 40 2) 128 = ⟨true, 0⟩ ∧ scale (motorWith false 40 2) (-128) = ⟨false, 0⟩ ∧
    scale (motorWith false 40 2) 129 = ⟨true, 83⟩ ∧ scale (motorWith false 40 2) (-1) = ⟨false, 0⟩ ∧
    scale (motorWith false 40 2) 320 = ⟨true, 205⟩ ∧ scale (motorWith false 40 2) 2096 = ⟨true, 1341⟩ ∧
    scale (motorWith false 40 2) 2559 = ⟨true, 1637⟩ ∧ scale (motorWith false 40 2) 6400 = ⟨true, 1638⟩ ∧
    scale (motorWith true 40 2) 3200 = ⟨false, 1638⟩ ∧ scale (motorWith false 40 2) (-3200) = ⟨false, 1638⟩ ∧
    scale (motorWith true 40 2) (-32768) = ⟨true, 1638⟩ := by decide

/-- V79 to V88j, limits other than the defaults. -/
theorem test_scale_limits :
    scale (motorWith false 100 2) 6400 = ⟨true, 4095⟩ ∧ scale (motorWith false 100 2) 6399 = ⟨true, 4094⟩ ∧
    scale (motorWith false 100 0) 1 = ⟨true, 1⟩ ∧ scale (motorWith false 0 2) 3200 = ⟨true, 0⟩ ∧
    scale (motorWith false 1 2) 3200 = ⟨true, 41⟩ ∧ scale (motorWith false 40 100) 6400 = ⟨true, 0⟩ ∧
    scale (motorWith false 40 100) 9600 = ⟨true, 1638⟩ ∧ scale (motorWith false 100 2) 1919 = ⟨true, 1228⟩ ∧
    scale (motorWith false 100 2) 1921 = ⟨true, 1229⟩ ∧ scale (motorWith false 100 2) 4800 = ⟨true, 3071⟩ := by decide

/-- V66a, V69, V88c, V88d, V88e: the ties, under both settings. -/
theorem test_scale_ties :
    scaleWith .halfEven (motorWith false 100 2) 640 = ⟨true, 410⟩ ∧ scaleWith .halfAway (motorWith false 100 2) 640 = ⟨true, 410⟩ ∧
    scaleWith .halfEven (motorWith false 40 2) 1920 = ⟨true, 1228⟩ ∧ scaleWith .halfAway (motorWith false 40 2) 1920 = ⟨true, 1229⟩ ∧
    scaleWith .halfEven (motorWith false 100 2) 3200 = ⟨true, 2048⟩ ∧
    scaleWith .halfEven (motorWith false 100 2) 4480 = ⟨true, 2866⟩ ∧ scaleWith .halfAway (motorWith false 100 2) 4480 = ⟨true, 2867⟩ ∧
    scaleWith .halfEven (motorWith false 100 2) 5760 = ⟨true, 3686⟩ := by decide

/-- V110, S6. -/
theorem test_mix :
    mix (-32768) 32767 (-32768) = ⟨98303, -32769, 32767, 32767⟩ ∧ mix 6400 0 0 = ⟨-6400, 6400, 6400, -6400⟩ := by decide

/-! ## Commands, one step each -/

/-- V116: DRIVE 20, 30, -10, powers 20, 40, 60, 0. -/
theorem test_drive_mixes :
    (issue 0x1828041E03FB000000 (cachedBlock (healthy 32))).trace =
      fullOn 3 ++ block 1 0x00 0x00 0x33 0x03 ++ fullOn 2 ++ block 0 0x00 0x00 0x66 0x06 ++
      fullOff 13 ++ block 14 0x00 0x00 0x66 0x06 ++ fullOn 12 ++ fullOff 15 := by decide

/-- V118: DRIVE 10, NaN, 0. -/
theorem test_drive_rejects_nan :
    issue 0x181400000200000000 (freshBlock []) =
      { freshBlock [] with responses := [⟨.err .invalidInput, .all (.err .invalidInput)⟩] } := by decide

/-- V119: SETPOWER4 50, -50, 1.5, NaN. -/
theorem test_setpower4_partial :
    let t := issue 0x286407CE0200C00000 (cachedBlock (healthy 24))
    t.trace = fullOn 3 ++ block 1 0x00 0x00 0x66 0x06 ++ fullOff 2 ++ block 0 0x00 0x00 0x66 0x06 ++ fullOff 13 ++ fullOff 14 ∧
    t.responses = [⟨.err .invalidInput, ⟨.ok, .ok, .ok, .err .invalidInput⟩⟩] := by decide

/-- Program P3 step 2: SETPOWER4 40, 40, 40, 40, the 11th transaction fails; FrontLeft's remaining writes are not
issued, the next two motors go on. -/
theorem test_setpower4_bus_failure :
    let t := issue 0x285004280214010A00 (cachedBlock (healthy 10 ++ [.fail] ++ healthy 16))
    t.trace = fullOn 3 ++ block 1 0x00 0x00 0x66 0x06 ++ [wr 0x0E 0x00, wr 0x0F 0x10, .write 0x40 0x10 0x00 .failed] ++
      fullOff 13 ++ block 14 0x00 0x00 0x66 0x06 ++ fullOff 12 ++ block 15 0x00 0x00 0x66 0x06 ∧
    t.responses = [⟨.err .busError, ⟨.ok, .err .busError, .ok, .ok⟩⟩] := by decide

/-- V111. -/
theorem test_allstop :
    (issue 0x300000000000000000 (cachedBlock (healthy 32))).trace =
      fullOn 3 ++ fullOff 1 ++ fullOn 2 ++ fullOff 0 ++ fullOn 13 ++ fullOff 14 ++ fullOn 12 ++ fullOff 15 := by decide

/-- V127: CLEANUP, the 30th write fails; the rest of channel 7's block is not issued, channel 8 follows. -/
theorem test_cleanup_goes_on :
    let t := issue 0x400000000000000000 (cachedBlock (healthy 29 ++ [.fail] ++ healthy 48))
    t.trace.length = 78 ∧ (t.trace.drop 28).take 3 = [wr 0x22 0x00, .write 0x40 0x23 0x00 .failed, wr 0x26 0x00] ∧
    t.responses = [alone .ok] := by decide

set_option maxRecDepth 8000 in
/-- V126: CLEANUP with no device, 160 failed probes, still OK. -/
theorem test_cleanup_no_device :
    let t := issue 0x400000000000000000 (freshBlock (failing 160))
    t.trace.length = 160 ∧ t.trace.take 8 = deadProbes allCandidates ∧ t.ctl.addrValid = false ∧
    t.responses = [alone .ok] := by decide

/-- V89b: MSETPOWER BR, 50; the direction block first. -/
theorem test_msetpower :
    (issue 0x586400000800000000 (cachedBlock (healthy 8))).trace = fullOff 13 ++ block 14 0x00 0x00 0x66 0x06 := by decide

/-- V25: SETDUTY 0, 1 with a device at the last candidate only. -/
theorem test_setduty_discovers :
    let t := issue 0x600008000000000000 (freshBlock (failing 7 ++ healthy 5))
    t.trace = deadProbes [0x40, 0x41, 0x42, 0x43, 0x44, 0x45, 0x46] ++ [.read 0x31 0x00 .completed,
      .write 0x31 0x06 0x00 .completed, .write 0x31 0x07 0x00 .completed, .write 0x31 0x08 0x01 .completed,
      .write 0x31 0x09 0x00 .completed] ∧ t.ctl.addrValid = true ∧ t.ctl.addr = 0x31 ∧ t.responses = [alone .ok] := by
  decide

/-- V29: SETDUTY 5, 2048, the third write fails. -/
theorem test_setduty_bus_failure :
    let t := issue 0x604000001400000000 (cachedBlock (healthy 2 ++ [.fail]))
    t.trace = [wr 0x1A 0x00, wr 0x1B 0x00, .write 0x40 0x1C 0x00 .failed] ∧
    t.dev = [(0x1A, 0x00), (0x1B, 0x00)] ∧ t.responses = [alone (.err .busError)] := by decide

/-- V28: SETDIG 3, 1, a device at 0x42 only. -/
theorem test_setdig_discovers :
    let t := issue 0x700008000C00000000 (freshBlock (failing 2 ++ healthy 5))
    t.trace.drop 3 = [.write 0x42 0x12 0x00 .completed, .write 0x42 0x13 0x10 .completed, .write 0x42 0x14 0x00 .completed,
      .write 0x42 0x15 0x00 .completed] ∧ t.ctl.addr = 0x42 := by decide

/-- V24: SETDIG 12, 0. -/
theorem test_setdig_low : (issue 0x700000003000000000 (cachedBlock (healthy 4))).trace = fullOff 12 := by decide

/-- V49: INIT 50. -/
theorem test_init :
    let t := issue 0x800190000000000000 (cachedBlock (healthy 39))
    t.trace = [wr 0x00 0x10, wr 0x01 0x04, wr 0x00 0x30, wr 0x00 0x30, wr 0xFE 0x79, wr 0x00 0x20, .delay 5, wr 0x00 0xA0] ++
      fullOff 3 ++ fullOff 1 ++ fullOff 2 ++ fullOff 0 ++ fullOff 13 ++ fullOff 14 ++ fullOff 12 ++ fullOff 15 ∧
    t.ctl.freqValid = true ∧ t.ctl.freq = 50 := by decide

/-- V57: INIT 1000, the PRESCALE write fails. -/
theorem test_init_bus_failure :
    let t := issue 0x801F40000000000000 (freshBlock (healthy 5 ++ [.fail]))
    t.trace = [.read 0x40 0x00 .completed, wr 0x00 0x10, wr 0x01 0x04, wr 0x00 0x30, wr 0x00 0x30,
      .write 0x40 0xFE 0x05 .failed] ∧
    t.dev = [(0x00, 0x30), (0x01, 0x04)] ∧ t.ctl.addrValid = true ∧ t.ctl.freqValid = false ∧
    t.ctl.phase = .operational ∧ t.responses = [alone (.err .busError)] := by decide

/-! ## Dispatch and stuck transactions -/

/-- V93: an illegal word. -/
theorem test_illegal_word :
    issue 0x604000004000000000 (cachedBlock []) =
      { cachedBlock [] with responses := [alone (.err .illegalCommand)] } := by decide

/-- V99d, V99e: a dead block. -/
theorem test_dead_block :
    (issue 0x300000000000000000 deadBlock).responses = [alone (.err .dead)] ∧
    (issue 0x000000000000000000 deadBlock).responses = [alone (.err .dead)] := by decide

/-- R37: the second write never completes; no response, and nothing more. -/
theorem test_hung_write :
    let t := issue 0x604000001400000000 (cachedBlock (healthy 1 ++ [.never] ++ healthy 9))
    t.stuck = true ∧ t.responses = [] ∧ t.trace = [wr 0x1A 0x00, .write 0x40 0x1B 0x00 .pending] ∧
    after (asking t (.construct XCfg.default)) = asking t (.construct XCfg.default) := by decide

/-- R43, U5: a write that never completes has not failed, so DEV keeps the byte last written. -/
theorem test_hung_write_keeps_dev :
    (issue 0x604000001400000000 { cachedBlock [.never] with dev := [(0x1A, 0x77)] }).dev = [(0x1A, 0x77)] := by decide

/-! ## Construction -/

/-- V133, V134. -/
theorem test_construct_range_errors :
    (constructed { XCfg.default with init := true, hz := 20 } []).construction = some (.err .rangeError) ∧
    (constructed { XCfg.default with maxpct := (PerWheel.all 2560).set .backRight 6401 } []).ctl.phase = .dead := by decide

/-- V135. -/
theorem test_construct_overrides :
    (constructed { XCfg.default with ovr := ⟨some (-1), none, some 1, none⟩ } []).motors.map (fun m => m.polneg) =
      ⟨true, false, false, true⟩ := by decide

/-- V132: no device. -/
theorem test_construct_no_device :
    let t := constructed { XCfg.default with init := true } (failing 8)
    t.trace = deadProbes allCandidates ∧ t.construction = some (.err .deviceNotFound) ∧ t.ctl.phase = .dead := by decide

/-- V136: the 18th write fails. -/
theorem test_construct_bus_failure :
    let t := constructed { XCfg.default with init := true } (healthy 18 ++ [.fail])
    t.trace.length = 20 ∧ t.trace.getLast? = some (.write 0x40 0x10 0x00 .failed) ∧ t.ctl.phase = .dead ∧
    t.dev.take 3 = [(0x00, 0xA0), (0x01, 0x04), (0x0A, 0x00)] ∧ Memory.read t.dev 0xFE = some 0x05 ∧
    Memory.read t.dev 0x10 = none ∧ Memory.read t.dev 0x0F = some 0x00 := by decide

/-! ## Witnesses: states and operands that meet the hypotheses of the statements -/

theorem outcome_of_bus {s : State} {k : Nat} {r : BusReply} (h : s.bus[k]? = some r) : s.outcome k = r := by
  simp [State.outcome, h]

/-- An address cached and `n` transactions that complete. -/
theorem cached_ready (n : Nat) : (cachedBlock (healthy n)).Ready 0 0x40 n :=
  ⟨.inl ⟨rfl, rfl, rfl⟩, fun k hk => by
    rw [outcome_of_bus (r := .complete 0x5A) (List.getElem?_replicate_of_lt (by omega))]; rfl⟩

/-- A device at the last candidate only, then `n` transactions that complete. -/
theorem last_ready (n : Nat) : (freshBlock (failing 7 ++ healthy (n + 1))).Ready 8 0x31 n := by
  have found : ∀ k, k < n + 1 → (freshBlock (failing 7 ++ healthy (n + 1))).outcome (7 + k) = .complete 0x5A := fun k hk =>
    outcome_of_bus (by
      simp only [freshBlock]
      rw [List.getElem?_append_right (by simp [failing])]
      simp [failing, healthy, hk])
  refine ⟨.inr ⟨rfl, 7, rfl, rfl, fun j hj => outcome_of_bus ?_, ?_⟩, fun k hk => ?_⟩
  · simp only [freshBlock]
    rw [List.getElem?_append_left (by simpa [failing] using hj)]
    exact List.getElem?_replicate_of_lt hj
  · rw [found 0 (by omega)]; rfl
  · rw [show 8 + k = 7 + (k + 1) by omega, found (k + 1) (by omega)]; rfl

/-- An address cached, `k` transactions that complete and then one that fails. -/
theorem cached_fails (k : Nat) :
    let s := cachedBlock (healthy k ++ [.fail])
    s.Discovers 0 0x40 ∧ s.CompletesFrom 0 k ∧ s.outcome (0 + k) = .fail := by
  refine ⟨.inl ⟨rfl, rfl, rfl⟩, fun j hj => ?_, outcome_of_bus ?_⟩
  · rw [outcome_of_bus (r := .complete 0x5A) (by
      simp only [cachedBlock]
      rw [List.getElem?_append_left (by simpa [healthy] using hj)]
      exact List.getElem?_replicate_of_lt (by omega))]
    rfl
  · simp only [cachedBlock]
    rw [List.getElem?_append_right (by simp [healthy])]
    simp [healthy]

/-- A device at the first candidate, `k` transactions that complete and then one that fails. -/
theorem first_fails (k : Nat) :
    let s := freshBlock (healthy (k + 1) ++ [.fail])
    s.Discovers 1 0x40 ∧ s.CompletesFrom 1 k ∧ s.outcome (1 + k) = .fail := by
  have found : ∀ j, j < k + 1 → (freshBlock (healthy (k + 1) ++ [.fail])).outcome j = .complete 0x5A := fun j hj =>
    outcome_of_bus (by
      simp only [freshBlock]
      rw [List.getElem?_append_left (by simpa [healthy] using hj)]
      exact List.getElem?_replicate_of_lt hj)
  refine ⟨.inr ⟨rfl, 0, rfl, rfl, fun _ hj => absurd hj (by omega), by rw [found 0 (by omega)]; rfl⟩, fun j hj => ?_,
    outcome_of_bus ?_⟩
  · rw [found (1 + j) (by omega)]; rfl
  · simp only [freshBlock]
    rw [List.getElem?_append_right (by rw [healthy, List.length_replicate]; omega)]
    simp [healthy, Nat.add_comm]

/-- No address cached and `n` transactions that fail. -/
theorem fresh_fails (n : Nat) :
    (freshBlock (failing n)).ctl.addrValid = false ∧ ∀ j, j < n → (freshBlock (failing n)).outcome j = .fail :=
  ⟨rfl, fun _ hj => outcome_of_bus (List.getElem?_replicate_of_lt hj)⟩

theorem witness_NoDevice : (freshBlock (failing 8)).NoDevice := fresh_fails 8

theorem witness_DecodeOfEncode :
    Instr.wellFormed (.setduty 0 (-32768)) = true ∧ Instr.wellFormed (.setduty 15 32767) = true ∧
    Instr.wellFormed (.setdig 0 true) = true ∧ Instr.wellFormed (.setdig 15 false) = true ∧
    Instr.wellFormed (.init 65535) = true := by decide

theorem witness_EncodeOfDecode : decode 0x67FFF8000000000000 = .legal (.setduty 0 (-1)) := by decide

theorem witness_IllegalWordsOnlyRespond :
    (opcodeOf 0x000000000000000001 = 0 ∧ 9 ≤ (opcodeOf 0x900000000000000000).toNat ∧
      9 ≤ (opcodeOf 0xF00000000000000000).toNat) ∧
    (OpcodeRow.setduty ∈ opcodeTable ∧ opcodeOf 0x604000004000000000 = opcodeOf OpcodeRow.setduty.bits ∧
      0x604000004000000000 &&& OpcodeRow.setduty.mask ≠ OpcodeRow.setduty.bits) ∧
    (let s := asking (cachedBlock []) (.command 0x604000004000000000)
     s.stuck = false ∧ s.ctl.phase = .operational ∧ s.host = [.command 0x604000004000000000] ∧
       decode 0x604000004000000000 = .illegal (.reservedBits 6)) := by decide

theorem witness_AssemblerAcceptsWellFormedLines :
    assembleLine "SETDUTY 15, -32768".toList = some (.setduty 15 (-32768)) ∧
    assemble "ALLSTOP".toList = some 0x300000000000000000 ∧ ';' ∉ "ALLSTOP".toList ∧
    (['B', 'L'] ∈ wheelTexts .backLeft ∧ ['3'] ∈ wheelTexts .frontRight) := by decide

/-- `MSETPOWER 4, 50`: a wheel that is none. -/
theorem witness_illegal_wheel : OperandText ['4'] ∧ ∀ w, ['4'] ∉ wheelTexts w :=
  ⟨⟨by simp, by simp⟩, fun w => by cases w <;> decide⟩

/-- Texts that are no numeral: `abc` for a percent and for a channel. -/
theorem witness_illegal_text : ReadsPercent "abc".toList none ∧ ReadsInteger 0 15 "abc".toList none := by
  have no_numeral : ∀ q : Numeral, q.whole ≠ [] → q.text ≠ ['a', 'b', 'c'] := by
    rintro ⟨neg, whole, frac⟩ hw h
    obtain ⟨d, ds, rfl⟩ := List.exists_cons_of_ne_nil (show whole ≠ [] from hw)
    cases neg with
    | true => simp [Numeral.text] at h
    | false =>
      have hc : Nat.digitChar d.val = 'a' := by
        simp only [Numeral.text, digitText, List.map_cons, Bool.false_eq_true, if_false, List.nil_append,
          List.cons_append, List.cons.injEq] at h
        exact h.1
      exact absurd hc ((show ∀ d : Fin 10, Nat.digitChar d.val ≠ 'a' by decide) d)
  have ht : OperandText ['a', 'b', 'c'] := ⟨by simp, by simp⟩
  exact ⟨.other _ ht (by decide) no_numeral, .other _ ht fun q hq _ => no_numeral q hq⟩

/-- Percent operands at the ends of the range and just outside, off the grid of 1/64, and `NaN`. -/
theorem witness_ReadsPercent :
    ReadsPercent "-512".toList (some ⟨true, 0x8000⟩) ∧ ReadsPercent "511.984375".toList (some ⟨true, 0x7FFF⟩) ∧
    ReadsPercent "512".toList none ∧ ReadsPercent "0.01".toList none ∧
    ReadsPercent "NaN".toList (some ⟨false, 0⟩) := by
  have low := ReadsPercent.exact ⟨true, [5, 1, 2], []⟩ (-32768) (by simp) (by norm_num [Numeral.value, digitsValue])
    (by omega) (by omega)
  have high := ReadsPercent.exact ⟨false, [5, 1, 1], [9, 8, 4, 3, 7, 5]⟩ 32767 (by simp)
    (by norm_num [Numeral.value, digitsValue]) (by omega) (by omega)
  have wide := ReadsPercent.refused ⟨false, [5, 1, 2], []⟩ (by simp) fun z hz => by
    norm_num [Numeral.value, digitsValue] at hz
    have : z = 32768 := by exact_mod_cast hz
    omega
  have fine := ReadsPercent.refused ⟨false, [0], [0, 1]⟩ (by simp) fun z hz => by
    norm_num [Numeral.value, digitsValue] at hz
    have h : (25 : ℚ) * z = 16 := by rw [hz]; norm_num
    have : 25 * z = 16 := by exact_mod_cast h
    omega
  exact ⟨low, high, wide, fine, .nan⟩

/-- Integer operands at an end of the range and outside it. -/
theorem witness_ReadsInteger :
    ReadsInteger 0 15 "15".toList (some 15) ∧ ReadsInteger 0 15 "16".toList none ∧
    ReadsInteger (-32768) 32767 "-32768".toList (some (-32768)) := by
  refine ⟨.exact ⟨false, [1, 5], []⟩ 15 (by simp) rfl ?_ (by omega) (by omega),
    .refused ⟨false, [1, 6], []⟩ 16 (by simp) rfl ?_ (by omega),
    .exact ⟨true, [3, 2, 7, 6, 8], []⟩ (-32768) (by simp) rfl ?_ (by omega) (by omega)⟩ <;>
    norm_num [Numeral.value, digitsValue]

theorem witness_StepRunsDecodedCommand :
    (let s := asking (cachedBlock []) (.command 0x300000000000000000)
     s.stuck = false ∧ s.ctl.phase = .operational ∧ s.host = [.command 0x300000000000000000] ∧
       decode 0x300000000000000000 = .legal .allstop ∧ encode .allstop = 0x300000000000000000 ∧
       Instr.wellFormed .allstop = true) ∧
    decodeTableWord 72 0x801F40000000000000 = some (.init 1000) := by decide

theorem witness_IdleStepChangesNothing :
    State.reset.host = [] ∧ (asking constructingBlock (.command 0)).host = [.command 0] ∧
    (asking constructingBlock (.command 0)).ctl.phase = .constructing := by decide

theorem witness_DeadAnswersEveryCommandDead :
    let s := asking deadBlock (.command 0)
    s.stuck = false ∧ s.ctl.phase = .dead ∧ s.host = [.command 0] := by decide

theorem witness_HungTransactionBlocksForGood :
    (cachedBlock [.never]).outcome 0 = .never ∧
    (∃ t, exec (.setduty 5 2048) (cachedBlock [.never]) = .next t ∧ t.stuck = true) ∧
    (cachedBlock []).hang.stuck = true := ⟨rfl, ⟨_, rfl, rfl⟩, rfl⟩

theorem witness_CommandEndsUnlessHung :
    (freshBlock (failing 164)).stuck = false ∧ (freshBlock (failing 164)).NeverHangsFor 164 ∧
    ∃ t, exec .cleanup (freshBlock (failing 164)) = .next t :=
  ⟨rfl, fun k hk => by rw [(fresh_fails 164).2 k hk]; decide, exec_next _ _⟩

theorem witness_EncThreeArms : ((-1 : Int) ≤ 0 ∧ (0 : Int) ≤ 0) ∧ ((4095 : Int) ≤ 4095 ∧ (4095 : Int) ≤ 4096) ∧
    ((0 : Int) < 1 ∧ (1 : Int) < 4095) ∧ ((0 : Int) < 4094 ∧ (4094 : Int) < 4095) := by decide

theorem witness_EncProperties : enc 0 = enc 0 ∧ enc 4095 = enc 4095 ∧ (0 : Int) ≤ 0 ∧ (4095 : Int) ≤ 4095 := by decide

theorem witness_PrescaleFormula : 1 ≤ 1 ∧ 24 ≤ 24 ∧ 24 ≤ 12207 ∧ 12207 ≤ 12207 := by decide

theorem witness_ScaleIsTheRationalRule : (motorWith false 0 0).maxpct.toNat ≤ 6400 ∧ (motorWith true 100 2).maxpct.toNat ≤ 6400 := by
  decide

theorem witness_DirectionIsSignOfEffectivePower :
    (motorWith false 40 2).polneg = false ∧ (motorWith true 40 2).polneg = true ∧
    (motorWith true 40 2).polneg = (motorWith true 100 0).polneg ∧ (motorWith false 40 2).deadband = 128 := by decide

theorem witness_DeadbandThenFullScale :
    ((-128 : Int).natAbs ≤ (motorWith false 40 2).deadband.toNat ∧ (motorWith false 40 2).deadband.toNat < (129 : Int).natAbs) ∧
    ((motorWith false 40 2).deadband = 128 ∧ (motorWith false 40 2).maxpct = 2560) ∧
    ((motorWith false 40 0).deadband = 0 ∧ (-1 : Int) ≠ 0) ∧
    ((motorWith false 40 100).deadband = 6400 ∧ (6400 : Int).natAbs ≤ 6400) := by decide

theorem witness_SafetyCapBoundsDuty : (motorWith false 40 2).maxpct.toNat ≤ 2560 ∧ (motorWith true 0 2).maxpct = 0 := by
  decide

theorem witness_TiesOnlyAtFiveMagnitudes : 0 ≤ 6400 ∧ 6400 ≤ 6400 := by decide

theorem witness_EveryDutyReachable :
    ((motorWith false 100 0).maxpct.toNat = 6400 ∧ (motorWith false 100 0).deadband.toNat = 0 ∧ (0 : Int) ≤ 4095 ∧
      (4095 : Int) ≤ 4095) ∧
    ((motorWith true 40 2).maxpct.toNat = 2560 ∧ (motorWith true 40 2).deadband.toNat = 128) := by decide

theorem witness_ScaleMonotoneAndPolarity :
    pct (motorWith false 40 2).deadband.toNat < |pct (-129)| ∧ (-129 : Int).natAbs ≤ (130 : Int).natAbs ∧ (1 : Int) ≠ 0 := by
  refine ⟨?_, by decide, by decide⟩
  rw [show (motorWith false 40 2).deadband.toNat = 128 from rfl]
  norm_num [pct]

theorem witness_DiscoverReturnsFirstResponder :
    (config.candidates[7]? = some 0x31 ∧ (∀ j, j < 7 → (freshBlock (failing 7 ++ healthy 1)).outcome j = .fail) ∧
      ((freshBlock (failing 7 ++ healthy 1)).outcome 7).completes = true) ∧
    (∀ j, j < config.candidates.length → (freshBlock (failing 8)).outcome j = .fail) ∧
    (config.candidates[0]? = some 0x40 ∧ (freshBlock [.never]).outcome 0 = .never) := by decide

theorem witness_EnsureAddrCachesOnce :
    (cachedBlock []).ctl.addrValid = true ∧ (freshBlock (failing 7 ++ healthy 1)).Discovers 8 0x31 ∧
    (freshBlock (failing 8)).NoDevice := ⟨rfl, (last_ready 0).1, witness_NoDevice⟩

theorem witness_CfgdefThreeWrites :
    (cachedBlock (healthy 3)).CompletesFrom 0 3 ∧
    (∀ k, k < 3 → (cachedBlock (healthy k ++ [.fail])).CompletesFrom 0 k ∧
      (cachedBlock (healthy k ++ [.fail])).outcome k = .fail) :=
  ⟨(cached_ready 3).2, fun k _ => ⟨(cached_fails k).2.1, by simpa using (cached_fails k).2.2⟩⟩

theorem witness_SetfreqSequence :
    ((0#16).toNat < 24 ∧ (23#16).toNat < 24 ∧ 12207 < (12208#16).toNat ∧ 12207 < (65535#16).toNat) ∧
    (24 ≤ (24#16).toNat ∧ (24#16).toNat ≤ 12207 ∧ 24 ≤ (12207#16).toNat ∧ (12207#16).toNat ≤ 12207) ∧
    (cachedBlock (healthy 4)).CompletesFrom 0 4 ∧
    (∀ k, k < 4 → (cachedBlock (healthy k ++ [.fail])).CompletesFrom 0 k ∧
      (cachedBlock (healthy k ++ [.fail])).outcome k = .fail) :=
  ⟨by decide, by decide, (cached_ready 4).2, fun k _ => ⟨(cached_fails k).2.1, by simpa using (cached_fails k).2.2⟩⟩

/-- The frequencies of this witness are those of the one before. -/
theorem witness_InitSequence :
    (cachedBlock (healthy 39)).Ready 0 0x40 39 ∧ (freshBlock (failing 7 ++ healthy 40)).Ready 8 0x31 39 ∧
    (freshBlock (failing 8)).NoDevice := ⟨cached_ready 39, last_ready 39, witness_NoDevice⟩

theorem witness_InitStopsAtFirstError :
    ∀ k, k < 39 → (cachedBlock (healthy k ++ [.fail])).Discovers 0 0x40 ∧
      (cachedBlock (healthy k ++ [.fail])).CompletesFrom 0 k ∧ (cachedBlock (healthy k ++ [.fail])).outcome (0 + k) = .fail :=
  fun k _ => cached_fails k

theorem witness_InitLeavesKnownChannelsOff :
    (cachedBlock (healthy 39)).Ready 0 0x40 39 ∧ ∃ t, exec (.init 24) (cachedBlock (healthy 39)) = .next t :=
  ⟨cached_ready 39, exec_next _ _⟩

theorem witness_SetdutyWritesBlock :
    ((-1 : Int) < 0 ∧ (15 : Int) < 16) ∧ ((0 : Int) ≤ 0 ∧ (0 : Int) ≤ 15 ∧ (15 : Int) ≤ 15) ∧
    (cachedBlock (healthy 4)).Ready 0 0x40 4 ∧ (freshBlock (failing 7 ++ healthy 5)).Ready 8 0x31 4 ∧
    (freshBlock (failing 8)).NoDevice ∧
    (∀ k, k < 4 → (cachedBlock (healthy k ++ [.fail])).Discovers 0 0x40 ∧
      (cachedBlock (healthy k ++ [.fail])).CompletesFrom 0 k ∧ (cachedBlock (healthy k ++ [.fail])).outcome (0 + k) = .fail) :=
  ⟨by decide, by decide, cached_ready 4, last_ready 4, witness_NoDevice, fun k _ => cached_fails k⟩

theorem witness_SetdigWritesLevel :
    (0 : Int) ≤ 15 ∧ (15 : Int) ≤ 15 ∧ (cachedBlock (healthy 4)).Ready 0 0x40 4 := ⟨by decide, by decide, cached_ready 4⟩

theorem witness_MsetpowerDirectionThenDuty :
    ((⟨false, 0xFFFF⟩ : Percent).num = false ∧ (⟨true, 0x8000⟩ : Percent).num = true) ∧
    (cachedBlock (healthy 8)).Ready 0 0x40 8 ∧ (freshBlock (failing 8)).NoDevice ∧
    (∀ k, k < 8 → (cachedBlock (healthy k ++ [.fail])).Discovers 0 0x40 ∧
      (cachedBlock (healthy k ++ [.fail])).CompletesFrom 0 k ∧ (cachedBlock (healthy k ++ [.fail])).outcome (0 + k) = .fail) :=
  ⟨by decide, cached_ready 8, witness_NoDevice, fun k _ => cached_fails k⟩

/-- Four motors of which the second is refused: every operation settles. -/
theorem witness_Setpower4RunsEveryWheel_settles :
    ∃ s1 s2 s3 s4, Settles (motorSetPower .backLeft (some 0) (cachedBlock (healthy 24))) .ok s1 ∧
      Settles (motorSetPower .frontLeft none s1) (.err .invalidInput) s2 ∧
      Settles (motorSetPower .backRight (some 0) s2) .ok s3 ∧ Settles (motorSetPower .frontRight (some 0) s3) .ok s4 :=
  ⟨_, _, _, _, .inl ⟨rfl, rfl⟩, .inr ⟨_, rfl, rfl⟩, .inl ⟨rfl, rfl⟩, .inl ⟨rfl, rfl⟩⟩

theorem witness_Setpower4RunsEveryWheel :
    (let p : PerWheel (Option Int) := ⟨some 3200, some (-3200), some 96, none⟩
     anyNumeric p = true ∧
       (cachedBlock (healthy (transactions (wheelWrites State.reset.motors p)))).Ready 0 0x40
         (transactions (wheelWrites State.reset.motors p))) ∧
    ((⟨false, 0⟩ : Percent).num = false ∧ (⟨true, 0⟩ : Percent).num = true) ∧
    (freshBlock (failing 32)).ctl.addrValid = false ∧ (∀ j, j < 32 → (freshBlock (failing 32)).outcome j = .fail) :=
  ⟨⟨rfl, cached_ready _⟩, by decide, fresh_fails 32⟩

theorem witness_DriveMixesThenDrives :
    (cachedBlock (healthy 32)).Ready 0 0x40 32 ∧ (freshBlock (failing 7 ++ healthy 33)).Ready 8 0x31 32 ∧
    ((⟨true, 0x8000⟩ : Percent).num = true ∧ (⟨false, 0⟩ : Percent).num = false) ∧
    ((⟨true, 6400⟩ : Percent).value = some ((6400#16).toInt - (0#16).toInt - (0#16).toInt) ∧
      (⟨true, 6400⟩ : Percent).value = some ((6400#16).toInt + (0#16).toInt + (0#16).toInt)) ∧
    (∃ s1 s2 s3 s4, Settles (motorSetPower .backLeft (some 0) (freshBlock (failing 32))) (.err .deviceNotFound) s1 ∧
      Settles (motorSetPower .frontLeft (some 0) s1) (.err .deviceNotFound) s2 ∧
      Settles (motorSetPower .backRight (some 0) s2) (.err .deviceNotFound) s3 ∧
      Settles (motorSetPower .frontRight (some 0) s3) (.err .deviceNotFound) s4) :=
  ⟨cached_ready 32, last_ready 32, by decide, by decide,
    ⟨_, _, _, _, .inr ⟨_, rfl, rfl⟩, .inr ⟨_, rfl, rfl⟩, .inr ⟨_, rfl, rfl⟩, .inr ⟨_, rfl, rfl⟩⟩⟩

theorem witness_AllstopStopsWithLinesHigh :
    (cachedBlock (healthy 32)).Ready 0 0x40 32 ∧ (freshBlock (failing 7 ++ healthy 33)).Ready 8 0x31 32 :=
  ⟨cached_ready 32, last_ready 32⟩

theorem witness_CleanupWritesEverything :
    (cachedBlock (healthy 80)).Ready 0 0x40 80 ∧ (freshBlock (failing 7 ++ healthy 81)).Ready 8 0x31 80 :=
  ⟨cached_ready 80, last_ready 80⟩

theorem witness_CleanupNeverFails :
    ((cachedBlock (failing 164)).stuck = false ∧ (cachedBlock (failing 164)).ctl.addrValid = true ∧
      (cachedBlock (failing 164)).NeverHangsFor 164) ∧
    ((freshBlock (failing 160)).ctl.addrValid = false ∧ ∀ j, j < 160 → (freshBlock (failing 160)).outcome j = .fail) :=
  ⟨⟨rfl, rfl, fun k hk => by
      rw [outcome_of_bus (r := .fail) (List.getElem?_replicate_of_lt hk)]; decide⟩,
    fresh_fails 160⟩

theorem witness_ResponseLayout : ∃ t, exec .allstop (freshBlock (failing 32)) = .next t ∧ t.responses ≠ [] :=
  ⟨_, rfl, by decide⟩

theorem witness_CommandFrame :
    (cachedBlock []).stuck = false ∧ (cachedBlock []).ctl.addrValid = true ∧ ∃ t, exec .cleanup (cachedBlock []) = .next t :=
  ⟨rfl, rfl, exec_next _ _⟩

theorem witness_OnlyInitConfiguresFrequency :
    (∀ hz, Instr.allstop ≠ .init hz) ∧ (∃ t, exec .allstop (cachedBlock []) = .next t) ∧
    (∃ t, exec (.init 50) (cachedBlock (healthy 39)) = .next t) := ⟨by simp, exec_next _ _, exec_next _ _⟩

theorem witness_RegisterFrame :
    ((0x06 : Reg) ∉ blockRegs 1 ∧ (0x0E : Reg) ∉ blockRegs 1) ∧
    (0x06 : Reg) ∉ motorRegs (State.reset.motors.get .backLeft) ∧
    ((0x16 : Reg) ∉ knownRegs State.reset.motors ∧ (0x35 : Reg) ∉ knownRegs State.reset.motors) ∧
    ((0x05 : Reg).toNat < 0x06 ∧ 0x45 < (0x46 : Reg).toNat) ∧
    (0x16 : Reg) ∉ [0x00, 0x01, 0xFE] ++ knownRegs State.reset.motors := by decide

/-- Two states with different histories: the one has already run a command. -/
theorem witness_CommandsIgnoreHistory :
    let s := cachedBlock (healthy 4)
    let s' := issue 0x604000001400000000 (cachedBlock (healthy 4 ++ healthy 4))
    s.motors = s'.motors ∧ s.ctl.addrValid = s'.ctl.addrValid ∧ s.ctl.addr = s'.ctl.addr ∧ s.trace ≠ s'.trace ∧
    (∀ k, k < 4 → s.outcome k = s'.outcome k) := by decide

/-- The same with equal outcomes for ever: two states that differ in what is past alone. -/
theorem witness_CommandsIgnoreHistory_outcomes :
    let s := cachedBlock (healthy 4)
    let s' : State := { s with trace := [wr 0x00 0x10], dev := [(0x00, 0x10)], responses := [alone .ok] }
    s.motors = s'.motors ∧ s.ctl.addrValid = s'.ctl.addrValid ∧ s.ctl.addr = s'.ctl.addr ∧
    (∀ k, s.outcome k = s'.outcome k) ∧ (∃ t, exec .allstop s = .next t) ∧ ∃ t, exec .allstop s' = .next t :=
  ⟨rfl, rfl, rfl, fun _ => rfl, exec_next _ _, exec_next _ _⟩

/-- No address cached, and different stale values in `CTL.addr`. -/
theorem witness_CommandsIgnoreHistory_stale :
    let s := freshBlock (healthy 5)
    let s' : State := { s with ctl := { s.ctl with addr := 0x31 } }
    s.motors = s'.motors ∧ s.ctl.addrValid = s'.ctl.addrValid ∧ (s.ctl.addrValid = true → s.ctl.addr = s'.ctl.addr) ∧
    s.ctl.addr ≠ s'.ctl.addr ∧ ∀ k, s.outcome k = s'.outcome k :=
  ⟨rfl, rfl, fun h => (by cases h), by decide, fun _ => rfl⟩

theorem witness_DevIsLastCompletedWrite : (0x01 : Nat) ≠ (0x00 : Reg).toNat := by decide

theorem witness_SetdutyBlockInDev :
    ((0 : Int) ≤ 0 ∧ (0 : Int) ≤ 15 ∧ (15 : Int) ≤ 15) ∧ (cachedBlock (healthy 4)).Ready 0 0x40 4 ∧
    (∀ k, k < 4 → Memory.wf (cachedBlock (healthy k ++ [.fail])).dev = true ∧
      (cachedBlock (healthy k ++ [.fail])).Discovers 0 0x40 ∧ (cachedBlock (healthy k ++ [.fail])).CompletesFrom 0 k ∧
      (cachedBlock (healthy k ++ [.fail])).outcome (0 + k) = .fail) :=
  ⟨by decide, cached_ready 4, fun k _ => ⟨rfl, cached_fails k⟩⟩

theorem witness_ConstructionWithoutInit :
    let x : XCfg := { XCfg.default with ovr := ⟨some (-1), none, some 0, some 1⟩ }
    (asking deadBlock (.construct x)).stuck = false ∧ (asking deadBlock (.construct x)).host = [.construct x] ∧
    x.legal = true ∧ x.init = false ∧ x.ovr.get .backLeft = some (-1) ∧ x.ovr.get .frontLeft = none := by decide

theorem witness_ConstructionChecksParameters :
    XCfg.legal { XCfg.default with maxpct := .all 6400, deadband := .all 6400, hz := 1 } = true ∧
    XCfg.legal { XCfg.default with maxpct := (PerWheel.all 0).set .frontRight 6401 } = false ∧
    XCfg.legal { XCfg.default with deadband := (PerWheel.all 0).set .backLeft 8191 } = false ∧
    XCfg.legal { XCfg.default with hz := 0 } = false ∧
    (let x : XCfg := { XCfg.default with init := true, hz := 12208 }
     x.legal = true ∧ x.init = true ∧ 12207 < x.hz.toNat ∧ (asking deadBlock (.construct x)).stuck = false ∧
       (asking deadBlock (.construct x)).host = [.construct x]) := by decide

/-- A construction that runs INIT. -/
theorem witness_ConstructionTimeInit :
    (let x : XCfg := { XCfg.default with init := true }
     x.legal = true ∧ x.init = true ∧ 24 ≤ x.hz.toNat ∧ x.hz.toNat ≤ 12207) ∧
    (fresh (motorsOf XCfg.default) (freshBlock (failing 8))).NoDevice ∧
    (fresh (motorsOf XCfg.default) (freshBlock (failing 7 ++ healthy 40))).Ready 8 0x31 39 ∧
    (∀ k, k < 39 → ∃ s, (fresh (motorsOf XCfg.default) s).Discovers 1 0x40 ∧
      (fresh (motorsOf XCfg.default) s).CompletesFrom 1 k ∧ (fresh (motorsOf XCfg.default) s).outcome (1 + k) = .fail) :=
  ⟨by decide, witness_NoDevice, last_ready 39, fun k _ => ⟨freshBlock (healthy (k + 1) ++ [BusReply.fail]), first_fails k⟩⟩

theorem witness_ConstructionForgetsThePast :
    let s := cachedBlock (healthy 4)
    let s' : State := { deadBlock with bus := healthy 4 }
    s.host = s'.host ∧ s.bus = s'.bus ∧ s.issued = s'.issued ∧ s ≠ s' := by decide

/-- A state with a command to run, in which every invariant holds. -/
def working : State := asking (cachedBlock (healthy 39)) (.command 0x801F40000000000000)

theorem working_steps : ∃ t, step working = .next t ∧ t.trace ≠ [] := ⟨_, rfl, by decide⟩

theorem witness_StepKeepsDevSummary : DevInv working := ⟨rfl, rfl⟩

theorem witness_StepKeepsMotorFile :
    MotorsInv working ∧ ∀ x rest, working.host ≠ .construct x :: rest := by
  refine ⟨fun w => ?_, fun x rest h => by simp [working, asking] at h⟩
  cases w <;> decide

theorem witness_StepKeepsControllerState : CtlInv working := by unfold CtlInv; decide

theorem witness_StepKeepsPhase : PhaseInv working := rfl

/-- A working block, and one that is stuck. -/
theorem witness_StepKeepsStuckMeaning :
    StuckInv working ∧ StuckInv (issue 0x604000001400000000 (cachedBlock (healthy 1 ++ [.never]))) := by
  refine ⟨⟨by decide, ⟨fun h => (by cases h), ?_⟩⟩, ⟨by decide, ⟨fun _ => ?_, fun _ => rfl⟩⟩⟩
  · rintro ⟨e, h, _⟩
    cases h
  · exact ⟨.write 0x40 0x1B 0x00 .pending, by decide, rfl⟩

theorem witness_StepKeepsTraceShapes : ShapeInv working := ⟨fun _ h => (by cases h), fun _ => by decide⟩

theorem witness_StepKeepsPrescalerGuarded : PrescalerGuarded working.trace ∧ RestartDelayed working.trace := by
  constructor
  · intro before after dev v f h
    simp [working, asking, cachedBlock, State.reset] at h
  · intro before after dev f h
    simp [working, asking, cachedBlock, State.reset] at h

end Sys2Proof.Tests
end

/-! PROOFS of the family of the state: what a command changes and keeps, what it depends on, its response, and what a
step and a construction do to the motor file. -/

section
namespace Sys2Proof.Machine

/-! ## The motor file -/

theorem Wheel.forall_mem_order {P : Wheel → Prop} : (∀ w ∈ Wheel.order, P w) ↔ ∀ w, P w :=
  ⟨fun h w => h w (by cases w <;> decide), fun h w _ => h w⟩

/-- The construction checks are R146's bounds. -/
theorem XCfg.legal_iff (x : XCfg) : x.legal = true ↔
    (∀ w, (x.maxpct.get w).toNat ≤ 6400 ∧ (x.deadband.get w).toNat ≤ 6400) ∧ 0 < x.hz.toNat := by
  have hz : x.hz ≠ 0 ↔ 0 < x.hz.toNat := by
    rw [Nat.pos_iff_ne_zero, ne_eq, ne_eq, BitVec.toNat_eq]; rfl
  simp only [XCfg.legal, limitLegal, List.all_eq_true, Bool.and_eq_true, Wheel.forall_mem_order, decide_eq_true_eq, hz]
  exact Iff.rfl

@[simp] theorem motorsOf_get (x : XCfg) (w : Wheel) : (motorsOf x).get w = motorOf x w := by cases w <;> rfl

/-- The invariant of the motor file looks at the motor file alone. -/
theorem MotorsInv.of_motors {s t : State} (hm : t.motors = s.motors) (h : MotorsInv s) : MotorsInv t := by
  unfold MotorsInv at *
  rwa [hm]

/-- A construction with legal parameters starts with a legal motor file. -/
theorem fresh_motorsInv {x : XCfg} (hx : x.legal = true) (s : State) : MotorsInv (fresh (motorsOf x) s) := fun w => by
  obtain ⟨hlimits, -⟩ := x.legal_iff.1 hx
  simp only [fresh, motorsOf_get]
  exact ⟨rfl, rfl, hlimits w⟩

/-- Every step keeps the motor file legal. -/
theorem step_keeps_motorsInv {s t : State} (hs : MotorsInv s) (h : step s = .next t) : MotorsInv t :=
  step_keeps (P := MotorsInv)
    (same := fun _ _ hm _ _ _ _ _ => MotorsInv.of_motors hm)
    (start := fun _ s hx => fresh_motorsInv hx s)
    (moves := fun _ _ _ hm => MotorsInv.of_motors hm.frame.1)
    (phase := fun _ _ => MotorsInv.of_motors rfl)
    (report := fun _ _ => MotorsInv.of_motors rfl)
    hs h

/-! ## What a command changes -/

/-- A command of a working block moves it, then ends stuck, or not stuck with one response. -/
theorem exec_moves {i : Instr} {s t : State} (hs : s.stuck = false) (h : exec i s = .next t) :
    ∃ u, Moves LegalWrite (configures i) s u ∧
      ((u.stuck = true ∧ t = u) ∨ (u.stuck = false ∧ ∃ r, t = u.respond r)) := by
  have runs := operation_legal i hs
  exact ⟨_, runs.moves, by rw [runs.stuck]; exact exec_end h⟩

theorem exec_motors {i : Instr} {s t : State} (hs : s.stuck = false) (h : exec i s = .next t) : t.motors = s.motors := by
  obtain ⟨u, hm, ⟨-, rfl⟩ | ⟨-, r, rfl⟩⟩ := exec_moves hs h
  · exact hm.frame.1
  · exact hm.frame.1

/-- A step that serves no construction leaves the motor file alone. -/
theorem step_motors {s t : State} (hc : ∀ x rest, s.host ≠ .construct x :: rest) (h : step s = .next t) :
    t.motors = s.motors := by
  obtain rfl | ⟨-, x, rest, hh, -⟩ | ⟨hs, c, rest, -, ⟨-, rfl⟩ | ⟨-, ⟨why, -, rfl⟩ | ⟨i, -, he⟩⟩⟩ := step_cases h
  · rfl
  · exact absurd hh (hc x rest)
  · rfl
  · rfl
  · exact exec_motors (s := s.withHost rest) hs he

/-- Settles O55: the invariant holds at the start of every construction and every step keeps it; only a construction
writes the file. -/
theorem stepKeepsMotorFile : Obligations.StepKeepsMotorFile := by
  unfold Obligations.StepKeepsMotorFile
  exact ⟨fun _ _ => step_keeps_motorsInv, fun _ _ => step_motors⟩

/-- While no address is cached, `CTL.addr` stays. -/
theorem Moves.addr_of_uncached {W : Reg → Byte → Prop} {F : Prop} {s t : State} (h : Moves W F s t)
    (hv : t.ctl.addrValid = false) : t.ctl.addr = s.ctl.addr := by
  induction h with
  | refl => rfl
  | tail _ hm ih =>
    cases hm with
    | cached a hs hu ha => cases hv
    | _ => exact ih hv

/-- Settles O43: the frame of the moves, and the response that ends them. -/
theorem commandFrame : Obligations.CommandFrame := by
  unfold Obligations.CommandFrame
  intro i s t hs h
  obtain ⟨u, hm, hend⟩ := exec_moves hs h
  obtain ⟨hmotors, hphase, hresponses, hconstruction, hhost⟩ := hm.frame
  obtain ⟨hu, rfl⟩ | ⟨hu, r, rfl⟩ := hend
  · exact ⟨hmotors, hphase, hconstruction, hhost, hm.events, hm.addr, hm.addr_of_uncached, .inl ⟨hu, hresponses⟩⟩
  · exact ⟨hmotors, hphase, hconstruction, hhost, hm.events, hm.addr, hm.addr_of_uncached,
      .inr ⟨hu, r, by rw [State.respond_responses, hresponses]⟩⟩

theorem configures_iff {i : Instr} : configures i ↔ ∃ hz, i = .init hz := by
  cases i <;> simp [configures]

/-- Settles O44: without leave to configure the moves keep the frequency, and INIT records its own operand. -/
theorem onlyInitConfiguresFrequency : Obligations.OnlyInitConfiguresFrequency := by
  unfold Obligations.OnlyInitConfiguresFrequency
  constructor
  · intro i s t hs hi h
    obtain ⟨u, hm, hend⟩ := exec_moves hs h
    rw [show configures i = False from eq_false fun hc => (configures_iff.1 hc).elim hi] at hm
    obtain ⟨-, rfl⟩ | ⟨-, r, rfl⟩ := hend
    · exact hm.freq
    · exact hm.freq
  · intro hz s t hs h
    have hf := initController_freq hs hz
    obtain ⟨-, rfl⟩ | ⟨-, r, rfl⟩ := exec_end h
    · exact hf
    · exact hf

/-! ## What a command depends on -/

/-- From two states, two commands' ends add the same events and the same responses, and agree again. -/
structure SameReply (s s' t t' : State) : Prop where
  agree     : Agree t t'
  events    : ∃ evs, t.trace = s.trace ++ evs ∧ t'.trace = s'.trace ++ evs
  responses : ∃ rs, t.responses = s.responses ++ rs ∧ t'.responses = s'.responses ++ rs

section
variable {α : Type} {s s' : State} {r r' : OpResult α}

/-- Two operations that ran alike and end with no response. -/
theorem Alike.silent (h : Alike s s' r r') : SameReply s s' r.state r'.state :=
  ⟨h.agree, h.events, [], by simp [h.responses], by simp [h.responses']⟩

/-- Two operations that ran alike and end with the same response. -/
theorem Alike.replied (h : Alike s s' r r') (x : Response) : SameReply s s' (r.state.respond x) (r'.state.respond x) :=
  ⟨⟨h.agree.motors, h.agree.valid, h.agree.addr, h.agree.outcome⟩, h.events, [x], by simp [h.responses],
    by simp [h.responses']⟩

/-- Two operations end the same way in one of three ways. -/
theorem SameEnd.cases (h : SameEnd r r') :
    (∃ v t t', r = .done v t ∧ r' = .done v t') ∨ (∃ e t t', r = .raise e t ∧ r' = .raise e t') ∨
      ∃ t t', r = .hang t ∧ r' = .hang t' := by
  cases r with
  | done v t =>
    cases r' with
    | done v' t' => obtain rfl : v = v' := h; exact .inl ⟨v, t, t', rfl, rfl⟩
    | raise | hang => exact h.elim
  | raise e t =>
    cases r' with
    | raise e' t' => obtain rfl : e = e' := h; exact .inr (.inl ⟨e, t, t', rfl, rfl⟩)
    | done | hang => exact h.elim
  | hang t =>
    cases r' with
    | hang t' => exact .inr (.inr ⟨t, t', rfl, rfl⟩)
    | done | raise => exact h.elim

theorem finish_sameReply (mk : Status → Response) (h : Alike s s' r r') :
    SameReply s s' (finish mk r) (finish mk r') := by
  obtain ⟨v, t, t', rfl, rfl⟩ | ⟨e, t, t', rfl, rfl⟩ | ⟨t, t', rfl, rfl⟩ := h.ends.cases
  · exact h.replied (mk .ok)
  · exact h.replied (mk (.err e))
  · exact h.silent

theorem finishWheels_sameReply {r r' : OpResult (PerWheel Status)} (h : Alike s s' r r') :
    SameReply s s' (finishWheels r) (finishWheels r') := by
  obtain ⟨wst, t, t', rfl, rfl⟩ | ⟨e, t, t', rfl, rfl⟩ | ⟨t, t', rfl, rfl⟩ := h.ends.cases
  · exact h.replied (.wheels wst)
  · exact h.replied (.wheels (.all (.err e)))
  · exact h.silent

end

theorem cleanupAll_alike {s s' : State} (h : Agree s s') : Alike s s' (cleanupAll s) (cleanupAll s') :=
  (cleanupLoop_alike allChannels h).bind fun _ _ _ _ => lowerLoop_alike Wheel.order

/-- A command run from two states that agree. -/
theorem exec_sameReply (i : Instr) {s s' t t' : State} (h : Agree s s') (ht : exec i s = .next t)
    (ht' : exec i s' = .next t') : SameReply s s' t t' := by
  cases i <;> cases ht <;> cases ht'
  case drive | setpower4 | allstop => exact finishWheels_sameReply (wheelLoop_alike _ Wheel.order _ h)
  case cleanup => exact finish_sameReply .single (cleanupAll_alike h)
  case msetpower w p => exact finish_sameReply (.motor w) (motorSetPower_alike w _ h)
  case setduty | setdig => exact finish_sameReply .single (setDuty_alike _ _ h)
  case init hz => exact finish_sameReply .single (initController_alike hz h)

/-- Settles O46: two runs of a command from states that agree go alike. -/
theorem commandsIgnoreHistory : Obligations.CommandsIgnoreHistory := by
  unfold Obligations.CommandsIgnoreHistory
  intro i s s' t t' hmotors hvalid haddr houtcome ht ht'
  obtain ⟨agree, events, responses⟩ := exec_sameReply i ⟨hmotors, hvalid, haddr, houtcome⟩ ht ht'
  exact ⟨events, responses, agree.valid, agree.addr⟩

/-! ## What a command answers -/

/-- The first failure is the status of a wheel before which every wheel is OK; when it is OK, so is every wheel. -/
theorem firstFailure_spec (wst : PerWheel Status) :
    (∃ w, wst.get w = firstFailure wst ∧ ∀ w', Wheel.order.idxOf w' < Wheel.order.idxOf w → wst.get w' = .ok) ∧
    (firstFailure wst = .ok → ∀ w, wst.get w = .ok) := by
  unfold firstFailure
  split_ifs with bl fl br
  · exact ⟨⟨.backLeft, rfl, fun w' hw => absurd hw (Nat.not_lt_zero _)⟩, fun h => absurd h bl⟩
  · refine ⟨⟨.frontLeft, rfl, fun w' hw => ?_⟩, fun h => absurd h fl⟩
    cases w' <;> simp_all [Wheel.order, PerWheel.get]
  · refine ⟨⟨.backRight, rfl, fun w' hw => ?_⟩, fun h => absurd h br⟩
    cases w' <;> simp_all [Wheel.order, PerWheel.get]
  · refine ⟨⟨.frontRight, rfl, fun w' hw => ?_⟩, fun h w => ?_⟩
    · cases w' <;> simp_all [Wheel.order, PerWheel.get]
    · cases w <;> simp_all [PerWheel.get]

/-- The layout of a four-wheel response (R17). -/
theorem Response.wheels_layout (wst : PerWheel Status) :
    ((wheels wst).st = .ok ↔ ∀ w, (wheels wst).wst.get w = .ok) ∧
    ((wheels wst).st ≠ .ok → ∃ w, (wheels wst).wst.get w = (wheels wst).st ∧
      ∀ w', Wheel.order.idxOf w' < Wheel.order.idxOf w → (wheels wst).wst.get w' = .ok) := by
  obtain ⟨⟨w, hw, before⟩, all⟩ := firstFailure_spec wst
  exact ⟨⟨all, fun h => hw.symm.trans (h w)⟩, fun _ => ⟨w, hw, before⟩⟩

/-- The layout of MSETPOWER's response (R17). -/
theorem Response.motor_layout (w : Wheel) (st : Status) :
    (motor w st).wst.get w = (motor w st).st ∧ ∀ w', w' ≠ w → (motor w st).wst.get w' = .ok := by
  simp +contextual [motor, PerWheel.get_set]

/-- The layout of every other response (R17). -/
theorem Response.single_layout (st : Status) : ∀ w, (single st).wst.get w = .ok := PerWheel.get_all _

section
variable {α : Type} {s : State} {L : Response → Prop}

/-- A command ends with no response, or with one its status makes. -/
theorem finish_responses {mk : Status → Response} (hL : ∀ st, L (mk st)) {r : OpResult α}
    (h : r.state.responses = s.responses) :
    (finish mk r).responses = s.responses ∨ ∃ x, (finish mk r).responses = s.responses ++ [x] ∧ L x := by
  cases r with
  | done v t => exact .inr ⟨mk .ok, congrArg (· ++ _) h, hL _⟩
  | raise e t => exact .inr ⟨mk (.err e), congrArg (· ++ _) h, hL _⟩
  | hang t => exact .inl h

/-- A four-wheel command ends with no response, or with one its wheels' statuses make. -/
theorem finishWheels_responses (hL : ∀ wst, L (.wheels wst)) {r : OpResult (PerWheel Status)}
    (h : r.state.responses = s.responses) :
    (finishWheels r).responses = s.responses ∨ ∃ x, (finishWheels r).responses = s.responses ++ [x] ∧ L x := by
  cases r with
  | done wst t => exact .inr ⟨.wheels wst, congrArg (· ++ _) h, hL _⟩
  | raise e t => exact .inr ⟨.wheels (.all (.err e)), congrArg (· ++ _) h, hL _⟩
  | hang t => exact .inl h

end

/-- No operation puts a response on the port. -/
theorem operation_responses (i : Instr) (s : State) : (operation i s).2.state.responses = s.responses := by
  have same : Agree s s := ⟨rfl, rfl, fun _ => rfl, fun _ => rfl⟩
  cases i with
  | drive | setpower4 | allstop => exact (wheelLoop_alike _ Wheel.order _ same).responses
  | cleanup => exact (cleanupAll_alike same).responses
  | msetpower w p => exact (motorSetPower_alike w _ same).responses
  | setduty | setdig => exact (setDuty_alike _ _ same).responses
  | init hz => exact (initController_alike hz same).responses

/-- Settles O41: each command ends with a response of its own layout, or with none. -/
theorem responseLayout : Obligations.ResponseLayout := by
  unfold Obligations.ResponseLayout
  intro i s t h
  have hr := operation_responses i s
  cases i <;> cases h
  case drive | setpower4 | allstop => exact finishWheels_responses Response.wheels_layout hr
  case msetpower w p => exact finish_responses (Response.motor_layout w) hr
  case cleanup | setduty | setdig | init => exact finish_responses Response.single_layout hr

/-! ## Construction without INIT -/

/-- A construction with legal parameters and `init` 0 opens the port of the fresh block. -/
theorem construct_eq_operational {x : XCfg} (hx : x.legal = true) (hi : x.init = false) (s : State) :
    construct x s = (fresh (motorsOf x) s).operational := by
  simp [construct, hx, hi]

/-- The wiring's default polarity is negative on the right side (R11). -/
theorem wiring_polneg (w : Wheel) : (config.wiring.get w).polneg = decide (w = .backRight ∨ w = .frontRight) := by
  cases w <;> rfl

/-- Settles O49: the step's result is the opened fresh block, whose fields are read off. -/
theorem constructionWithoutInit : Obligations.ConstructionWithoutInit := by
  unfold Obligations.ConstructionWithoutInit
  intro s x rest hs hh hx hi
  have hstep := step_construct hs hh
  rw [construct_eq_operational hx hi] at hstep
  refine ⟨_, hstep, rfl, rfl, rfl, rfl, fun _ => rfl, rfl, rfl, rfl, rfl, rfl, rfl, rfl, rfl, ?limits, ?override, ?dflt⟩
  all_goals simp only [State.operational, State.reportConstruction_motors, State.setPhase_motors, fresh, motorsOf_get]
  case limits => exact fun w => ⟨rfl, rfl⟩
  case override => intro w p hp; simp [motorOf, hp, polarityBit]
  case dflt => intro w hp; simp [motorOf, hp, polarityBit, wiring_polneg]

/-! ## A step that runs a command -/

/-- A legal word of an idle open port: the step takes the request and is the command's meaning. -/
theorem step_exec {s : State} {c : CmdWord} {rest : List HostRequest} {i : Instr} (hs : s.stuck = false)
    (hp : s.ctl.phase = .operational) (hh : s.host = .command c :: rest) (hd : decode c = .legal i) :
    step s = exec i (s.withHost rest) := by
  rw [step_command hs hh]
  simp only [dispatch, hp, hd]

/-- The decoder reads back the word of a well-formed instruction. -/
theorem decode_encode {i : Instr} (h : i.wellFormed = true) : decode (encode i) = .legal i := by
  cases i with
  | setduty ch duty =>
    simp only [Instr.wellFormed, Bool.and_eq_true] at h
    simp [encode, decode_packWord, decodeFields, channelOfSlot_slot h.1, dutyOfSlot_slot h.2]
  | setdig ch high =>
    simp [encode, decode_packWord, decodeFields, channelOfSlot_slot (show channelInRange ch = true from h)]
  | _ => simp [encode, decode_packWord, decodeFields, emptySlot]

/-- A table row's word that has an instruction is legal. -/
theorem decode_of_decodeTableWord {nbits w : Nat} {i : Instr} (h : decodeTableWord nbits w = some i) :
    decode (BitVec.ofNat 72 (w % 2 ^ nbits)) = .legal i := by
  unfold decodeTableWord at h
  split at h
  · next hd => rw [hd, Option.some.inj h]
  · cases h

/-- Settles O8: by the word's decoding, by the decoding of an encoded instruction, and by what `withFetchWord` sets
up. -/
theorem stepRunsDecodedCommand : Obligations.StepRunsDecodedCommand := by
  unfold Obligations.StepRunsDecodedCommand
  refine ⟨fun s c rest i hs hp hh hd => step_exec hs hp hh hd,
    fun s rest i hs hp hh hw => step_exec hs hp hh (decode_encode hw), fun s w i hw => ?_⟩
  exact step_exec (s := s.withFetchWord 72 w) rfl rfl rfl (decode_of_decodeTableWord hw)

/-! ## Reset -/

/-- The machine's reset state is the construction with the default parameters (log 6). -/
theorem reset_eq_construct : State.reset = construct XCfg.default State.reset := by
  rw [construct_eq_operational (by decide) rfl]
  rfl

/-- The default motor file is legal. -/
theorem reset_motorsInv : MotorsInv State.reset :=
  (fresh_motorsInv (x := XCfg.default) (by decide) State.reset).of_motors rfl

/-- Settles O53: nothing is cached, configured or traced at reset, and the motor file is the default one. -/
theorem resetMeetsInvariants : Obligations.ResetMeetsInvariants := by
  unfold Obligations.ResetMeetsInvariants
  have ctl : CtlInv State.reset := ⟨nofun, nofun⟩
  have stuck : StuckInv State.reset := ⟨nofun, nofun, nofun⟩
  have shape : ShapeInv State.reset := ⟨nofun, nofun⟩
  have guarded : PrescalerGuarded State.reset.trace := fun before after dev v f h => by
    simp [State.reset] at h
  have delayed : RestartDelayed State.reset.trace := fun before after dev f h => by
    simp [State.reset] at h
  exact ⟨⟨rfl, rfl⟩, reset_motorsInv, ctl, rfl, stuck, shape, guarded, delayed, rfl, rfl, rfl, rfl, fun _ => rfl,
    reset_eq_construct⟩

end Sys2Proof.Machine
end

/-! PROOFS of the family of the memory map: what every step keeps of DEV, the controller state, the phase and the stuck
condition; what a transaction that never completes does; and which registers each command leaves alone. -/

section
namespace Sys2Proof.Machine

/-! ## DEV and the trace -/

/-- Events added to the trace and run over DEV keep it the summary of the trace. -/
theorem DevInv.of_events {s t : State} {evs : List Event} (h : DevInv s) (htrace : t.trace = s.trace ++ evs)
    (hdev : t.dev = evs.foldl Event.applyDev s.dev) : DevInv t := by
  have hsum : t.dev = devOfTrace t.trace := by
    rw [hdev, h.2, htrace, devOfTrace, devOfTrace, List.foldl_append]
  exact ⟨hsum ▸ devOfTrace_wf _, hsum⟩

/-- The invariant of DEV looks at DEV and the trace alone. -/
theorem DevInv.congr {s t : State} (htrace : t.trace = s.trace) (hdev : t.dev = s.dev) (h : DevInv s) : DevInv t :=
  h.of_events (evs := []) (by simp [htrace]) hdev

/-- Settles O54: a construction starts with nothing in either, and every operation adds its events to both. -/
theorem stepKeepsDevSummary : Obligations.StepKeepsDevSummary := by
  unfold Obligations.StepKeepsDevSummary
  intro s t hs h
  exact step_keeps (P := DevInv)
    (same := fun _ _ _ _ htrace hdev _ _ => DevInv.congr htrace hdev)
    (start := fun _ _ _ => ⟨rfl, rfl⟩)
    (moves := fun _ _ _ hm hP => let ⟨_, htrace, hdev⟩ := hm.events; hP.of_events htrace hdev)
    (phase := fun _ _ => DevInv.congr rfl rfl)
    (report := fun _ _ => DevInv.congr rfl rfl)
    hs h

/-! ## The controller state -/

/-- The invariant of the controller state does not look at the phase. -/
theorem CtlInv.congr {s t : State} (hvalid : t.ctl.addrValid = s.ctl.addrValid) (haddr : t.ctl.addr = s.ctl.addr)
    (hfvalid : t.ctl.freqValid = s.ctl.freqValid) (hfreq : t.ctl.freq = s.ctl.freq) (h : CtlInv s) : CtlInv t := by
  unfold CtlInv at *
  rwa [hvalid, haddr, hfvalid, hfreq]

/-- A move caches a candidate, configures a legal frequency, or leaves both alone. -/
theorem Move.ctlInv {W : Reg → Byte → Prop} {F : Prop} {s t : State} (hm : Move W F s t) (h : CtlInv s) : CtlInv t := by
  obtain ⟨haddr, hfreq⟩ := h
  cases hm with
  | cached a hs hv ha => exact ⟨fun _ => ha, hfreq⟩
  | configured hz hs hF hl => exact ⟨haddr, fun _ => freqLegal_iff.1 hl⟩
  | _ => exact ⟨haddr, hfreq⟩

theorem Moves.ctlInv {W : Reg → Byte → Prop} {F : Prop} {s t : State} (hm : Moves W F s t) (h : CtlInv s) :
    CtlInv t := by
  induction hm with
  | refl => exact h
  | tail _ hstep ih => exact hstep.ctlInv ih

/-- Settles O56: a construction starts with nothing cached or configured, and every move keeps the invariant. -/
theorem stepKeepsControllerState : Obligations.StepKeepsControllerState := by
  unfold Obligations.StepKeepsControllerState
  intro s t hs h
  exact step_keeps (P := CtlInv)
    (same := fun s t _ hctl _ _ _ _ => CtlInv.congr (by rw [hctl]) (by rw [hctl]) (by rw [hctl]) (by rw [hctl]))
    (start := fun _ _ _ => ⟨nofun, nofun⟩)
    (moves := fun _ _ _ hm => hm.ctlInv)
    (phase := fun _ _ => CtlInv.congr rfl rfl rfl rfl)
    (report := fun _ _ => CtlInv.congr rfl rfl rfl rfl)
    hs h

/-! ## The phase -/

/-- A construction-time INIT leaves the phase and the construction result of the fresh block, and is stuck exactly when
it hangs. -/
theorem initController_fresh (hz : BitVec 16) (m : PerWheel MotorCfg) (s : State) :
    (initController hz (fresh m s)).state.ctl.phase = .constructing ∧
    (initController hz (fresh m s)).state.construction = none ∧
    (initController hz (fresh m s)).state.stuck = (initController hz (fresh m s)).hangs := by
  have runs := initController_legal (s := fresh m s) rfl hz
  obtain ⟨-, hphase, -, hconstruction, -⟩ := runs.moves.frame
  exact ⟨hphase, hconstruction, runs.stuck⟩

/-- However a construction ends, the phase agrees with its result. -/
theorem construct_phaseInv (x : XCfg) (s : State) : PhaseInv (construct x s) := by
  obtain ⟨hphase, hnone, hstuck⟩ := initController_fresh x.hz (motorsOf x) s
  obtain ⟨-, e⟩ | ⟨-, -, e⟩ | ⟨-, -, ⟨u, t, hr, e⟩ | ⟨err, t, hr, e⟩ | ⟨t, hr, e⟩⟩ := construct_cases x s
  · rw [e]; exact ⟨rfl, .rangeError, rfl⟩
  · rw [e]; exact (rfl : some Status.ok = some .ok)
  · rw [e]; exact (rfl : some Status.ok = some .ok)
  · rw [hr] at hstuck
    rw [e]; exact ⟨hstuck, err, rfl⟩
  · rw [hr] at hphase hnone hstuck
    rw [e]
    unfold PhaseInv
    rw [show t.ctl.phase = .constructing from hphase]
    exact ⟨hnone, hstuck⟩

/-- The invariant of the phase looks at the phase, the construction result and the stuck condition alone. -/
theorem PhaseInv.congr {s t : State} (hphase : t.ctl.phase = s.ctl.phase) (hconstruction : t.construction = s.construction)
    (hstuck : t.stuck = s.stuck) (h : PhaseInv s) : PhaseInv t := by
  unfold PhaseInv at *
  rwa [hphase, hconstruction, hstuck]

/-- In an operational block the stuck condition does not matter. -/
theorem phaseInv_iff_of_operational {s : State} (hphase : s.ctl.phase = .operational) :
    PhaseInv s ↔ s.construction = some .ok := by
  unfold PhaseInv
  rw [hphase]

/-- A command of an operational block keeps the phase and the construction result. -/
theorem exec_phaseInv {i : Instr} {s t : State} (hs : s.stuck = false) (hp : s.ctl.phase = .operational)
    (h : exec i s = .next t) (hP : PhaseInv s) : PhaseInv t := by
  obtain ⟨-, hphase, hconstruction, -⟩ := commandFrame i s t hs h
  rw [phaseInv_iff_of_operational (hphase.trans hp), hconstruction]
  exact (phaseInv_iff_of_operational hp).1 hP

/-- Settles O57: by what a construction ends in, and by the frame of commands. -/
theorem stepKeepsPhase : Obligations.StepKeepsPhase := by
  unfold Obligations.StepKeepsPhase
  intro s t hs h
  obtain rfl | ⟨-, x, rest, -, rfl⟩ | ⟨hstuck, c, rest, -, ⟨-, rfl⟩ | ⟨hp, ⟨why, -, rfl⟩ | ⟨i, -, he⟩⟩⟩ := step_cases h
  · exact hs
  · exact construct_phaseInv x _
  · exact hs.congr rfl rfl rfl
  · exact hs.congr rfl rfl rfl
  · exact exec_phaseInv (s := s.withHost rest) hstuck hp he (hs.congr rfl rfl rfl)

/-! ## The stuck condition -/

/-- The invariant of the stuck condition looks at it and at the trace alone. -/
theorem StuckInv.congr {s t : State} (htrace : t.trace = s.trace) (hstuck : t.stuck = s.stuck) (h : StuckInv s) :
    StuckInv t := by
  unfold StuckInv at *
  rwa [htrace, hstuck]

/-- A block that is not stuck has no event that waits for ever. -/
theorem stuckInv_iff_of_working {s : State} (hs : s.stuck = false) :
    StuckInv s ↔ ∀ e ∈ s.trace, Event.isPending e = false := by
  unfold StuckInv
  rw [hs]
  obtain hnil | ⟨evs, e, hsnoc⟩ := s.trace.eq_nil_or_concat
  · simp [hnil]
  · simp [hsnoc, or_imp, forall_and]

/-- A stuck block has one event that waits for ever, and it is the last. -/
theorem stuckInv_iff_of_hung {s : State} {evs : List Event} {e : Event} (hs : s.stuck = true) (htrace : s.trace = evs ++ [e]) :
    StuckInv s ↔ (∀ x ∈ evs, Event.isPending x = false) ∧ Event.isPending e = true := by
  simp [StuckInv, hs, htrace]

/-- Moves of a working block keep the meaning of the stuck condition. -/
theorem Moves.stuckInv {W : Reg → Byte → Prop} {F : Prop} {s t : State} (hm : Moves W F s t) (hs : s.stuck = false)
    (h : StuckInv s) : StuckInv t := by
  have old := (stuckInv_iff_of_working hs).1 h
  obtain ⟨working, hung⟩ := hm.pending hs
  cases ht : t.stuck with
  | false =>
    obtain ⟨evs, htrace, new⟩ := working ht
    rw [stuckInv_iff_of_working ht, htrace]
    exact List.forall_mem_append.2 ⟨old, new⟩
  | true =>
    obtain ⟨evs, e, htrace, hlast, new⟩ := hung ht
    exact (stuckInv_iff_of_hung ht htrace).2 ⟨List.forall_mem_append.2 ⟨old, new⟩, hlast⟩

/-- Settles O58: a construction starts with an empty trace, and the moves of an operation keep the invariant. -/
theorem stepKeepsStuckMeaning : Obligations.StepKeepsStuckMeaning := by
  unfold Obligations.StepKeepsStuckMeaning
  intro s t hs h
  exact step_keeps (P := StuckInv)
    (same := fun _ _ _ _ htrace _ hstuck _ => StuckInv.congr htrace hstuck)
    (start := fun _ _ _ => ⟨nofun, nofun, nofun⟩)
    (moves := fun _ _ hu hm => hm.stuckInv hu)
    (phase := fun _ _ => StuckInv.congr rfl rfl)
    (report := fun _ _ => StuckInv.congr rfl rfl)
    hs h

/-! ## A transaction that never completes -/

theorem memReadAt_never {s : State} (h : s.outcome 0 = .never) (a : Addr) (reg : Reg) :
    memReadAt a reg s = .hang (s.advance.logEvent (.read a reg .pending)).hang := by
  simp [memReadAt, h]

/-- A stuck block takes no further step. -/
theorem step_stuck {s : State} (hs : s.stuck = true) : step s = .next s := by
  rw [step, serve, if_pos hs]

theorem run_stuck {s : State} (hs : s.stuck = true) (n : Nat) : Host.Core.run core n s = .next s := by
  induction n with
  | zero => rfl
  | succ n ih => rw [run_succ (step_stuck hs), ih]

/-- A command that ends stuck gives no response, and its last event waits for ever. -/
theorem exec_hung {i : Instr} {s t : State} (hs : s.stuck = false) (h : exec i s = .next t) (ht : t.stuck = true) :
    t.responses = s.responses ∧ ∃ e, t.trace.getLast? = some e ∧ Event.isPending e = true := by
  obtain ⟨u, hm, ⟨-, rfl⟩ | ⟨hu, r, rfl⟩⟩ := exec_moves hs h
  · obtain ⟨-, -, hresponses, -, -⟩ := hm.frame
    obtain ⟨evs, e, htrace, hlast, -⟩ := (hm.pending hs).2 ht
    exact ⟨hresponses, e, by rw [htrace, List.getLast?_concat], hlast⟩
  · exact absurd (hu.symm.trans ht) Bool.false_ne_true

/-- Settles O11: by the two transactions, the moves of a command that ends stuck, and a stuck block's steps. -/
theorem hungTransactionBlocksForGood : Obligations.HungTransactionBlocksForGood := by
  unfold Obligations.HungTransactionBlocksForGood
  exact ⟨fun _ reg v h => ⟨_, memWrite_never h reg v, rfl⟩, fun _ a reg h => ⟨_, memReadAt_never h a reg, rfl⟩,
    fun _ _ _ => exec_hung, fun _ n hs => run_stuck hs n⟩

/-! ## The registers a command leaves alone -/

/-- The writes to registers of which `R` holds, whatever the byte. -/
def Within (R : Reg → Prop) (r : Reg) (_ : Byte) : Prop := R r

section
variable {R : Reg → Prop} {F : Prop}

/-- A command whose operation writes only where `R` holds leaves DEV alone elsewhere. -/
theorem exec_dev_other {i : Instr} {s t : State} (runs : Runs (Within R) F s (operation i s).2) {reg : Reg}
    (h : exec i s = .next t) (hreg : ¬ R reg) : Memory.read t.dev reg.toNat = Memory.read s.dev reg.toNat := by
  have hdev := runs.moves.dev_other (r := reg) fun _ => hreg
  obtain ⟨-, rfl⟩ | ⟨-, r, rfl⟩ := exec_end h
  · exact hdev
  · exact hdev

/-- A write to a motor's two blocks goes to the motor's registers. -/
theorem mem_motorRegs {m : MotorCfg} {b b' : Block} {r : Reg} {v : Byte}
    (h : BusStep.write r v ∈ blockSteps (m.dir.toNat : Int) b ∨ BusStep.write r v ∈ blockSteps (m.pwm.toNat : Int) b') :
    r ∈ motorRegs m :=
  List.mem_append.2 (h.imp (reg_of_blockSteps (channelLegal_channel _)) (reg_of_blockSteps (channelLegal_channel _)))

theorem mem_knownRegs {m : PerWheel MotorCfg} {r : Reg} : r ∈ knownRegs m ↔ ∃ w, r ∈ motorRegs (m.get w) := by
  rw [knownRegs, List.mem_flatMap]
  exact ⟨fun ⟨w, _, h⟩ => ⟨w, h⟩, fun ⟨w, h⟩ => ⟨w, by cases w <;> decide, h⟩⟩

theorem setDuty_within {s : State} (hs : s.stuck = false) (ch duty : Int) :
    Runs (Within (· ∈ blockRegs ch.toNat)) F s (setDuty ch duty s) :=
  setDuty_runs hs ch duty fun hl _ _ => reg_of_blockSteps hl

theorem motorSetPower_within {s : State} (hs : s.stuck = false) (w : Wheel) (power : Option Int) :
    Runs (Within (· ∈ motorRegs (s.motors.get w))) F s (motorSetPower w power s) :=
  motorSetPower_runs hs w power fun _ _ _ _ => mem_motorRegs

theorem setPower4_within {s : State} (hs : s.stuck = false) (p : PerWheel (Option Int)) :
    Runs (Within (· ∈ knownRegs s.motors)) F s (setPower4 p s) :=
  wheelLoop_runs p Wheel.order _ hs fun w _ _ _ _ _ hm => mem_knownRegs.2 ⟨w, mem_motorRegs hm⟩

/-- The sixteen blocks lie at 0x06..0x45 (R32). -/
theorem blockRegs_range {ch : Nat} (hch : ch < 16) {r : Reg} (hr : r ∈ blockRegs ch) : 0x06 ≤ r.toNat ∧ r.toNat ≤ 0x45 := by
  simp only [blockRegs, List.mem_cons, List.not_mem_nil, or_false] at hr
  obtain rfl | rfl | rfl | rfl := hr <;> rw [blockReg_toNat hch (by decide)] <;> omega

theorem cleanupAll_within {s : State} (hs : s.stuck = false) :
    Runs (Within fun r => 0x06 ≤ r.toNat ∧ r.toNat ≤ 0x45) F s (cleanupAll s) :=
  cleanupAll_runs hs fun ch _ _ hm => blockRegs_range ch.isLt (reg_of_blockSteps (channelLegal_channel ch) hm)

/-- A channel of the zeroing order is one of a wheel's two, and so has its block among the known registers. -/
theorem blockRegs_subset_knownRegs {m : PerWheel MotorCfg} {ch : BitVec 4} (hch : ch ∈ knownChannels m) {r : Reg}
    (hr : r ∈ blockRegs ch.toNat) : r ∈ knownRegs m := by
  obtain ⟨w, -, hw⟩ := List.mem_flatMap.1 hch
  refine mem_knownRegs.2 ⟨w, List.mem_append.2 ?_⟩
  obtain rfl | rfl : ch = (m.get w).dir ∨ ch = (m.get w).pwm := by simpa using hw
  · exact .inl hr
  · exact .inr hr

/-- CFGDEF and SETFREQ write MODE1, MODE2 and the prescaler (R82, R84). -/
theorem reg_of_setupSteps {p : Byte} {r : Reg} {v : Byte} (h : BusStep.write r v ∈ config.cfgSeq ++ config.freqSeq p) :
    r ∈ [(0x00 : Reg), 0x01, 0xFE] := by
  simp only [config_cfgSeq, config_freqSeq, List.cons_append, List.nil_append, List.mem_cons, List.not_mem_nil, or_false,
    BusStep.write.injEq, reduceCtorEq] at h ⊢
  tauto

theorem initController_within {s : State} (hs : s.stuck = false) (hz : BitVec 16) :
    Runs (Within (· ∈ [0x00, 0x01, 0xFE] ++ knownRegs s.motors)) True s (initController hz s) :=
  initController_runs hs hz (fun _ _ _ hm => List.mem_append_left _ (reg_of_setupSteps hm))
    fun _ hch _ _ hm => List.mem_append_right _
      (blockRegs_subset_knownRegs hch (reg_of_blockSteps (channelLegal_channel _) hm))

end

/-- Settles O45: for each command, by the registers its operation writes within. -/
theorem registerFrame : Obligations.RegisterFrame := by
  unfold Obligations.RegisterFrame
  refine ⟨?setduty, ?setdig, ?msetpower, ?setpower4, ?drive, ?allstop, ?cleanup, ?init⟩
  case setduty => exact fun ch duty s t reg hs => exec_dev_other (setDuty_within (F := False) hs ch duty)
  case setdig => exact fun ch high s t reg hs => exec_dev_other (setDuty_within (F := False) hs ch (levelDuty high))
  case msetpower => exact fun w p s t reg hs => exec_dev_other (motorSetPower_within (F := False) hs w p.value)
  case setpower4 => exact fun bl fl br fr s t reg hs => exec_dev_other (setPower4_within (F := False) hs _)
  case drive => exact fun x y h s t reg hs => exec_dev_other (setPower4_within (F := False) hs _)
  case allstop => exact fun s t reg hs => exec_dev_other (setPower4_within (F := False) hs _)
  case cleanup =>
    intro s t reg hs h hreg
    exact exec_dev_other (cleanupAll_within (F := False) hs) h (by omega)
  case init => exact fun hz s t reg hs => exec_dev_other (initController_within hs hz)

/-! ## A channel's block after SETDUTY -/

/-- SETDUTY as a command when discovery settles and its four writes complete. -/
theorem execSetduty_complete {ch : Int} (hch : channelLegal ch = true) (duty : Int) {s : State} {n : Nat} {a : Addr}
    (hr : s.Ready n a 4) :
    ∃ t, exec (.setduty ch duty) s = .next t ∧
      Ended s t (probeEvents n a ++ completedEvents a (dutyWrites ch.toNat duty)) (n + 4) (s.ctl.withAddr a)
        (.single .ok) := by
  obtain ⟨t, ht, moved⟩ := discoverThen_complete (dutyWrites ch.toNat duty) hr
  rw [← setDuty_eq hch] at ht
  exact ⟨t.respond (.single .ok), by rw [exec, execSetduty, ht, finish_done], moved.respond _⟩

/-- SETDUTY as a command when discovery settles and write number `k` fails. -/
theorem execSetduty_fail {ch : Int} (hch : channelLegal ch = true) (duty : Int) {s : State} {n k : Nat} {a : Addr}
    (hd : s.Discovers n a) (hk : k < 4) (hc : s.CompletesFrom n k) (hf : s.outcome (n + k) = .fail) :
    ∃ t, exec (.setduty ch duty) s = .next t ∧
      Ended s t (probeEvents n a ++ cutEvents a .failed k (dutyWrites ch.toNat duty)) (n + k + 1) (s.ctl.withAddr a)
        (.single (.err .busError)) := by
  obtain ⟨t, ht, moved⟩ := discoverThen_fail (dutyWrites ch.toNat duty) hd hk hc hf
  rw [← setDuty_eq hch] at ht
  exact ⟨t.respond (.single (.err .busError)), by rw [exec, execSetduty, ht, finish_raise], moved.respond _⟩

/-- An event list cut at a write: the events before it, and it. -/
theorem cutEvents_at_write (a : Addr) (f : Fate) (before : List BusStep) (r : Reg) (v : Byte) (after : List BusStep) :
    cutEvents a f (transactions before) (before ++ .write r v :: after) =
      completedEvents a before ++ [.write a r v f] := by
  simp [cutEvents_append, cutEvents]

section
variable (a : Addr) {ch : Nat} (b0 b1 b2 b3 : Byte)

/-- Write number `k` of a block puts byte `k` into register `k`. -/
theorem take_succ_blockWrites (ch : Nat) {k : Nat} (hk : k < [b0, b1, b2, b3].length) :
    (blockWrites ch b0 b1 b2 b3).take (k + 1) =
      (blockWrites ch b0 b1 b2 b3).take k ++ [.write (blockReg ch k) [b0, b1, b2, b3][k]] := by
  have hk4 : k < 4 := hk
  interval_cases k <;> rfl

theorem transactions_take_blockWrites (ch : Nat) {k : Nat} (hk : k < 4) :
    transactions ((blockWrites ch b0 b1 b2 b3).take k) = k := by
  interval_cases k <;> rfl

/-- The events of a block cut at write number `k`. -/
theorem cutEvents_blockWrites (ch : Nat) (f : Fate) {k : Nat} (hk : k < [b0, b1, b2, b3].length) :
    cutEvents a f k (blockWrites ch b0 b1 b2 b3) =
      completedEvents a ((blockWrites ch b0 b1 b2 b3).take k) ++ [.write a (blockReg ch k) [b0, b1, b2, b3][k] f] := by
  have hcut := cutEvents_at_write a f ((blockWrites ch b0 b1 b2 b3).take k) (blockReg ch k) [b0, b1, b2, b3][k]
    ((blockWrites ch b0 b1 b2 b3).drop (k + 1))
  rwa [List.append_cons, ← take_succ_blockWrites b0 b1 b2 b3 ch hk, List.take_append_drop,
    transactions_take_blockWrites b0 b1 b2 b3 ch hk] at hcut

/-- After the first `k` writes of a block, its registers before the `k`-th hold the new bytes and the others are as
before. -/
theorem read_take_blockWrites (hch : ch < 16) (m : Memory) {k i : Nat} (hk : k ≤ 4) :
    Memory.read ((completedEvents a ((blockWrites ch b0 b1 b2 b3).take k)).foldl Event.applyDev m) (6 + 4 * ch + i) =
      if i < k then [b0, b1, b2, b3][i]? else Memory.read m (6 + 4 * ch + i) := by
  induction k with
  | zero => rfl
  | succ k ih =>
    rw [take_succ_blockWrites b0 b1 b2 b3 ch hk, completedEvents_append, List.foldl_append]
    change Memory.read (Memory.write _ (blockReg ch k).toNat _) _ = _
    rw [Memory.read_write, blockReg_toNat hch hk, ih (Nat.le_of_succ_le hk)]
    by_cases hik : i = k
    · subst hik; simp
    · simp [hik, Nat.le_iff_lt_or_eq]

end

/-- Any events keep DEV canonical. -/
theorem foldl_applyDev_wf (evs : List Event) {m : Memory} (h : Memory.wf m = true) :
    Memory.wf (evs.foldl Event.applyDev m) = true := by
  induction evs generalizing m with
  | nil => exact h
  | cons e evs ih => exact ih (Event.applyDev_wf h e)

/-- After a block cut at the failing write number `k`: the new bytes before it, its own register unknown, those after it
as before (R43, R128). -/
theorem read_cut_blockWrites (a : Addr) {ch : Nat} (hch : ch < 16) (b0 b1 b2 b3 : Byte) {m : Memory}
    (hm : Memory.wf m = true) {k i : Nat} (hk : k < 4) :
    Memory.read ((cutEvents a .failed k (blockWrites ch b0 b1 b2 b3)).foldl Event.applyDev m) (6 + 4 * ch + i) =
      if i = k then none else if i < k then [b0, b1, b2, b3][i]? else Memory.read m (6 + 4 * ch + i) := by
  have hwf : Memory.risesFrom 0 _ = true := foldl_applyDev_wf (completedEvents a ((blockWrites ch b0 b1 b2 b3).take k)) hm
  rw [cutEvents_blockWrites a b0 b1 b2 b3 ch .failed hk, List.foldl_append, List.foldl_cons, List.foldl_nil,
    Event.applyDev, blockReg_toNat hch hk, Memory.read_forget hwf, read_take_blockWrites a b0 b1 b2 b3 hch m hk.le]
  simp only [Nat.add_left_cancel_iff]

/-- Settles O48: the block after its four writes, and after the writes before the failing one and that one. -/
theorem setdutyBlockInDev : Obligations.SetdutyBlockInDev := by
  unfold Obligations.SetdutyBlockInDev
  constructor
  · intro ch duty s t n a h0 h15 hr h
    obtain ⟨t', ht', ended⟩ := execSetduty_complete (channelLegal_iff.2 ⟨h0, h15⟩) duty hr
    cases h.symm.trans ht'
    have hch : ch.toNat < 16 := by omega
    rw [ended.dev, List.foldl_append, probeEvents_dev, dutyWrites]
    simp [read_blockWrites _ _ hch]
  · intro ch duty s t n k a h0 h15 hwf hd hk hc hf h
    obtain ⟨t', ht', ended⟩ := execSetduty_fail (channelLegal_iff.2 ⟨h0, h15⟩) duty hd hk hc hf
    cases h.symm.trans ht'
    have hch : ch.toNat < 16 := by omega
    rw [ended.dev, List.foldl_append, probeEvents_dev, dutyWrites]
    refine ⟨fun i hik => ?_, ?_, fun i hki _ => ?_⟩
    · rw [read_cut_blockWrites a hch _ _ _ _ hwf hk, if_neg hik.ne, if_pos hik]
    · rw [read_cut_blockWrites a hch _ _ _ _ hwf hk, if_pos rfl]
    · rw [read_cut_blockWrites a hch _ _ _ _ hwf hk, if_neg hki.ne', if_neg hki.not_gt]

/-! ## DEV by its last event -/

/-- Settles O47: the trace's last event is the last to be run over DEV, and each kind of event has its law. -/
theorem devIsLastCompletedWrite : Obligations.DevIsLastCompletedWrite := by
  unfold Obligations.DevIsLastCompletedWrite
  simp only [devOfTrace_append]
  refine ⟨fun _ => rfl, ?completed, ?failed, fun _ _ _ _ => rfl, ?other, fun _ _ _ _ => rfl, fun _ _ => rfl⟩
  case completed => intro t d reg v; rw [Event.applyDev, Memory.read_write, if_pos rfl]
  case failed => intro t d reg v; rw [Event.applyDev, Memory.read_forget (devOfTrace_wf t), if_pos rfl]
  case other =>
    intro t d reg v f r hr
    exact Event.applyDev_read_other fun _ _ _ _ he hreg => by cases he; exact hr hreg.symm

end Sys2Proof.Machine
end

/-! PROOFS of the family of the encoding: the decoder against the encoder and the opcode table, what dispatch answers
without running a command, the shapes of the trace, and the assembler's lines. -/

section
namespace Sys2Proof.Machine

/-! ## Decoding and encoding -/

/-- Settles O1: the decoder is run on each word. -/
theorem exampleWordsDecode : Obligations.ExampleWordsDecode := by
  unfold Obligations.ExampleWordsDecode
  refine ⟨?_, ?_, ?_, ?_, ?_, ?_, ?_, ?_, ?_⟩ <;> decide

/-- Settles O2: by `decode_encode`, in which each operand's slot is read back as the operand. -/
theorem decodeOfEncode : Obligations.DecodeOfEncode := by
  unfold Obligations.DecodeOfEncode
  exact fun _ => decode_encode

/-- A word is legal when its fields give an instruction. -/
theorem decode_eq_legal_iff {w : CmdWord} {i : Instr} :
    decode w = .legal i ↔ decodeFields (opcodeOf w) (slotA w) (slotB w) (slotC w) (slotD w) = some (some i) := by
  unfold decode
  split <;> simp_all

/-- Fields that give an instruction are the fields of its word, opcode by opcode (R52). -/
theorem encode_of_decodeFields {op : BitVec 4} {a b c d : Slot} {i : Instr}
    (h : decodeFields op a b c d = some (some i)) : encode i = packWord op a b c d ∧ i.wellFormed = true := by
  unfold decodeFields at h
  split at h <;> simp only [Option.some.injEq, Option.ite_none_right_eq_some, Option.map_eq_some_iff,
    Option.bind_eq_some_iff, emptySlot, reduceCtorEq] at h
  case h_1 hop =>
    obtain rfl : op = 1 := BitVec.eq_of_toNat_eq hop
    obtain ⟨-, ⟨rfl, -⟩, rfl⟩ := h
    exact ⟨by simp only [encode, slot_percentOfSlot], rfl⟩
  case h_2 hop =>
    obtain rfl : op = 2 := BitVec.eq_of_toNat_eq hop
    subst h
    exact ⟨by simp only [encode, slot_percentOfSlot], rfl⟩
  case h_3 hop =>
    obtain rfl : op = 3 := BitVec.eq_of_toNat_eq hop
    obtain ⟨⟨rfl, rfl, rfl, rfl⟩, rfl⟩ := h
    exact ⟨rfl, rfl⟩
  case h_4 hop =>
    obtain rfl : op = 4 := BitVec.eq_of_toNat_eq hop
    obtain ⟨⟨rfl, rfl, rfl, rfl⟩, rfl⟩ := h
    exact ⟨rfl, rfl⟩
  case h_5 hop =>
    obtain rfl : op = 5 := BitVec.eq_of_toNat_eq hop
    obtain ⟨⟨rfl, rfl⟩, w, hw, rfl⟩ := h
    exact ⟨by rw [encode, slot_percentOfSlot, slot_of_wheelOfSlot hw], rfl⟩
  case h_6 hop =>
    obtain rfl : op = 6 := BitVec.eq_of_toNat_eq hop
    obtain ⟨⟨rfl, rfl⟩, ch, hch, duty, hduty, rfl⟩ := h
    obtain ⟨rfl, hchRange⟩ := slot_of_channelOfSlot hch
    obtain ⟨rfl, hdutyRange⟩ := slot_of_dutyOfSlot hduty
    exact ⟨rfl, by rw [Instr.wellFormed, hchRange, hdutyRange]; rfl⟩
  case h_7 hop =>
    obtain rfl : op = 7 := BitVec.eq_of_toNat_eq hop
    obtain ⟨⟨rfl, rfl⟩, ch, hch, high, hhigh, rfl⟩ := h
    obtain ⟨rfl, hchRange⟩ := slot_of_channelOfSlot hch
    obtain rfl := slot_of_levelOfSlot hhigh
    exact ⟨rfl, hchRange⟩
  case h_8 hop =>
    obtain rfl : op = 8 := BitVec.eq_of_toNat_eq hop
    obtain ⟨⟨rfl, rfl, rfl⟩, hz, hhz, rfl⟩ := h
    obtain rfl := slot_of_freqOfSlot hhz
    exact ⟨rfl, rfl⟩

/-- A legal word is the word of its instruction. -/
theorem encode_of_decode {w : CmdWord} {i : Instr} (h : decode w = .legal i) :
    encode i = w ∧ i.wellFormed = true := by
  simpa only [packWord_fields] using encode_of_decodeFields (decode_eq_legal_iff.1 h)

/-- Settles O3: by the inversion of the decoder, opcode by opcode. -/
theorem encodeOfDecode : Obligations.EncodeOfDecode := by
  unfold Obligations.EncodeOfDecode
  exact fun _ _ => encode_of_decode

/-! ## The opcode table -/

/-- The word of every instruction matches the instruction's row. -/
theorem encode_matches_row (i : Instr) : encode i &&& i.row.mask = i.row.bits := by
  cases i with
  | drive x y h => exact Laws.EncodeMatchesRow.drive x y h
  | setpower4 bl fl br fr => exact Laws.EncodeMatchesRow.setpower4 bl fl br fr
  | allstop => exact Laws.EncodeMatchesRow.allstop
  | cleanup => exact Laws.EncodeMatchesRow.cleanup
  | msetpower w p => exact Laws.EncodeMatchesRow.msetpower w p
  | setduty ch duty => exact Laws.EncodeMatchesRow.setduty ch duty
  | setdig ch high => exact Laws.EncodeMatchesRow.setdig ch high
  | init hz => exact Laws.EncodeMatchesRow.init hz

theorem row_mem_opcodeTable (i : Instr) : i.row ∈ opcodeTable := by
  cases i <;> simp [Instr.row, opcodeTable]

/-- A field that the mask covers is the row's. -/
theorem extractLsb'_of_masked {n k m : Nat} {w mask bits : BitVec n} (h : w &&& mask = bits)
    (hm : mask.extractLsb' k m = BitVec.allOnes m) : w.extractLsb' k m = bits.extractLsb' k m := by
  rw [← h, BitVec.extractLsb'_and, hm, BitVec.and_allOnes]

/-- A bit that the mask covers is the row's. -/
theorem getLsbD_of_masked {n k : Nat} {w mask bits : BitVec n} (h : w &&& mask = bits) (hm : mask.getLsbD k = true) :
    w.getLsbD k = bits.getLsbD k := by
  rw [← h, BitVec.getLsbD_and, hm, Bool.and_true]

/-- The mask of every row covers the opcode. -/
theorem opcodeOf_of_matches {w : CmdWord} {row : OpcodeRow} (hrow : row ∈ opcodeTable) (h : w &&& row.mask = row.bits) :
    opcodeOf w = opcodeOf row.bits := by
  have all : ∀ row ∈ opcodeTable, row.mask.extractLsb' 68 4 = BitVec.allOnes 4 := by decide
  exact extractLsb'_of_masked h (all row hrow)

/-- The rows have different opcodes. -/
theorem row_eq_of_opcode :
    ∀ row ∈ opcodeTable, ∀ row' ∈ opcodeTable, opcodeOf row.bits = opcodeOf row'.bits → row = row' := by
  decide

/-- Masking a word masks each of its fields. -/
theorem extractLsb'_masked {n : Nat} {w mask bits : BitVec n} (h : w &&& mask = bits) (k m : Nat) :
    w.extractLsb' k m &&& mask.extractLsb' k m = bits.extractLsb' k m := by
  rw [← h, BitVec.extractLsb'_and]

/-! A slot whose must-be-zero bits are 0 holds an operand (R51). -/

theorem exists_wheelOfSlot {a : Slot} (h : a.extractLsb' 2 15 = 0) : ∃ w, wheelOfSlot a = some w := by
  rw [wheelOfSlot, if_pos h]
  split <;> exact ⟨_, rfl⟩

theorem exists_channelOfSlot {a : Slot} (h : a.extractLsb' 4 13 = 0) : ∃ ch, channelOfSlot a = some ch :=
  ⟨_, if_pos h⟩

theorem exists_dutyOfSlot {a : Slot} (h : a.getLsbD 16 = false) : ∃ duty, dutyOfSlot a = some duty :=
  ⟨_, if_pos h⟩

theorem exists_levelOfSlot {a : Slot} (h : a.extractLsb' 1 16 = 0) : ∃ high, levelOfSlot a = some high :=
  ⟨_, if_pos h⟩

theorem exists_freqOfSlot {a : Slot} (h : a.getLsbD 16 = false) : ∃ hz, freqOfSlot a = some hz :=
  ⟨_, if_pos h⟩

/-! The instructions of the fields of MSETPOWER, SETDUTY, SETDIG and INIT whose operands are in form (R52). -/

theorem decodeFields_msetpower {a b : Slot} {w : Wheel} (hw : wheelOfSlot b = some w) :
    decodeFields 5 a b 0 0 = some (some (.msetpower w (percentOfSlot a))) := by
  simp [decodeFields, hw]

theorem decodeFields_setduty {a b : Slot} {ch duty : Int} (hch : channelOfSlot b = some ch)
    (hduty : dutyOfSlot a = some duty) : decodeFields 6 a b 0 0 = some (some (.setduty ch duty)) := by
  simp [decodeFields, hch, hduty]

theorem decodeFields_setdig {a b : Slot} {ch : Int} {high : Bool} (hch : channelOfSlot b = some ch)
    (hhigh : levelOfSlot a = some high) : decodeFields 7 a b 0 0 = some (some (.setdig ch high)) := by
  simp [decodeFields, hch, hhigh]

theorem decodeFields_init {a : Slot} {hz : BitVec 16} (hhz : freqOfSlot a = some hz) :
    decodeFields 8 a 0 0 0 = some (some (.init hz)) := by
  simp [decodeFields, hhz]

/-- Every word that matches a row is legal: the row's mask covers the opcode and every must-be-zero bit. -/
theorem exists_decode_of_matches {w : CmdWord} {row : OpcodeRow} (hrow : row ∈ opcodeTable)
    (h : w &&& row.mask = row.bits) : ∃ i, decode w = .legal i := by
  have hop := opcodeOf_of_matches hrow h
  have ha : slotA w &&& slotA row.mask = slotA row.bits := extractLsb'_masked h 51 17
  have hb : slotB w &&& slotB row.mask = slotB row.bits := extractLsb'_masked h 34 17
  have hc (hm : slotC row.mask = BitVec.allOnes 17) : slotC w = slotC row.bits := extractLsb'_of_masked h hm
  have hd (hm : slotD row.mask = BitVec.allOnes 17) : slotD w = slotD row.bits := extractLsb'_of_masked h hm
  simp only [decode_eq_legal_iff]
  simp only [opcodeTable, List.mem_cons, List.not_mem_nil, or_false] at hrow
  obtain rfl | rfl | rfl | rfl | rfl | rfl | rfl | rfl := hrow
  · rw [hop, hd rfl]
    exact ⟨_, rfl⟩
  · rw [hop]
    exact ⟨_, rfl⟩
  · rw [show OpcodeRow.allstop.mask = BitVec.allOnes 72 from rfl, BitVec.and_allOnes] at h
    subst h
    exact ⟨.allstop, rfl⟩
  · rw [show OpcodeRow.cleanup.mask = BitVec.allOnes 72 from rfl, BitVec.and_allOnes] at h
    subst h
    exact ⟨.cleanup, rfl⟩
  · obtain ⟨wheel, hwheel⟩ := exists_wheelOfSlot (extractLsb'_of_masked hb rfl)
    rw [hop, hc rfl, hd rfl]
    exact ⟨_, decodeFields_msetpower hwheel⟩
  · obtain ⟨ch, hch⟩ := exists_channelOfSlot (extractLsb'_of_masked hb rfl)
    obtain ⟨duty, hduty⟩ := exists_dutyOfSlot (getLsbD_of_masked ha rfl)
    rw [hop, hc rfl, hd rfl]
    exact ⟨_, decodeFields_setduty hch hduty⟩
  · obtain ⟨ch, hch⟩ := exists_channelOfSlot (extractLsb'_of_masked hb rfl)
    obtain ⟨high, hhigh⟩ := exists_levelOfSlot (extractLsb'_of_masked ha rfl)
    rw [hop, hc rfl, hd rfl]
    exact ⟨_, decodeFields_setdig hch hhigh⟩
  · obtain ⟨hz, hhz⟩ := exists_freqOfSlot (getLsbD_of_masked ha rfl)
    rw [hop, show slotB w = 0 from extractLsb'_of_masked h rfl, hc rfl, hd rfl]
    exact ⟨_, decodeFields_init hhz⟩

/-- Settles O4: an instruction's word matches its row, and a word that matches a row has its must-be-zero bits 0. -/
theorem decoderAcceptsExactlyTheTable : Obligations.DecoderAcceptsExactlyTheTable := by
  unfold Obligations.DecoderAcceptsExactlyTheTable
  refine fun w => ⟨fun ⟨i, hi⟩ => ⟨i.row, row_mem_opcodeTable i, ?_⟩, fun ⟨row, hrow, h⟩ =>
    exists_decode_of_matches hrow h⟩
  obtain ⟨rfl, -⟩ := encode_of_decode hi
  exact encode_matches_row i

/-! ## Illegal words -/

/-- A word that matches no row is illegal. -/
theorem exists_decode_illegal {w : CmdWord} (h : ∀ row ∈ opcodeTable, w &&& row.mask ≠ row.bits) :
    ∃ why, decode w = .illegal why := by
  cases hd : decode w with
  | legal i =>
    obtain ⟨row, hrow, hw⟩ := (decoderAcceptsExactlyTheTable w).1 ⟨i, hd⟩
    exact absurd hw (h row hrow)
  | illegal why => exact ⟨why, rfl⟩

/-- No row has a reserved opcode (R54). -/
theorem exists_decode_illegal_of_reserved {w : CmdWord} (h : opcodeOf w = 0 ∨ 9 ≤ (opcodeOf w).toNat) :
    ∃ why, decode w = .illegal why := by
  have used : ∀ row ∈ opcodeTable, ¬ (opcodeOf row.bits = 0 ∨ 9 ≤ (opcodeOf row.bits).toNat) := by decide
  exact exists_decode_illegal fun row hrow hw => used row hrow (opcodeOf_of_matches hrow hw ▸ h)

/-- A word with the opcode of a row that it does not match is illegal: it matches no other row either. -/
theorem exists_decode_illegal_of_row {w : CmdWord} {row : OpcodeRow} (hrow : row ∈ opcodeTable)
    (hop : opcodeOf w = opcodeOf row.bits) (h : w &&& row.mask ≠ row.bits) : ∃ why, decode w = .illegal why :=
  exists_decode_illegal fun row' hrow' hw => by
    obtain rfl := row_eq_of_opcode row hrow row' hrow' (hop.symm.trans (opcodeOf_of_matches hrow' hw))
    exact h hw

/-- An illegal word at an idle open port is answered, and that is all (R54). -/
theorem step_illegal {s : State} {w : CmdWord} {rest : List HostRequest} {why : IllegalWord} (hs : s.stuck = false)
    (hp : s.ctl.phase = .operational) (hh : s.host = .command w :: rest) (hd : decode w = .illegal why) :
    step s = .next ((s.withHost rest).respond (.single (.err .illegalCommand))) := by
  rw [step_command hs hh]
  simp only [dispatch, hp, hd]

/-- Settles O5: reserved opcodes and broken rows match no row, and dispatch answers an illegal word. -/
theorem illegalWordsOnlyRespond : Obligations.IllegalWordsOnlyRespond := by
  unfold Obligations.IllegalWordsOnlyRespond
  exact ⟨fun _ => exists_decode_illegal_of_reserved, exists_decode_illegal_of_reserved (.inl rfl),
    fun _ _ => exists_decode_illegal_of_row, fun _ _ _ _ => step_illegal⟩

/-! ## A closed port, no request, a DEAD block -/

/-- Settles O9: with no request, and at a port that is not open yet, a step is the identity. -/
theorem idleStepChangesNothing : Obligations.IdleStepChangesNothing := by
  unfold Obligations.IdleStepChangesNothing
  constructor
  · intro s hh
    rw [step, serve, hh]
    exact ite_self _
  · intro s w rest hh hp
    cases hs : s.stuck with
    | true => exact step_stuck hs
    | false =>
      rw [step_command hs hh]
      simp only [dispatch, hp]

/-- Settles O10: dispatch of a DEAD block does not look at the word. -/
theorem deadAnswersEveryCommandDead : Obligations.DeadAnswersEveryCommandDead := by
  unfold Obligations.DeadAnswersEveryCommandDead
  intro s w rest hs hp hh
  rw [step_command hs hh]
  simp only [dispatch, hp]
  rfl

/-! ## Operands without a value, pseudo-instructions -/

/-- A percent operand with NUM 0 has no value, whatever its bits (R51). -/
@[simp] theorem Percent.value_of_not_num (v : BitVec 16) : (Percent.mk false v).value = none := rfl

/-- Settles O6: the meanings see the operands' values alone. -/
theorem nonNumericValueIgnored : Obligations.NonNumericValueIgnored := by
  unfold Obligations.NonNumericValueIgnored
  intro v v' p q r w s
  simp only [exec, execMsetpower, execSetpower4, execDrive, Percent.value_of_not_num, and_self]

/-- Settles O34: ALLSTOP's four powers are the values of numeric zeros, and a level is a duty. -/
theorem pseudoInstructions : Obligations.PseudoInstructions := by
  unfold Obligations.PseudoInstructions
  exact ⟨fun _ => rfl, fun _ _ => rfl, fun _ _ => rfl⟩

/-! ## The shapes of the trace -/

/-- The invariant of the trace's shapes looks at the trace and the cached address alone. -/
theorem ShapeInv.congr {s t : State} (htrace : t.trace = s.trace) (hvalid : t.ctl.addrValid = s.ctl.addrValid)
    (haddr : t.ctl.addr = s.ctl.addr) (h : ShapeInv s) : ShapeInv t := by
  unfold ShapeInv at *
  rwa [htrace, hvalid, haddr]

/-- One more event of R55's shapes, at the same cached address. -/
theorem ShapeInv.snoc {s t : State} {e : Event} (h : ShapeInv s) (htrace : t.trace = s.trace ++ [e])
    (hctl : t.ctl = s.ctl) (he : LegalEvent e) : ShapeInv t := by
  obtain ⟨hevents, haddr⟩ := h
  refine ⟨?_, by rwa [hctl]⟩
  rw [htrace]
  exact List.forall_mem_append.2 ⟨hevents, List.forall_mem_singleton.2 he⟩

/-- A move's event has one of R55's shapes: a write goes to the cached address, a probe to a candidate. -/
theorem Move.shapeInv {F : Prop} {s t : State} (hm : Move LegalWrite F s t) (h : ShapeInv s) : ShapeInv t := by
  have haddr := h.2
  cases hm with
  | wrote r v hs hv hw ho => exact h.snoc rfl rfl ⟨haddr hv, hw⟩
  | writeHung r v hs hv hw ho => exact h.snoc rfl rfl ⟨haddr hv, hw⟩
  | probed a hs ha ho => exact h.snoc rfl rfl ⟨ha, rfl⟩
  | probeHung a hs ha ho => exact h.snoc rfl rfl ⟨ha, rfl⟩
  | delayed hs => exact h.snoc rfl rfl rfl
  | cached a hs hv ha => exact ⟨h.1, fun _ => ha⟩
  | configured hz hs hF hl => exact h.congr rfl rfl rfl

theorem Moves.shapeInv {F : Prop} {s t : State} (hm : Moves LegalWrite F s t) (h : ShapeInv s) : ShapeInv t := by
  induction hm with
  | refl => exact h
  | tail _ hstep ih => exact hstep.shapeInv ih

/-- Settles O59: a construction starts with an empty trace and no address, and every move keeps the invariant. -/
theorem stepKeepsTraceShapes : Obligations.StepKeepsTraceShapes := by
  unfold Obligations.StepKeepsTraceShapes
  intro s t hs h
  exact step_keeps (P := ShapeInv)
    (same := fun s t _ hctl htrace _ _ _ => ShapeInv.congr htrace (by rw [hctl]) (by rw [hctl]))
    (start := fun _ _ _ => ⟨nofun, nofun⟩)
    (moves := fun _ _ _ hm => hm.shapeInv)
    (phase := fun _ _ => ShapeInv.congr rfl rfl rfl)
    (report := fun _ _ => ShapeInv.congr rfl rfl rfl)
    hs h

/-! ## Assembler lines -/

/-- The mnemonics have no separator in them. -/
theorem mnemonic_plain {row : OpcodeRow} (h : row ∈ opcodeTable) : Plain row.mnemonic.toList := by
  have all : ∀ row ∈ opcodeTable, row.mnemonic.toList ≠ [] ∧ row.mnemonic.toList.all isPlain = true := by decide
  obtain ⟨nonempty, plain⟩ := all row h
  exact ⟨nonempty, plain⟩

/-- A line spelled with a mnemonic of the table is read as the mnemonic and the operands. -/
theorem assembleLine_mnemonic (row : OpcodeRow) {os : List (List Char)} (hrow : row ∈ opcodeTable)
    (h : ∀ o ∈ os, Plain o) : assembleLine (lineText row.mnemonic os) = asmInstr row.mnemonic.toList os :=
  assembleLine_lineText (mnemonic_plain hrow) h

/-! The operands that a line of each mnemonic has (R56). -/

section
variable {a b c d : List Char} (ha : Plain a) (hb : Plain b) (hc : Plain c) (hd : Plain d)
include ha

theorem assembleLine_init : assembleLine (lineText "INIT" [a]) =
    (asmInteger 0 65535 a).map fun hz => .init (BitVec.ofInt 16 hz) :=
  assembleLine_mnemonic .init (by decide) (by simp [ha])

include hb

theorem assembleLine_msetpower : assembleLine (lineText "MSETPOWER" [a, b]) =
    (asmWheel a).bind fun w => (asmPercent b).map fun p => .msetpower w p :=
  assembleLine_mnemonic .msetpower (by decide) (by simp [ha, hb])

theorem assembleLine_setduty : assembleLine (lineText "SETDUTY" [a, b]) =
    (asmInteger 0 15 a).bind fun ch => (asmInteger (-32768) 32767 b).map fun duty => .setduty ch duty :=
  assembleLine_mnemonic .setduty (by decide) (by simp [ha, hb])

theorem assembleLine_setdig : assembleLine (lineText "SETDIG" [a, b]) =
    (asmInteger 0 15 a).bind fun ch => (asmInteger 0 1 b).map fun g => .setdig ch (decide (g = 1)) :=
  assembleLine_mnemonic .setdig (by decide) (by simp [ha, hb])

include hc

theorem assembleLine_drive : assembleLine (lineText "DRIVE" [a, b, c]) =
    (asmPercent a).bind fun x => (asmPercent b).bind fun y => (asmPercent c).map fun h => .drive x y h :=
  assembleLine_mnemonic .drive (by decide) (by simp [ha, hb, hc])

include hd

theorem assembleLine_setpower4 : assembleLine (lineText "SETPOWER4" [a, b, c, d]) =
    (asmPercent a).bind fun bl => (asmPercent b).bind fun fl => (asmPercent c).bind fun br =>
      (asmPercent d).map fun fr => .setpower4 bl fl br fr :=
  assembleLine_mnemonic .setpower4 (by decide) (by simp [ha, hb, hc, hd])

end

/-! ## What a line is accepted as -/

theorem asmInteger_bounds {lo hi z : Int} {cs : List Char} (h : asmInteger lo hi cs = some z) : lo ≤ z ∧ z ≤ hi := by
  rw [asmInteger, Option.bind_eq_some_iff] at h
  obtain ⟨q, -, hq⟩ := h
  simp only [Option.ite_none_right_eq_some, Option.some.injEq] at hq
  obtain ⟨⟨-, hlo, hhi⟩, rfl⟩ := hq
  exact ⟨hlo, hhi⟩

theorem channelInRange_of_asmInteger {ch : Int} {cs : List Char} (h : asmInteger 0 15 cs = some ch) :
    channelInRange ch = true := by
  simpa [channelInRange] using asmInteger_bounds h

theorem dutyInRange_of_asmInteger {duty : Int} {cs : List Char} (h : asmInteger (-32768) 32767 cs = some duty) :
    dutyInRange duty = true := by
  simpa [dutyInRange] using asmInteger_bounds h

/-- An instruction that the assembler gives has its channel and duty in range; the other operands' types say it. -/
theorem asmInstr_wellFormed {m : List Char} {ops : List (List Char)} {i : Instr} (h : asmInstr m ops = some i) :
    i.wellFormed = true := by
  unfold asmInstr at h
  split_ifs at h <;> split at h <;>
    simp only [Option.bind_eq_some_iff, Option.map_eq_some_iff, Option.some.injEq, reduceCtorEq] at h
  · obtain ⟨x, -, y, -, z, -, rfl⟩ := h; rfl
  · obtain ⟨bl, -, fl, -, br, -, fr, -, rfl⟩ := h; rfl
  · subst h; rfl
  · subst h; rfl
  · obtain ⟨w, -, p, -, rfl⟩ := h; rfl
  · obtain ⟨ch, hch, duty, hduty, rfl⟩ := h
    rw [Instr.wellFormed, channelInRange_of_asmInteger hch, dutyInRange_of_asmInteger hduty]; rfl
  · obtain ⟨ch, hch, level, -, rfl⟩ := h
    exact channelInRange_of_asmInteger hch
  · obtain ⟨hz, -, rfl⟩ := h; rfl

theorem assembleLine_comment {line : List Char} (comment : List Char) (h : ';' ∉ line) :
    assembleLine (line ++ ';' :: comment) = assembleLine line := by
  rw [assembleLine, stripComment_append line comment h, assembleLine]

/-- What the assembler emits is the word of a well-formed instruction. -/
theorem exists_decode_of_assemble {line : List Char} {w : CmdWord} (h : assemble line = some w) :
    ∃ i, decode w = .legal i := by
  rw [assemble, Option.map_eq_some_iff] at h
  obtain ⟨i, hi, rfl⟩ := h
  exact ⟨i, decode_encode (asmInstr_wellFormed hi)⟩

/-- Settles O7: each mnemonic's operands are read as R56 says, and what is read is well formed. -/
theorem assemblerAcceptsWellFormedLines : Obligations.AssemblerAcceptsWellFormedLines := by
  unfold Obligations.AssemblerAcceptsWellFormedLines
  refine ⟨?drive, ?setpower4, ?allstop, ?cleanup, ?msetpower, ?noWheel, ?setduty, ?setdig, ?init,
    fun _ comment h => assembleLine_comment comment h, assembleLine_blanks, fun _ _ h => asmInstr_wellFormed h, ?word,
    fun _ _ h => exists_decode_of_assemble h⟩
  case drive =>
    intro x y h px py ph hx hy hh
    rw [assembleLine_drive hx.plain hy.plain hh.plain, asmPercent_reads hx, asmPercent_reads hy, asmPercent_reads hh]
  case setpower4 =>
    intro bl fl br fr p0 p1 p2 p3 h0 h1 h2 h3
    rw [assembleLine_setpower4 h0.plain h1.plain h2.plain h3.plain, asmPercent_reads h0, asmPercent_reads h1,
      asmPercent_reads h2, asmPercent_reads h3]
  case allstop => exact assembleLine_mnemonic .allstop (by decide) nofun
  case cleanup => exact assembleLine_mnemonic .cleanup (by decide) nofun
  case msetpower =>
    intro w tw tp p hw hp
    rw [assembleLine_msetpower (wheelTexts_plain hw) hp.plain, asmWheel_reads hw, asmPercent_reads hp, Option.bind_some]
  case noWheel =>
    intro tw tp p ht hw hp
    rw [assembleLine_msetpower ht.plain hp.plain, asmWheel_none hw, Option.bind_none]
  case setduty =>
    intro tc td ch duty hch hduty
    rw [assembleLine_setduty hch.plain hduty.plain, asmInteger_reads hch, asmInteger_reads hduty]
  case setdig =>
    intro tc tl ch level hch hlevel
    rw [assembleLine_setdig hch.plain hlevel.plain, asmInteger_reads hch, asmInteger_reads hlevel]
  case init =>
    intro th hz hhz
    rw [assembleLine_init hhz.plain, asmInteger_reads hhz]
  case word =>
    intro line i h
    rw [assemble, h, Option.map_some]

end Sys2Proof.Machine
end

/-! PROOFS of the family of the encoder: the arms and the inverse of ENC, and how SETDUTY and SETDIG end. -/

section
namespace Sys2Proof.Machine

/-! ## The arms of ENC (R70) -/

/-- ENC with the parameters' values in place. -/
theorem enc_eq (duty : Int) :
    enc duty = if duty ≤ 0 then ⟨0x00, 0x00, 0x00, 0x10⟩
      else if 4095 ≤ duty then ⟨0x00, 0x10, 0x00, 0x00⟩
      else ⟨0x00, 0x00, BitVec.ofInt 8 (duty % 256), BitVec.ofInt 8 (duty / 256)⟩ := rfl

theorem enc_of_nonpos {duty : Int} (h : duty ≤ 0) : enc duty = ⟨0x00, 0x00, 0x00, 0x10⟩ := by
  rw [enc_eq, if_pos h]

theorem enc_of_saturated {duty : Int} (h : 4095 ≤ duty) : enc duty = ⟨0x00, 0x10, 0x00, 0x00⟩ := by
  have hpos : ¬ duty ≤ 0 := by omega
  rw [enc_eq, if_neg hpos, if_pos h]

/-- The third arm splits the duty over the two off bytes, of which the high one holds four bits. -/
theorem enc_of_between {duty : Int} (h0 : 0 < duty) (h1 : duty < 4095) :
    ∃ lo hi : Byte, enc duty = ⟨0x00, 0x00, lo, hi⟩ ∧ duty = 256 * (hi.toNat : Int) + (lo.toNat : Int) ∧
      hi.toNat < 16 := by
  refine ⟨BitVec.ofInt 8 (duty % 256), BitVec.ofInt 8 (duty / 256), ?_, ?_, ?_⟩
  · rw [enc_eq, if_neg h0.not_ge, if_neg h1.not_ge]
  all_goals
    simp only [BitVec.toNat_ofInt]
    omega

/-- What ENC can yield: full-off, full-on, or the split of a duty between the ends. -/
theorem enc_cases (duty : Int) :
    (duty ≤ 0 ∧ enc duty = ⟨0x00, 0x00, 0x00, 0x10⟩) ∨ (4095 ≤ duty ∧ enc duty = ⟨0x00, 0x10, 0x00, 0x00⟩) ∨
      (0 < duty ∧ duty < 4095 ∧ ∃ lo hi : Byte, enc duty = ⟨0x00, 0x00, lo, hi⟩ ∧
        duty = 256 * (hi.toNat : Int) + (lo.toNat : Int) ∧ hi.toNat < 16) := by
  obtain hoff | hpos := le_or_gt duty 0
  · exact .inl ⟨hoff, enc_of_nonpos hoff⟩
  · obtain hon | hlt := le_or_gt 4095 duty
    · exact .inr (.inl ⟨hon, enc_of_saturated hon⟩)
    · exact .inr (.inr ⟨hpos, hlt, enc_of_between hpos hlt⟩)

/-- Settles O13: each arm by its own equation. -/
theorem encThreeArms : Obligations.EncThreeArms := by
  unfold Obligations.EncThreeArms
  refine fun duty => ⟨enc_of_nonpos, enc_of_saturated, fun h0 h1 => ?_⟩
  obtain ⟨lo, hi, henc, hduty, hhi⟩ := enc_of_between h0 h1
  rw [henc]
  refine ⟨rfl, rfl, ?_⟩
  dsimp only
  omega

/-! ## The inverse of ENC (R73) -/

/-- The duty a channel block stands for: the inverse that R73 (d) gives. -/
def Block.duty (b : Block) : Int :=
  if b.offH.getLsbD 4 then 0
  else if b.onH.getLsbD 4 then 4095
  else 256 * ((b.offH.extractLsb' 0 4).toNat : Int) + (b.offL.toNat : Int)

/-- A high byte of the third arm has no full flag. -/
theorem getLsbD_four_of_lt {b : Byte} (h : b.toNat < 16) : b.getLsbD 4 = false := Nat.testBit_lt_two_pow h

/-- The low four bits of a high byte of the third arm are the byte. -/
theorem toNat_extractLsb'_four_of_lt {b : Byte} (h : b.toNat < 16) : (b.extractLsb' 0 4).toNat = b.toNat := by
  rw [BitVec.extractLsb'_toNat, Nat.shiftRight_zero, Nat.mod_eq_of_lt h]

theorem Block.duty_split (lo : Byte) {hi : Byte} (h : hi.toNat < 16) :
    Block.duty ⟨0x00, 0x00, lo, hi⟩ = 256 * (hi.toNat : Int) + (lo.toNat : Int) := by
  simp only [Block.duty, getLsbD_four_of_lt h, toNat_extractLsb'_four_of_lt h, BitVec.ofNat_eq_ofNat,
    BitVec.getLsbD_zero, Bool.false_eq_true, if_false]

theorem duty_enc {duty : Int} (h0 : 0 ≤ duty) (h1 : duty ≤ 4095) : (enc duty).duty = duty := by
  obtain ⟨hoff, henc⟩ | ⟨hon, henc⟩ | ⟨-, -, lo, hi, henc, hduty, hhi⟩ := enc_cases duty
  · rw [henc, le_antisymm hoff h0]; rfl
  · rw [henc, le_antisymm h1 hon]; rfl
  · rw [henc, Block.duty_split lo hhi, ← hduty]

theorem enc_injOn {d d' : Int} (h0 : 0 ≤ d) (h1 : d ≤ 4095) (h0' : 0 ≤ d') (h1' : d' ≤ 4095) (h : enc d = enc d') :
    d = d' := by
  rw [← duty_enc h0 h1, h, duty_enc h0' h1']

/-! ## What ENC never yields (R73) -/

/-- Bit 4 is never set in both high bytes. -/
theorem enc_flags_exclusive (duty : Int) :
    ¬ ((enc duty).onH.getLsbD 4 = true ∧ (enc duty).offH.getLsbD 4 = true) := by
  obtain ⟨-, henc⟩ | ⟨-, henc⟩ | ⟨-, -, lo, hi, henc, -, -⟩ := enc_cases duty <;> rw [henc]
  · decide
  · decide
  · simp

/-- The bytes that the third arm would give at the two ends are not produced. -/
theorem enc_ne_literal_ends (duty : Int) : enc duty ≠ ⟨0, 0, 0, 0⟩ ∧ enc duty ≠ ⟨0, 0, 0xFF, 0x0F⟩ := by
  obtain ⟨-, henc⟩ | ⟨-, henc⟩ | ⟨h0, h1, lo, hi, henc, hduty, -⟩ := enc_cases duty <;> rw [henc]
  · decide
  · decide
  · constructor <;> rintro ⟨⟩
    · exact h0.ne' hduty
    · exact h1.ne hduty

/-- No bit above bit 4 is set in a high byte. -/
theorem enc_high_lt (duty : Int) : (enc duty).onH.toNat < 32 ∧ (enc duty).offH.toNat < 32 := by
  obtain ⟨-, honH, hoffH⟩ := enc_bytes duty
  exact ⟨by obtain h | h := honH <;> rw [h] <;> decide, by omega⟩

theorem enc_saturates (duty : Int) : (duty ≤ 0 → enc duty = enc 0) ∧ (4095 ≤ duty → enc duty = enc 4095) :=
  ⟨fun h => (enc_of_nonpos h).trans (enc_of_nonpos le_rfl).symm,
    fun h => (enc_of_saturated h).trans (enc_of_saturated le_rfl).symm⟩

/-- Settles O14: the inverse gives injectivity, and each of the other parts goes through the arms of ENC. -/
theorem encProperties : Obligations.EncProperties := by
  unfold Obligations.EncProperties
  refine ⟨⟨enc_of_nonpos le_rfl, enc_of_saturated le_rfl, (enc_ne_literal_ends 0).1, (enc_ne_literal_ends 4095).2⟩,
    enc_flags_exclusive, fun duty => (enc_bytes duty).1, fun duty h0 h1 => (duty_enc h0 h1).symm,
    fun d d' => enc_injOn, fun duty => ?_, enc_saturates⟩
  obtain ⟨hzero, hfull⟩ := enc_ne_literal_ends duty
  exact ⟨hzero, hfull, enc_high_lt duty⟩

/-! ## SETDUTY and SETDIG as commands (R71, R72) -/

/-- A channel that is not legal is refused before any bus event. -/
theorem execSetduty_refused {ch : Int} (hch : ¬ channelLegal ch = true) (duty : Int) (s : State) :
    exec (.setduty ch duty) s = .next (s.respond (.single (.err .rangeError))) := by
  rw [exec, execSetduty, setDuty, if_neg hch, finish_raise]

/-- SETDUTY as a command when no candidate answers. -/
theorem execSetduty_none {ch : Int} (hch : channelLegal ch = true) (duty : Int) {s : State} (h : s.NoDevice) :
    ∃ t, exec (.setduty ch duty) s = .next t ∧ Ended s t failedProbes 8 s.ctl (.single (.err .deviceNotFound)) := by
  obtain ⟨t, ht, moved⟩ := discoverThen_none (fun _ t => runSteps (dutyWrites ch.toNat duty) t) h
  rw [← setDuty_eq hch] at ht
  exact ⟨t.respond (.single (.err .deviceNotFound)), by rw [exec, execSetduty, ht, finish_raise], moved.respond _⟩

/-- Settles O32: SETDUTY is the range check, then discovery, then the four writes of the block. -/
theorem setdutyWritesBlock : Obligations.SetdutyWritesBlock := by
  unfold Obligations.SetdutyWritesBlock
  refine ⟨?refused, ?completes, ?noDevice, ?fails⟩
  case refused =>
    intro ch duty s hrange
    exact execSetduty_refused (by rw [channelLegal_iff]; omega) duty s
  case completes =>
    intro ch duty s n a h0 h15 hready
    exact execSetduty_complete (channelLegal_iff.2 ⟨h0, h15⟩) duty hready
  case noDevice =>
    intro ch duty s h0 h15 hnone
    exact execSetduty_none (channelLegal_iff.2 ⟨h0, h15⟩) duty hnone
  case fails =>
    intro ch duty s n k a h0 h15 hdiscovers hk hcompletes hfail
    exact execSetduty_fail (channelLegal_iff.2 ⟨h0, h15⟩) duty hdiscovers hk hcompletes hfail

theorem exec_setdig (ch : Int) (high : Bool) (s : State) :
    exec (.setdig ch high) s = exec (.setduty ch (levelDuty high)) s := rfl

/-- Settles O33: SETDIG is SETDUTY of its level's duty, and the block of that duty is the level's block. -/
theorem setdigWritesLevel : Obligations.SetdigWritesLevel := by
  unfold Obligations.SetdigWritesLevel
  refine ⟨exec_setdig, fun ch high s n a h0 h15 hready => ?_⟩
  rw [exec_setdig, ← dutyWrites_level]
  exact execSetduty_complete (channelLegal_iff.2 ⟨h0, h15⟩) (levelDuty high) hready

end Sys2Proof.Machine
end

/-! PROOFS of the family of controller set-up: PRESCALE, discovery, CFGDEF, SETFREQ and INIT, and the guards of the
prescaler and of the restart. -/

section
namespace Sys2Proof.Machine

/-! ## PRESCALE (R83) -/

/-- The lower bounds of PRESCALE, without a division. -/
theorem le_prescaleWith_iff (tie : RoundTie) {hz : Nat} (h : 1 ≤ hz) (k : Int) :
    k ≤ prescaleWith tie hz ↔ (8192 * k + 4096) * hz ≤ 50000000 := by
  have hd : k * (8192 * (hz : Int)) + 4096 * hz = (8192 * k + 4096) * hz := by ring
  rw [prescaleWith_eq tie hz h, Int.le_ediv_iff_mul_le (by omega), ← hd]
  omega

theorem prescaleWith_nonneg_iff (tie : RoundTie) {hz : Nat} (h : 1 ≤ hz) : 0 ≤ prescaleWith tie hz ↔ hz ≤ 12207 := by
  have := le_prescaleWith_iff tie h 0
  omega

theorem prescaleWith_le_byte_iff (tie : RoundTie) {hz : Nat} (h : 1 ≤ hz) :
    prescaleWith tie hz ≤ 255 ↔ 24 ≤ hz := by
  have := le_prescaleWith_iff tie h 256
  omega

theorem prescaleWith_eq_zero_iff (tie : RoundTie) {hz : Nat} (h : 1 ≤ hz) (hmax : hz ≤ 12207) :
    prescaleWith tie hz = 0 ↔ 4070 ≤ hz := by
  have := (prescaleWith_nonneg_iff tie h).2 hmax
  have := le_prescaleWith_iff tie h 1
  omega

theorem prescaleWith_anti (tie : RoundTie) {hz hz' : Nat} (h : 1 ≤ hz) (hle : hz ≤ hz') (hmax : hz' ≤ 12207) :
    prescaleWith tie hz' ≤ prescaleWith tie hz := by
  have h' : 1 ≤ hz' := h.trans hle
  have hnonneg := (prescaleWith_nonneg_iff tie h').2 hmax
  rw [le_prescaleWith_iff tie h]
  calc (8192 * prescaleWith tie hz' + 4096) * (hz : Int)
      ≤ (8192 * prescaleWith tie hz' + 4096) * (hz' : Int) :=
        mul_le_mul_of_nonneg_left (by exact_mod_cast hle) (by omega)
    _ ≤ 50000000 := (le_prescaleWith_iff tie h' _).1 le_rfl

/-- PRESCALE is R83's formula on rationals. -/
theorem prescaleWith_eq_roundQ (tie : RoundTie) {hz : Nat} (h : 1 ≤ hz) :
    prescaleWith tie hz = roundQ tie (25000000 / (4096 * (hz : ℚ)) - 1) := by
  have hzq : (hz : ℚ) ≠ 0 := by exact_mod_cast Nat.one_le_iff_ne_zero.1 h
  have hquot : (25000000 / (4096 * (hz : ℚ)) - 1) =
      ((25000000 - 4096 * hz : Int) : ℚ) / ((4096 * hz : Int) : ℚ) := by
    push_cast
    field_simp
  rw [hquot, roundQ_div tie _ _ (by omega)]
  rfl

/-- Settles O15: the range, the order and the zeros from the lower bounds, the listed values from the closed form. -/
theorem prescaleFormula : Obligations.PrescaleFormula := by
  unfold Obligations.PrescaleFormula
  refine ⟨fun tie hz h => ⟨prescaleWith_eq_roundQ tie h, prescaleWith_eq tie hz h, ?range⟩,
    fun tie hz hz' hmin hle hmax => ?order, fun tie => ?values, fun _ => rfl⟩
  case range =>
    rw [prescaleWith_nonneg_iff tie h, prescaleWith_le_byte_iff tie h, and_comm]
  case order =>
    have h : 1 ≤ hz := by omega
    exact ⟨prescaleWith_anti tie h hle hmax, prescaleWith_eq_zero_iff tie h (hle.trans hmax)⟩
  case values => norm_num [prescaleWith_eq]

/-! ## DISCOVER and ENSUREADDR (R80, R81, R127) -/

/-- The first `k` candidates fail and the probe of candidate `k` never completes (R81). -/
theorem discover_never (cands : List Addr) (s : State) (k : Nat) (a : Addr) (ha : cands[k]? = some a)
    (hf : ∀ j, j < k → s.outcome j = .fail) (hn : s.outcome k = .never) :
    ∃ t, discover cands s = .hang t.hang ∧
      Moved s t ((cands.take k).map (fun c => Event.read c 0x00 .failed) ++ [.read a 0x00 .pending]) (k + 1) s.ctl := by
  induction cands generalizing s k with
  | nil => simp at ha
  | cons c cands ih =>
    cases k with
    | zero =>
      obtain rfl : c = a := by simpa using ha
      exact ⟨_, by rw [discover, memReadAt_never hn, config_probeReg], moved_transaction s _⟩
    | succ k =>
      have hm := moved_transaction s (.read c 0x00 .failed)
      obtain ⟨t, hr, ht⟩ := ih (s.advance.logEvent (.read c 0x00 .failed)) k (by simpa using ha)
        (fun j hj => by simpa using hf (j + 1) (by omega)) (by simpa using hn)
      refine ⟨t, by simpa [discover, memReadAt_fail (hf 0 (by omega))] using hr, ?_⟩
      simpa [Nat.add_comm] using hm.trans ht

/-- Settles O25: by the three ends of the probing. -/
theorem discoverReturnsFirstResponder : Obligations.DiscoverReturnsFirstResponder := by
  unfold Obligations.DiscoverReturnsFirstResponder
  refine ⟨?found, ?none, ?never, rfl⟩
  case found =>
    intro cands s k a ha hf hc
    obtain ⟨t, ht, moved⟩ := discover_found cands s k a ha hf hc
    exact ⟨t, ht, moved.ctl, moved.motors, by rw [moved.trace, List.append_assoc]⟩
  case none =>
    intro cands s hf
    obtain ⟨t, ht, moved⟩ := discover_none cands s hf
    exact ⟨t, ht, moved.ctl, moved.motors, moved.trace⟩
  case never =>
    intro cands s k a ha hf hn
    obtain ⟨t, ht, moved⟩ := discover_never cands s k a ha hf hn
    exact ⟨t.hang, ht, moved.ctl, moved.motors, rfl, by rw [State.hang_trace, moved.trace, List.append_assoc]⟩

/-- Settles O26: by the ends of ENSUREADDR. -/
theorem ensureAddrCachesOnce : Obligations.EnsureAddrCachesOnce := by
  unfold Obligations.EnsureAddrCachesOnce
  refine ⟨fun s => ensureAddr_cached, fun s n a h => ?_, fun s h => ?_⟩
  · obtain ⟨t, ht, moved⟩ := ensureAddr_found h
    exact ⟨t, ht, moved.ctl, moved.trace⟩
  · obtain ⟨t, ht, moved⟩ := ensureAddr_none h
    exact ⟨t, ht, moved.ctl, moved.trace⟩

/-! ## CFGDEF and SETFREQ (R82, R84) -/

/-- DEV after CFGDEF's three writes: the second write of MODE1 is the one that stays. -/
theorem read_cfgSeq (a : Addr) (m : Memory) (r : Nat) :
    Memory.read ((completedEvents a config.cfgSeq).foldl Event.applyDev m) r =
      if r = 0x00 then some 0x30 else if r = 0x01 then some 0x04 else Memory.read m r := by
  change Memory.read (Memory.write (Memory.write (Memory.write m 0x00 0x10) 0x01 0x04) 0x00 0x30) r = _
  simp only [Memory.read_write]
  split_ifs <;> rfl

/-- DEV after SETFREQ's four writes: the restart byte stays in MODE1. -/
theorem read_freqSeq (a : Addr) (p : Byte) (m : Memory) (r : Nat) :
    Memory.read ((completedEvents a (config.freqSeq p)).foldl Event.applyDev m) r =
      if r = 0x00 then some 0xA0 else if r = 0xFE then some p else Memory.read m r := by
  change Memory.read (Memory.write (Memory.write (Memory.write (Memory.write m 0x00 0x30) 0xFE p) 0x00 0x20) 0x00 0xA0) r = _
  simp only [Memory.read_write]
  split_ifs <;> rfl

/-- Settles O27: CFGDEF is its event list. -/
theorem cfgdefThreeWrites : Obligations.CfgdefThreeWrites := by
  unfold Obligations.CfgdefThreeWrites
  refine ⟨fun s hc => ?completes, fun s k hk hc hf => ?fails⟩
  case completes =>
    obtain ⟨t, ht, moved⟩ := runSteps_complete config.cfgSeq s hc
    exact ⟨t, ht, moved.trace, moved.ctl, moved.motors, by rw [moved.dev, read_cfgSeq]; rfl,
      by rw [moved.dev, read_cfgSeq]; rfl⟩
  case fails =>
    obtain ⟨t, ht, moved⟩ := runSteps_fail config.cfgSeq s k hk hc hf
    exact ⟨t, ht, moved.trace, moved.ctl, moved.motors⟩

theorem not_freqLegal_iff {hz : BitVec 16} : ¬ freqLegal hz = true ↔ hz.toNat < 24 ∨ 12207 < hz.toNat := by
  rw [freqLegal_iff]; omega

/-- Settles O28: SETFREQ is the range check, then its event list, then the recording of the frequency. -/
theorem setfreqSequence : Obligations.SetfreqSequence := by
  unfold Obligations.SetfreqSequence
  refine ⟨fun hz s hrange => ?refused, fun hz s hmin hmax hc => ?completes, fun hz s k hmin hmax hk hc hf => ?fails⟩
  case refused => rw [setFreq, if_neg (not_freqLegal_iff.2 hrange)]
  case completes =>
    obtain ⟨t, ht, moved⟩ := runSteps_complete (config.freqSeq (BitVec.ofInt 8 (prescale hz.toNat))) s hc
    have recorded := moved.setFreq hz
    refine ⟨t.setFreq hz, ?_, recorded.ctl, recorded.motors, recorded.trace⟩
    rw [setFreq_eq (freqLegal_iff.2 ⟨hmin, hmax⟩), ht, OpResult.bind_done]
  case fails =>
    obtain ⟨t, ht, moved⟩ := runSteps_fail (config.freqSeq (BitVec.ofInt 8 (prescale hz.toNat))) s k hk hc hf
    refine ⟨t, ?_, moved.ctl, moved.motors, moved.trace⟩
    rw [setFreq_eq (freqLegal_iff.2 ⟨hmin, hmax⟩), ht, OpResult.bind_raise]

/-! ## INIT (R85, R86) -/

/-- INIT as a command when discovery settles and its 39 writes complete. -/
theorem execInit_complete {hz : BitVec 16} (hl : freqLegal hz = true) {s : State} {n : Nat} {a : Addr}
    (hr : s.Ready n a 39) :
    ∃ t, exec (.init hz) s = .next t ∧
      Ended s t (probeEvents n a ++ completedEvents a (initSteps s.motors (BitVec.ofInt 8 (prescale hz.toNat)))) (n + 39)
        (s.ctl.withAddrFreq a hz) (.single .ok) := by
  obtain ⟨t, ht, moved⟩ := initController_complete hl hr
  exact ⟨t.respond (.single .ok), by rw [exec, execInit, ht, finish_done], moved.respond _⟩

/-- An INIT that raises an error responds with it. -/
theorem execInit_raise {hz : BitVec 16} {s t : State} {e : ErrKind} (h : initController hz s = .raise e t) :
    exec (.init hz) s = .next (t.respond (.single (.err e))) := by
  rw [exec, execInit, h, finish_raise]

/-- Settles O29: the ends of INIT's operation, each with its response. -/
theorem initSequence : Obligations.InitSequence := by
  unfold Obligations.InitSequence
  refine ⟨fun hz s hrange => ?refused, fun hz s n a hmin hmax => execInit_complete (freqLegal_iff.2 ⟨hmin, hmax⟩),
    fun hz s hmin hmax hnone => ?noDevice⟩
  case refused =>
    have hraise : initController hz s = .raise .rangeError s := by
      rw [initController, if_neg (not_freqLegal_iff.2 hrange)]
    exact execInit_raise hraise
  case noDevice =>
    obtain ⟨t, ht, moved⟩ := initController_none (freqLegal_iff.2 ⟨hmin, hmax⟩) hnone
    exact ⟨_, execInit_raise ht, moved.respond _⟩

/-- Settles O30: INIT's operation raises the failing write's error. -/
theorem initStopsAtFirstError : Obligations.InitStopsAtFirstError := by
  unfold Obligations.InitStopsAtFirstError
  intro hz s n k a hmin hmax hd hk hc hf
  obtain ⟨t, ht, moved⟩ := initController_fail (freqLegal_iff.2 ⟨hmin, hmax⟩) hd hk hc hf
  exact ⟨_, execInit_raise ht, moved.respond _⟩

/-- INIT's event list, with the zeroing as a list of channels. -/
theorem initSteps_eq_flatMap (m : PerWheel MotorCfg) (p : Byte) :
    initSteps m p = config.cfgSeq ++ config.freqSeq p ++
      ((knownChannels m).map BitVec.toNat).flatMap fullOffWrites := by
  rw [initSteps_eq, List.flatMap_map, knownChannels_writes]

theorem lt_of_mem_knownChannels {m : PerWheel MotorCfg} {ch : Nat} (h : ch ∈ (knownChannels m).map BitVec.toNat) :
    ch < 16 := by
  obtain ⟨c, -, rfl⟩ := List.mem_map.1 h
  exact c.isLt

theorem mem_knownChannels {m : PerWheel MotorCfg} {w : Wheel} {ch : Nat}
    (h : ch ∈ [(m.get w).dir.toNat, (m.get w).pwm.toNat]) : ch ∈ (knownChannels m).map BitVec.toNat := by
  obtain ⟨c, hc, rfl⟩ : ∃ c ∈ [(m.get w).dir, (m.get w).pwm], BitVec.toNat c = ch := List.mem_map.1 h
  exact List.mem_map_of_mem (List.mem_flatMap.2 ⟨w, by cases w <;> decide, hc⟩)

/-- Settles O31: the zeroing leaves the known channels full-off and does not reach the set-up registers, which hold what
SETFREQ and, before it, CFGDEF left there. -/
theorem initLeavesKnownChannelsOff : Obligations.InitLeavesKnownChannelsOff := by
  unfold Obligations.InitLeavesKnownChannelsOff
  intro hz s t n a hmin hmax hr h
  obtain ⟨t', ht', ended⟩ := execInit_complete (freqLegal_iff.2 ⟨hmin, hmax⟩) hr
  cases h.symm.trans ht'
  rw [ended.dev, List.foldl_append, probeEvents_dev, initSteps_eq_flatMap, completedEvents_append, completedEvents_append,
    List.foldl_append, List.foldl_append]
  generalize BitVec.ofInt 8 (prescale hz.toNat) = p
  obtain ⟨off, outside⟩ := fullOff_after a _ (fun _ => lt_of_mem_knownChannels (m := s.motors))
    ((completedEvents a (config.freqSeq p)).foldl Event.applyDev
      ((completedEvents a config.cfgSeq).foldl Event.applyDev s.dev))
  refine ⟨?_, ?_, ?_, fun w ch hch => ?_⟩
  · rw [outside _ (by decide), read_freqSeq]; rfl
  · rw [outside _ (by decide), read_freqSeq, read_cfgSeq]; rfl
  · rw [outside _ (by decide), read_freqSeq]; rfl
  · have hknown := mem_knownChannels hch
    exact off ch (lt_of_mem_knownChannels hknown) (.inr hknown)

/-! ## The guards of the prescaler and of the restart (R84, R153, R154) -/

/-- A write to PRESCALE. -/
def Event.isPrescale : Event → Bool
  | .write _ reg _ _ => reg == 0xFE
  | _ => false

/-- A write of the restart byte to MODE1. -/
def Event.isRestart : Event → Bool
  | .write _ reg v _ => reg == 0x00 && v == 0xA0
  | _ => false

/-- Both guards hold within a stretch of the trace. -/
def Guarded (t : List Event) : Prop := PrescalerGuarded t ∧ RestartDelayed t

theorem prescalerGuarded_of_quiet {t : List Event} (h : ∀ e ∈ t, e.isPrescale = false) : PrescalerGuarded t := by
  rintro before after dev v f rfl
  have hwrite := h (.write dev 0xFE v f) (by simp)
  simp [Event.isPrescale] at hwrite

theorem restartDelayed_of_quiet {t : List Event} (h : ∀ e ∈ t, e.isRestart = false) : RestartDelayed t := by
  rintro before after dev f rfl
  have hwrite := h (.write dev 0x00 0xA0 f) (by simp)
  simp [Event.isRestart] at hwrite

theorem guarded_of_quiet {t : List Event} (h : ∀ e ∈ t, e.isPrescale = false ∧ e.isRestart = false) : Guarded t :=
  ⟨prescalerGuarded_of_quiet fun e he => (h e he).1, restartDelayed_of_quiet fun e he => (h e he).2⟩

/-- What a guard asks of an event looks at that event's own stretch alone. -/
theorem PrescalerGuarded.append {t u : List Event} (ht : PrescalerGuarded t) (hu : PrescalerGuarded u) :
    PrescalerGuarded (t ++ u) := by
  intro before after dev v f h
  obtain ⟨w, rfl, hw⟩ | ⟨w, rfl, hw⟩ := List.append_eq_append_iff.1 h
  · obtain ⟨⟨before', rfl⟩, hwake⟩ := hu w after dev v f hw
    exact ⟨⟨t ++ before', by simp⟩, hwake⟩
  · cases w with
    | nil =>
      obtain ⟨⟨before', hb⟩, hwake⟩ := hu [] after dev v f hw.symm
      simp at hb
    | cons e w =>
      obtain ⟨rfl, rfl⟩ := List.cons_eq_cons.1 hw
      obtain ⟨hsleep, hwake⟩ := ht before w dev v f rfl
      refine ⟨hsleep, fun hf => ?_⟩
      obtain ⟨f', after', rfl⟩ := hwake hf
      exact ⟨f', after' ++ u, rfl⟩

theorem RestartDelayed.append {t u : List Event} (ht : RestartDelayed t) (hu : RestartDelayed u) :
    RestartDelayed (t ++ u) := by
  intro before after dev f h
  obtain ⟨w, rfl, hw⟩ | ⟨w, rfl, hw⟩ := List.append_eq_append_iff.1 h
  · obtain ⟨before', rfl⟩ := hu w after dev f hw
    exact ⟨t ++ before', by simp⟩
  · cases w with
    | nil =>
      obtain ⟨before', hb⟩ := hu [] after dev f hw.symm
      simp at hb
    | cons e w =>
      obtain ⟨rfl, rfl⟩ := List.cons_eq_cons.1 hw
      exact ht before w dev f rfl

theorem Guarded.append {t u : List Event} (ht : Guarded t) (hu : Guarded u) : Guarded (t ++ u) :=
  ⟨ht.1.append hu.1, ht.2.append hu.2⟩

/-- A prescaler write right after the sleep write, and right before the wake write if it completed. -/
theorem prescalerGuarded_of_slept (a : Addr) (p : Byte) (f : Fate) {rest : List Event}
    (hwake : f = .completed → ∃ f' rest', rest = .write a 0x00 0x20 f' :: rest')
    (hrest : ∀ e ∈ rest, e.isPrescale = false) :
    PrescalerGuarded (.write a 0x00 0x30 .completed :: .write a 0xFE p f :: rest) := by
  intro before after dev v f' h
  obtain _ | ⟨e, _ | ⟨e', before⟩⟩ := before
  · simp at h
  · obtain ⟨rfl, ⟨rfl, rfl, rfl⟩, rfl⟩ := by simpa using h
    exact ⟨⟨[], rfl⟩, hwake⟩
  · obtain ⟨-, -, rfl⟩ := by simpa using h
    have hwrite := hrest (.write dev 0xFE v f') (by simp)
    simp [Event.isPrescale] at hwrite

/-- A restart write right after the wake write and the delay. -/
theorem restartDelayed_of_waited (a : Addr) (f : Fate) :
    RestartDelayed [.write a 0x00 0x20 .completed, .delay 5, .write a 0x00 0xA0 f] := by
  intro before after dev f' h
  obtain _ | ⟨e, _ | ⟨e', _ | ⟨e'', before⟩⟩⟩ := before <;> simp at h
  obtain ⟨rfl, rfl, ⟨rfl, -⟩, -⟩ := h
  exact ⟨[], rfl⟩

/-! ## Operations whose events are guarded -/

/-- The operation's new events are guarded. -/
def Guards (s : State) {α : Type} (r : OpResult α) : Prop :=
  ∃ evs, r.state.trace = s.trace ++ evs ∧ Guarded evs

section
variable {α β : Type} {s : State}

theorem guards_of_trace {r : OpResult α} (h : r.state.trace = s.trace) : Guards s r :=
  ⟨[], by simp [h], guarded_of_quiet (by simp)⟩

theorem Guards.bind {r : OpResult α} {f : α → State → OpResult β} (h : Guards s r)
    (hf : ∀ v t, Guards t (f v t)) : Guards s (r.bind f) := by
  obtain ⟨evs, htrace, hevs⟩ := h
  cases r with
  | done v t =>
    obtain ⟨evs', htrace', hevs'⟩ := hf v t
    exact ⟨evs ++ evs', by rw [OpResult.bind_done, htrace', ← List.append_assoc, ← htrace, OpResult.state_done],
      hevs.append hevs'⟩
  | raise e t => exact ⟨evs, htrace, hevs⟩
  | hang t => exact ⟨evs, htrace, hevs⟩

/-- The registers of the channel blocks lie between the mode registers and PRESCALE. -/
def InBlocks (r : Reg) : Prop := 0x06 ≤ r.toNat ∧ r.toNat ≤ 0x45

/-- A write to a block register is neither a prescaler nor a restart write. -/
theorem InBlocks.quiet {r : Reg} (h : InBlocks r) : r ≠ 0xFE ∧ r ≠ 0x00 := by
  obtain ⟨hlo, hhi⟩ := h
  exact ⟨by rintro rfl; simp at hhi, by rintro rfl; simp at hlo⟩

/-- An operation that writes channel blocks alone touches neither PRESCALE nor MODE1. -/
theorem Runs.guards {F : Prop} {r : OpResult α} (h : Runs (Within InBlocks) F s r) : Guards s r := by
  obtain ⟨evs, htrace, hquiet⟩ := h.moves.events_of (P := fun e => e.isPrescale = false ∧ e.isRestart = false)
    (fun a reg v f hreg => by
      obtain ⟨hprescale, hmode⟩ := InBlocks.quiet hreg
      simp only [Event.isPrescale, Event.isRestart, beq_eq_false_iff_ne, Bool.and_eq_false_iff]
      exact ⟨hprescale, .inl hmode⟩)
    (fun _ _ _ => ⟨rfl, rfl⟩) ⟨rfl, rfl⟩
  exact ⟨evs, htrace, guarded_of_quiet hquiet⟩

end

/-- An event list is guarded if it is when it completes and when it is cut short. -/
theorem runSteps_guards {es : List BusStep} (hdone : ∀ a, Guarded (completedEvents a es))
    (hcut : ∀ a f k, f ≠ .completed → k < transactions es → Guarded (cutEvents a f k es)) (s : State) :
    Guards s (runSteps es s) := by
  obtain ⟨t, e, hm⟩ | ⟨k, t, hk, e, hm⟩ | ⟨k, t, hk, e, hm⟩ := runSteps_cases es s <;> rw [e]
  · exact ⟨_, hm.trace, hdone _⟩
  · exact ⟨_, hm.trace, hcut _ _ k nofun hk⟩
  · exact ⟨_, hm.trace, hcut _ _ k nofun hk⟩

theorem guarded_slept (a : Addr) (p : Byte) {f : Fate} (hf : f ≠ .completed) :
    Guarded [.write a 0x00 0x30 .completed, .write a 0xFE p f] :=
  ⟨prescalerGuarded_of_slept a p f (fun h => absurd h hf) (by simp),
    restartDelayed_of_quiet (by simp [Event.isRestart])⟩

theorem guarded_woken (a : Addr) (p : Byte) (f : Fate) :
    Guarded [.write a 0x00 0x30 .completed, .write a 0xFE p .completed, .write a 0x00 0x20 f] :=
  ⟨prescalerGuarded_of_slept a p _ (fun _ => ⟨f, [], rfl⟩) (by simp [Event.isPrescale]),
    restartDelayed_of_quiet (by simp [Event.isRestart])⟩

theorem guarded_restarted (a : Addr) (p : Byte) (f : Fate) :
    Guarded [.write a 0x00 0x30 .completed, .write a 0xFE p .completed, .write a 0x00 0x20 .completed, .delay 5,
      .write a 0x00 0xA0 f] :=
  ⟨prescalerGuarded_of_slept a p _ (fun _ => ⟨_, _, rfl⟩) (by simp [Event.isPrescale]),
    (restartDelayed_of_quiet (t := [.write a 0x00 0x30 .completed, .write a 0xFE p .completed])
      (by simp [Event.isRestart])).append (restartDelayed_of_waited a f)⟩

/-- SETFREQ's events, complete or cut at any of the four writes. -/
theorem freqSeq_guards (p : Byte) (s : State) : Guards s (runSteps (config.freqSeq p) s) := by
  refine runSteps_guards (es := config.freqSeq p) (fun a => guarded_restarted a p .completed) (fun a f k hf hk => ?_) s
  have hk4 : k < 4 := hk
  interval_cases k
  · exact guarded_of_quiet (t := [.write a 0x00 0x30 f]) (by simp [Event.isPrescale, Event.isRestart])
  · exact guarded_slept a p hf
  · exact guarded_woken a p f
  · exact guarded_restarted a p f

/-- An event list with neither a prescaler nor a restart write. -/
theorem runSteps_guards_of_quiet {es : List BusStep}
    (h : ∀ r v, BusStep.write r v ∈ es → r ≠ 0xFE ∧ (r = 0x00 → v ≠ 0xA0)) (s : State) : Guards s (runSteps es s) := by
  induction es generalizing s with
  | nil => exact guards_of_trace rfl
  | cons e es ih =>
    have hfirst : Guards s (runStep e s) := by
      cases e with
      | delay ms => exact ⟨[.delay ms], rfl, guarded_of_quiet (by simp [Event.isPrescale, Event.isRestart])⟩
      | write r v =>
        obtain ⟨hr, hv⟩ := h r v (by simp)
        have hquiet : ∀ f, Guarded [.write s.ctl.addr r v f] := fun f =>
          guarded_of_quiet (by simpa [Event.isPrescale, Event.isRestart] using ⟨hr, hv⟩)
        unfold runStep memWrite
        cases s.outcome 0 with
        | complete b => exact ⟨_, rfl, hquiet _⟩
        | fail => exact ⟨_, rfl, hquiet _⟩
        | never => exact ⟨_, rfl, hquiet _⟩
    exact hfirst.bind fun _ t => ih (fun r v hm => h r v (List.mem_cons_of_mem _ hm)) t

/-! ## Every command, construction and step -/

/-- A write of a legal channel's block goes to a block register. -/
theorem inBlocks_of_blockSteps {ch : Int} (h : channelLegal ch = true) {b : Block} {r : Reg} {v : Byte}
    (hm : BusStep.write r v ∈ blockSteps ch b) : InBlocks r := by
  have hch : ch.toNat < 16 := by rw [channelLegal_iff] at h; omega
  exact blockRegs_range hch (reg_of_blockSteps h hm)

/-- The zeroing writes of INIT go to block registers. -/
theorem zeroing_inBlocks (m : PerWheel MotorCfg) (r : Reg) (v : Byte) (h : BusStep.write r v ∈ Wheel.order.flatMap fun w =>
    fullOffWrites (m.get w).dir.toNat ++ fullOffWrites (m.get w).pwm.toNat) : InBlocks r := by
  have hblock : ∀ ch : BitVec 4, BusStep.write r v ∈ fullOffWrites ch.toNat → InBlocks r := fun ch hm =>
    inBlocks_of_blockSteps (channelLegal_channel ch) (b := enc 0) (by rwa [blockSteps_eq (channelLegal_channel ch)])
  obtain ⟨w, -, hw⟩ := List.mem_flatMap.1 h
  exact (List.mem_append.1 hw).elim (hblock _) (hblock _)

theorem cfgSeq_quiet (r : Reg) (v : Byte) (h : BusStep.write r v ∈ config.cfgSeq) : r ≠ 0xFE ∧ (r = 0x00 → v ≠ 0xA0) := by
  simp only [config_cfgSeq, List.mem_cons, BusStep.write.injEq, List.not_mem_nil, or_false] at h
  obtain ⟨rfl, rfl⟩ | ⟨rfl, rfl⟩ | ⟨rfl, rfl⟩ := h <;> decide

/-- INIT: CFGDEF's writes and the zeroing are quiet, and SETFREQ's events are guarded. -/
theorem initController_guards {s : State} (hs : s.stuck = false) (hz : BitVec 16) :
    Guards s (initController hz s) := by
  by_cases hl : freqLegal hz = true
  · rw [initController_eq hl]
    refine (ensureAddr_runs (W := Within InBlocks) (F := False) hs).1.guards.bind fun _ t => ?_
    rw [runSteps_append]
    generalize BitVec.ofInt 8 (prescale hz.toNat) = p
    refine ((runSteps_guards_of_quiet cfgSeq_quiet t).bind fun _ u => freqSeq_guards p u).bind fun _ u => ?_
    refine runSteps_guards_of_quiet (fun r v hm => ?_) (u.setFreq hz)
    exact (zeroing_inBlocks s.motors r v hm).quiet.imp_right fun hmode h => absurd h hmode
  · rw [initController, if_neg hl]
    exact guards_of_trace rfl

/-- A command other than INIT writes channel blocks alone. -/
theorem operation_inBlocks {i : Instr} (hi : ¬ configures i) {s : State} (hs : s.stuck = false) :
    Runs (Within InBlocks) False s (operation i s).2 := by
  have channel : ∀ (ch : BitVec 4) (duty : Int) (r : Reg) (v : Byte),
      BusStep.write r v ∈ blockSteps (ch.toNat : Int) (enc duty) → InBlocks r := fun ch duty r v =>
    inBlocks_of_blockSteps (channelLegal_channel ch)
  have wheels : ∀ p, Runs (Within InBlocks) False s (setPower4 p s) := fun p =>
    wheelLoop_runs p Wheel.order _ hs fun _ _ _ r v _ hm => hm.elim (channel _ _ r v) (channel _ _ r v)
  cases i with
  | drive x y h => exact wheels _
  | setpower4 bl fl br fr => exact wheels _
  | allstop => exact wheels _
  | cleanup => exact cleanupAll_within hs
  | msetpower w p => exact motorSetPower_runs hs w _ fun _ r v _ hm => hm.elim (channel _ _ r v) (channel _ _ r v)
  | setduty ch duty => exact setDuty_runs hs ch duty fun hl _ _ => inBlocks_of_blockSteps hl
  | setdig ch high => exact setDuty_runs hs ch _ fun hl _ _ => inBlocks_of_blockSteps hl
  | init hz => exact absurd trivial hi

theorem operation_guards (i : Instr) {s : State} (hs : s.stuck = false) : Guards s (operation i s).2 := by
  by_cases hi : configures i
  · obtain ⟨hz, rfl⟩ := configures_iff.1 hi
    exact initController_guards hs hz
  · exact (operation_inBlocks hi hs).guards

/-- A construction's trace is that of its INIT, or empty. -/
theorem construct_guarded (x : XCfg) (s : State) : Guarded (construct x s).trace := by
  have hnil : Guarded [] := guarded_of_quiet (by simp)
  obtain ⟨evs, htrace, hevs⟩ := initController_guards (s := fresh (motorsOf x) s) rfl x.hz
  obtain rfl : (initController x.hz (fresh (motorsOf x) s)).state.trace = evs := htrace
  obtain ⟨-, e⟩ | ⟨-, -, e⟩ | ⟨-, -, ⟨u, t, hr, e⟩ | ⟨u, t, hr, e⟩ | ⟨t, hr, e⟩⟩ := construct_cases x s <;> rw [e]
  · exact hnil
  · exact hnil
  all_goals
    rw [hr] at hevs
    exact hevs

/-- Settles O60: a command appends guarded events to the trace, and a construction starts it anew with guarded
events. -/
theorem stepKeepsPrescalerGuarded : Obligations.StepKeepsPrescalerGuarded := by
  unfold Obligations.StepKeepsPrescalerGuarded
  intro s t hprescale hrestart h
  have hs : Guarded s.trace := ⟨hprescale, hrestart⟩
  obtain rfl | ⟨-, x, rest, -, rfl⟩ | ⟨hstuck, c, rest, -, ⟨-, rfl⟩ | ⟨-, ⟨why, -, rfl⟩ | ⟨i, -, he⟩⟩⟩ := step_cases h
  · exact hs
  · exact construct_guarded x _
  · exact hs
  · exact hs
  · obtain ⟨evs, htrace, hevs⟩ := operation_guards i (s := s.withHost rest) hstuck
    have ht : t.trace = s.trace ++ evs := by
      obtain ⟨-, rfl⟩ | ⟨-, r, rfl⟩ := exec_end he
      · exact htrace
      · exact htrace
    rw [ht]
    exact hs.append hevs

end Sys2Proof.Machine
end

/-! PROOFS of the family of the scaler: `round` and the duty of a magnitude in integers, SCALE against its rule on
rationals, what SCALE can yield, and how MSETPOWER ends. -/

section
namespace Sys2Proof

/-! ## `round` by its three cases (R7) -/

theorem roundDiv_of_lt_half (tie : RoundTie) {n d : Int} (h : 2 * (n % d) < d) : roundDiv tie n d = n / d := if_pos h

theorem roundDiv_of_half_lt (tie : RoundTie) {n d : Int} (h : d < 2 * (n % d)) : roundDiv tie n d = n / d + 1 :=
  (if_neg h.not_gt).trans (if_pos h)

theorem roundDiv_halfAway_of_half {n d : Int} (h : 2 * (n % d) = d) : roundDiv .halfAway n d = n / d + 1 :=
  (if_neg h.not_lt).trans (if_neg h.not_gt)

theorem roundDiv_halfEven_of_half {n d : Int} (h : 2 * (n % d) = d) :
    roundDiv .halfEven n d = if n / d % 2 = 0 then n / d else n / d + 1 :=
  (if_neg h.not_lt).trans (if_neg h.not_gt)

namespace Machine

/-! ## The duty of a magnitude in integers (R101) -/

/-- R101's fraction 1638/2560 has the quotient of the model's 4095/6400. -/
theorem scaled_ediv (c : Nat) : (c : Int) * 4095 / 6400 = (1638 * c / 2560 : Nat) := by omega

/-- The remainders of the two fractions stand in the ratio of the denominators. -/
theorem scaled_emod (c : Nat) : 2 * ((c : Int) * 4095 % 6400) = 5 * (1638 * c % 2560 : Nat) := by omega

theorem dutyOfMagnitude_of_lt_half (tie : RoundTie) {c : Nat} (h : 1638 * c % 2560 < 1280) :
    dutyOfMagnitude tie c = (1638 * c / 2560 : Nat) := by
  have hr := scaled_emod c
  rw [dutyOfMagnitude_eq, roundDiv_of_lt_half tie (by omega), scaled_ediv]

theorem dutyOfMagnitude_of_half_lt (tie : RoundTie) {c : Nat} (h : 1280 < 1638 * c % 2560) :
    dutyOfMagnitude tie c = (1638 * c / 2560 : Nat) + 1 := by
  have hr := scaled_emod c
  rw [dutyOfMagnitude_eq, roundDiv_of_half_lt tie (by omega), scaled_ediv]

theorem dutyOfMagnitude_halfAway_of_half {c : Nat} (h : 1638 * c % 2560 = 1280) :
    dutyOfMagnitude .halfAway c = (1638 * c / 2560 : Nat) + 1 := by
  have hr := scaled_emod c
  rw [dutyOfMagnitude_eq, roundDiv_halfAway_of_half (by omega), scaled_ediv]

theorem dutyOfMagnitude_halfEven_of_half {c : Nat} (h : 1638 * c % 2560 = 1280) :
    dutyOfMagnitude .halfEven c =
      if 1638 * c / 2560 % 2 = 0 then ((1638 * c / 2560 : Nat) : Int) else (1638 * c / 2560 : Nat) + 1 := by
  have hr := scaled_emod c
  rw [dutyOfMagnitude_eq, roundDiv_halfEven_of_half (by omega), scaled_ediv]
  norm_cast

/-- The magnitudes at which the duty is an exact half. -/
theorem half_iff {c : Nat} (h : c ≤ 6400) :
    1638 * c % 2560 = 1280 ↔ c = 640 ∨ c = 1920 ∨ c = 3200 ∨ c = 4480 ∨ c = 5760 := by
  omega

/-- The tie settings differ exactly at a half that lies above an even duty. -/
theorem halfEven_ne_halfAway_iff {c : Nat} :
    dutyOfMagnitude .halfEven c ≠ dutyOfMagnitude .halfAway c ↔ 1638 * c % 2560 = 1280 ∧ 1638 * c / 2560 % 2 = 0 := by
  obtain hlt | heq | hgt := lt_trichotomy (1638 * c % 2560) 1280
  · simp [dutyOfMagnitude_of_lt_half _ hlt, hlt.ne]
  · rw [dutyOfMagnitude_halfEven_of_half heq, dutyOfMagnitude_halfAway_of_half heq]
    split_ifs with heven <;> simp [heq, heven]
  · simp [dutyOfMagnitude_of_half_lt _ hgt, hgt.ne']

/-- Settles O20: the three cases of the remainder, and the listed values by evaluation. -/
theorem tiesOnlyAtFiveMagnitudes : Obligations.TiesOnlyAtFiveMagnitudes := by
  unfold Obligations.TiesOnlyAtFiveMagnitudes
  refine ⟨fun tie c _ => ?integers, fun c => half_iff, fun c hc => ?differ, by decide⟩
  case integers =>
    intro q r
    obtain hlt | hhalf | hgt := lt_trichotomy r 1280
    · rw [if_pos hlt]
      exact dutyOfMagnitude_of_lt_half tie hlt
    · rw [if_neg hhalf.not_lt, if_neg hhalf.not_gt]
      cases tie with
      | halfAway => exact dutyOfMagnitude_halfAway_of_half hhalf
      | halfEven => exact dutyOfMagnitude_halfEven_of_half hhalf
    · rw [if_neg hgt.not_gt, if_pos hgt]
      exact dutyOfMagnitude_of_half_lt tie hgt
  case differ =>
    rw [halfEven_ne_halfAway_iff, half_iff hc]
    constructor
    · rintro ⟨rfl | rfl | rfl | rfl | rfl, heven⟩ <;> simp at heven ⊢
    · rintro (rfl | rfl) <;> simp

/-! ## The range of the duty (R95, R100, R102) -/

theorem dutyOfMagnitude_nonneg (tie : RoundTie) (c : Nat) : 0 ≤ dutyOfMagnitude tie c := by
  have := dutyOfMagnitude_bounds tie c
  omega

theorem dutyOfMagnitude_zero (tie : RoundTie) : dutyOfMagnitude tie 0 = 0 := by
  have := dutyOfMagnitude_bounds tie 0
  omega

/-- Up to and including the deadband SCALE's duty is 0. -/
theorem scaleWith_duty_of_le (tie : RoundTie) {m : MotorCfg} {p : Int} (h : p.natAbs ≤ m.deadband.toNat) :
    (scaleWith tie m p).duty = 0 := by
  rw [scaleWith_duty, if_pos h]

/-- Above the deadband SCALE's duty is that of the capped magnitude. -/
theorem scaleWith_duty_of_lt (tie : RoundTie) {m : MotorCfg} {p : Int} (h : m.deadband.toNat < p.natAbs) :
    (scaleWith tie m p).duty = dutyOfMagnitude tie (min m.maxpct.toNat p.natAbs) := by
  rw [scaleWith_duty, if_neg h.not_ge]

theorem scaleWith_duty_nonneg (tie : RoundTie) (m : MotorCfg) (p : Int) : 0 ≤ (scaleWith tie m p).duty := by
  obtain h | h := le_or_gt p.natAbs m.deadband.toNat
  · rw [scaleWith_duty_of_le tie h]
  · rw [scaleWith_duty_of_lt tie h]
    exact dutyOfMagnitude_nonneg tie _

/-- The duty is at most that of the cap. -/
theorem scaleWith_duty_le_cap (tie : RoundTie) (m : MotorCfg) (p : Int) :
    (scaleWith tie m p).duty ≤ dutyOfMagnitude tie m.maxpct.toNat := by
  obtain h | h := le_or_gt p.natAbs m.deadband.toNat
  · rw [scaleWith_duty_of_le tie h]
    exact dutyOfMagnitude_nonneg tie _
  · rw [scaleWith_duty_of_lt tie h]
    exact dutyOfMagnitude_mono tie (min_le_left _ _)

theorem scaleWith_duty_mono (tie : RoundTie) (m : MotorCfg) {p q : Int} (h : p.natAbs ≤ q.natAbs) :
    (scaleWith tie m p).duty ≤ (scaleWith tie m q).duty := by
  obtain hp | hp := le_or_gt p.natAbs m.deadband.toNat
  · rw [scaleWith_duty_of_le tie hp]
    exact scaleWith_duty_nonneg tie m q
  · rw [scaleWith_duty_of_lt tie hp, scaleWith_duty_of_lt tie (hp.trans_le h)]
    exact dutyOfMagnitude_mono tie (min_le_min_left _ h)

/-! ## SCALE on rationals (R95) -/

theorem dutyOfMagnitude_eq_roundQ (tie : RoundTie) (c : Nat) :
    dutyOfMagnitude tie c = roundQ tie (pct c / 100 * 4095) := by
  have hquot : pct c / 100 * 4095 = (((c : Int) * 4095 : Int) : ℚ) / ((6400 : Int) : ℚ) := by
    rw [pct]; push_cast; ring
  rw [hquot, roundQ_div tie _ _ (by decide), dutyOfMagnitude_eq]

theorem pct_natAbs_le {p : Int} {n : Nat} : |pct p| ≤ pct n ↔ p.natAbs ≤ n := by
  rw [pct_abs, pct_le, Nat.cast_le]

/-- Steps 5 to 7 of R95 on rationals. -/
theorem scaleWith_duty_eq_roundQ (tie : RoundTie) (m : MotorCfg) (p : Int) :
    (scaleWith tie m p).duty =
      if |pct p| ≤ pct m.deadband.toNat then 0 else roundQ tie (min (pct m.maxpct.toNat) |pct p| / 100 * 4095) := by
  rw [scaleWith_duty, dutyOfMagnitude_eq_roundQ, Nat.cast_min, ← pct_min, ← pct_abs]
  exact if_congr pct_natAbs_le.symm rfl rfl

/-- Step 2 of R95 on rationals. -/
theorem pct_effectivePower (m : MotorCfg) (p : Int) :
    pct (effectivePower m p) = if m.polneg then -pct p else pct p := by
  rw [effectivePower, apply_ite pct]
  congr 1
  rw [pct, pct, Int.cast_neg, neg_div]

theorem pct_nonneg {p : Int} : 0 ≤ pct p ↔ 0 ≤ p := by
  simpa [pct] using pct_le (a := 0) (b := p)

/-- Settles O16: each step of SCALE is its step on rationals, and the cap bounds the duty. -/
theorem scaleIsTheRationalRule : Obligations.ScaleIsTheRationalRule := by
  unfold Obligations.ScaleIsTheRationalRule
  refine ⟨fun tie m p => ?rule, fun _ _ => rfl, fun tie m p hcap => ⟨scaleWith_duty_nonneg tie m p, ?top⟩⟩
  case rule =>
    intro effective magnitude
    have heff : effective = pct (effectivePower m p) := (pct_effectivePower m p).symm
    have hmag : magnitude = |pct p| := by
      rw [show magnitude = |effective| from rfl, heff, pct_abs, natAbs_effectivePower, ← pct_abs]
    rw [hmag, heff]
    exact ⟨decide_eq_decide.2 pct_nonneg.symm, scaleWith_duty_eq_roundQ tie m p⟩
  case top =>
    have hle := scaleWith_duty_le_cap tie m p
    have hbound := dutyOfMagnitude_bounds tie m.maxpct.toNat
    omega

/-- Settles O19: the duty of the cap, on rationals, at the default cap and at 0. -/
theorem safetyCapBoundsDuty : Obligations.SafetyCapBoundsDuty := by
  unfold Obligations.SafetyCapBoundsDuty
  refine ⟨fun tie m p => ?cap, fun tie m p hcap => ?default, fun tie m p hcap => ?zero⟩
  case cap =>
    rw [← dutyOfMagnitude_eq_roundQ]
    exact scaleWith_duty_le_cap tie m p
  case default =>
    have hle := scaleWith_duty_le_cap tie m p
    have hbound := dutyOfMagnitude_bounds tie m.maxpct.toNat
    omega
  case zero =>
    have hle := scaleWith_duty_le_cap tie m p
    rw [hcap] at hle
    exact le_antisymm (hle.trans_eq (dutyOfMagnitude_zero tie)) (scaleWith_duty_nonneg tie m p)

/-! ## The duties SCALE can produce (R102) -/

/-- The raw magnitude nearest to a duty. -/
def magnitudeOfDuty (d : Nat) : Nat := (6400 * d + 2047) / 4095

/-- The magnitude nearest to a duty has that duty: one unit of magnitude is less than one unit of duty. -/
theorem dutyOfMagnitude_magnitudeOfDuty (tie : RoundTie) (d : Nat) : dutyOfMagnitude tie (magnitudeOfDuty d) = d := by
  have hbound := dutyOfMagnitude_bounds tie (magnitudeOfDuty d)
  have hnear : 8190 * magnitudeOfDuty d ≤ 12800 * d + 4094 ∧ 12800 * d ≤ 8190 * magnitudeOfDuty d + 4094 := by
    rw [magnitudeOfDuty]; omega
  omega

/-- A duty is reached when its magnitude lies above the deadband and within the cap. -/
theorem scaleWith_duty_magnitudeOfDuty (tie : RoundTie) {m : MotorCfg} {d : Nat}
    (hlo : m.deadband.toNat < magnitudeOfDuty d) (hhi : magnitudeOfDuty d ≤ m.maxpct.toNat) :
    (scaleWith tie m (magnitudeOfDuty d)).duty = d := by
  rw [scaleWith_duty_of_lt tie (by simpa using hlo), Int.natAbs_natCast, min_eq_right hhi,
    dutyOfMagnitude_magnitudeOfDuty]

theorem scaleWith_duty_zero (tie : RoundTie) (m : MotorCfg) : (scaleWith tie m 0).duty = 0 :=
  scaleWith_duty_of_le tie (Nat.zero_le _)

/-- Of all magnitudes 100 percent alone has the full duty. -/
theorem dutyOfMagnitude_eq_full_iff (tie : RoundTie) {c : Nat} : dutyOfMagnitude tie c = 4095 ↔ c = 6400 := by
  have := dutyOfMagnitude_bounds tie c
  omega

/-- Settles O21: the bounds of the duty on one side, the magnitude nearest to a duty on the other. -/
theorem everyDutyReachable : Obligations.EveryDutyReachable := by
  unfold Obligations.EveryDutyReachable
  refine ⟨fun tie m p hcap => ?full, fun tie m d hcap hband h0 h1 => ?every,
    fun tie m d hcap hband => ⟨?onlyThese, ?allThese⟩⟩
  case full =>
    obtain h | h := le_or_gt p.natAbs m.deadband.toNat
    · rw [scaleWith_duty_of_le tie h]; omega
    · rw [scaleWith_duty_of_lt tie h, dutyOfMagnitude_eq_full_iff]; omega
  case every =>
    lift d to Nat using h0
    obtain rfl | hpos := d.eq_zero_or_pos
    · exact ⟨0, scaleWith_duty_zero tie m⟩
    · refine ⟨_, scaleWith_duty_magnitudeOfDuty tie ?_ ?_⟩ <;> rw [magnitudeOfDuty] <;> omega
  case onlyThese =>
    rintro ⟨p, rfl⟩
    obtain h | h := le_or_gt p.natAbs m.deadband.toNat
    · exact .inl (scaleWith_duty_of_le tie h)
    · rw [scaleWith_duty_of_lt tie h]
      have hbound := dutyOfMagnitude_bounds tie (min m.maxpct.toNat p.natAbs)
      omega
  case allThese =>
    rintro (rfl | ⟨h0, h1⟩)
    · exact ⟨0, scaleWith_duty_zero tie m⟩
    · lift d to Nat using by omega
      refine ⟨_, scaleWith_duty_magnitudeOfDuty tie ?_ ?_⟩ <;> rw [magnitudeOfDuty] <;> omega

/-! ## Direction and polarity (R97, R98, R103) -/

theorem effectivePower_pos {m : MotorCfg} (h : m.polneg = false) (p : Int) : effectivePower m p = p := by
  rw [effectivePower, h]; rfl

theorem effectivePower_neg {m : MotorCfg} (h : m.polneg = true) (p : Int) : effectivePower m p = -p := if_pos h

theorem effectivePower_flip (m : MotorCfg) (p : Int) :
    effectivePower { m with polneg := !m.polneg } p = -effectivePower m p := by
  cases h : m.polneg with
  | false => rw [effectivePower_neg (by rfl), effectivePower_pos h]
  | true => rw [effectivePower_pos (by rfl), effectivePower_neg h, neg_neg]

theorem effectivePower_eq_zero_iff {m : MotorCfg} {p : Int} : effectivePower m p = 0 ↔ p = 0 := by
  rw [← Int.natAbs_eq_zero, natAbs_effectivePower, Int.natAbs_eq_zero]

theorem scaleWith_dir_iff {tie : RoundTie} {m : MotorCfg} {p : Int} :
    (scaleWith tie m p).dir = true ↔ 0 ≤ effectivePower m p := by
  rw [scaleWith_dir, decide_eq_true_iff]

theorem scaleWith_dir_zero (tie : RoundTie) (m : MotorCfg) : (scaleWith tie m 0).dir = true :=
  scaleWith_dir_iff.2 (effectivePower_eq_zero_iff.2 rfl).ge

/-- Flipping the polarity flips the direction bit of a power that is not 0. -/
theorem scaleWith_dir_flip (tie : RoundTie) (m : MotorCfg) {p : Int} (h : p ≠ 0) :
    (scaleWith tie { m with polneg := !m.polneg } p).dir = !(scaleWith tie m p).dir := by
  have hne : effectivePower m p ≠ 0 := effectivePower_eq_zero_iff.not.2 h
  rw [scaleWith_dir, scaleWith_dir, effectivePower_flip, ← decide_not]
  exact decide_eq_decide.2 (by omega)

/-- Settles O22: the rule on rationals above the deadband, the order of the duty, and the effective power. -/
theorem scaleMonotoneAndPolarity : Obligations.ScaleMonotoneAndPolarity := by
  unfold Obligations.ScaleMonotoneAndPolarity
  refine ⟨fun tie m p h => ?_, fun tie m p q => scaleWith_duty_mono tie m, fun _ _ _ => rfl,
    fun tie m p => ⟨?_, scaleWith_dir_flip tie m, ?_⟩⟩
  · rw [scaleWith_duty_eq_roundQ, if_neg h.not_ge]
  · rw [scaleWith_duty, scaleWith_duty]
  · rintro rfl
    exact ⟨scaleWith_dir_zero tie _, scaleWith_dir_zero tie m⟩

/-- Settles O17: the direction bit is the sign of the effective power, which only the polarity enters. -/
theorem directionIsSignOfEffectivePower : Obligations.DirectionIsSignOfEffectivePower := by
  unfold Obligations.DirectionIsSignOfEffectivePower
  refine ⟨fun m p h => ?forward, fun m p h => ?reversed, scaleWith_dir_zero _, fun m m' p h => ?others,
    fun m hpol hband => ?creep⟩
  case forward => rw [scale, scaleWith_dir_iff, effectivePower_pos h]
  case reversed => rw [scale, scaleWith_dir_iff, effectivePower_neg h, Int.neg_nonneg]
  case others => rw [scale, scale, scaleWith_dir, scaleWith_dir, effectivePower, effectivePower, h]
  case creep =>
    have hdir : (scale m (-64)).dir = false := by rw [scale, scaleWith_dir, effectivePower_pos hpol]; rfl
    have hduty : (scale m (-64)).duty = 0 := scaleWith_duty_of_le _ (by rw [hband]; decide)
    rw [← hdir, ← hduty]

/-- Settles O18: the two sides of the deadband. -/
theorem deadbandThenFullScale : Obligations.DeadbandThenFullScale := by
  unfold Obligations.DeadbandThenFullScale
  refine ⟨fun m p => scaleWith_duty_of_le _, fun m p => scaleWith_duty_of_lt _, fun m hband hcap => ⟨?edge, ?atBand⟩,
    fun m p hband hp => scaleWith_duty_of_lt _ ?none, fun m p hband hp => scaleWith_duty_of_le _ ?full⟩
  case edge =>
    rw [scale, scaleWith_duty_of_lt _ (by rw [hband]; decide), hcap]
    exact dutyOfMagnitude_of_half_lt (c := 129) _ (by decide)
  case atBand => exact scaleWith_duty_of_le _ (by rw [hband]; decide)
  case none => rw [hband]; exact Int.natAbs_pos.2 hp
  case full => rw [hband]; exact hp

/-! ## MSETPOWER as a command (R96) -/

theorem Percent.value_of_num {p : Percent} (h : p.num = true) : p.value = some p.val.toInt := if_pos h

/-- MSETPOWER on a numeric operand is discovery, then the eight writes. -/
theorem motorSetPower_of_num (w : Wheel) {p : Percent} (hp : p.num = true) (s : State) :
    motorSetPower w p.value s =
      (ensureAddr s).bind fun _ t => runSteps (motorWrites (s.motors.get w) p.val.toInt) t := by
  rw [Percent.value_of_num hp, motorSetPower_eq]

/-- An MSETPOWER that raises an error responds with it. -/
theorem execMsetpower_raise {w : Wheel} {p : Percent} {s t : State} {e : ErrKind}
    (h : motorSetPower w p.value s = .raise e t) :
    exec (.msetpower w p) s = .next (t.respond (.motor w (.err e))) := by
  rw [exec, execMsetpower, h, finish_raise]

/-- MSETPOWER as a command when discovery settles and its eight writes complete. -/
theorem execMsetpower_complete (w : Wheel) {p : Percent} (hp : p.num = true) {s : State} {n : Nat} {a : Addr}
    (h : s.Ready n a 8) :
    ∃ t, exec (.msetpower w p) s = .next t ∧
      Ended s t (probeEvents n a ++ completedEvents a (motorWrites (s.motors.get w) p.val.toInt)) (n + 8)
        (s.ctl.withAddr a) (.motor w .ok) := by
  obtain ⟨t, ht, moved⟩ := discoverThen_complete (motorWrites (s.motors.get w) p.val.toInt)
    (by rwa [transactions_motorWrites])
  rw [← motorSetPower_of_num w hp] at ht
  rw [transactions_motorWrites] at moved
  exact ⟨t.respond (.motor w .ok), by rw [exec, execMsetpower, ht, finish_done], moved.respond _⟩

/-- Settles O35: the ends of discovery followed by the eight writes, each with its response. -/
theorem msetpowerDirectionThenDuty : Obligations.MsetpowerDirectionThenDuty := by
  unfold Obligations.MsetpowerDirectionThenDuty
  refine ⟨fun w p s hp => ?refused, fun w p s n a hp => execMsetpower_complete w hp, fun w p s hp hnone => ?noDevice,
    fun w p s n k a hp hd hk hc hf => ?fails⟩
  case refused =>
    obtain ⟨num, v⟩ := p
    cases hp
    exact execMsetpower_raise rfl
  case noDevice =>
    obtain ⟨t, ht, moved⟩ := discoverThen_none (fun _ t => runSteps (motorWrites (s.motors.get w) p.val.toInt) t) hnone
    rw [← motorSetPower_of_num w hp] at ht
    exact ⟨_, execMsetpower_raise ht, moved.respond _⟩
  case fails =>
    obtain ⟨t, ht, moved⟩ := discoverThen_fail (motorWrites (s.motors.get w) p.val.toInt) hd
      (by rwa [transactions_motorWrites]) hc hf
    rw [← motorSetPower_of_num w hp] at ht
    exact ⟨_, execMsetpower_raise ht, moved.respond _⟩

end Machine

end Sys2Proof
end

/-! PROOFS of the family of the mixer: MIX, the four-wheel commands DRIVE, SETPOWER4 and ALLSTOP, and CLEANUP. -/

section
namespace Sys2Proof.Machine

/-! ## MIX (R110, R115) -/

@[simp] theorem mix_get_backLeft (x y h : Int) : (mix x y h).get .backLeft = y - x - h := rfl
@[simp] theorem mix_get_frontLeft (x y h : Int) : (mix x y h).get .frontLeft = y + x + h := rfl
@[simp] theorem mix_get_backRight (x y h : Int) : (mix x y h).get .backRight = y + x - h := rfl
@[simp] theorem mix_get_frontRight (x y h : Int) : (mix x y h).get .frontRight = y - x + h := rfl

/-- Three powers of 16 bits mix to wheel powers within ±1536 percent. -/
theorem mix_get_range {x y h : Int} (hx : -32768 ≤ x ∧ x ≤ 32767) (hy : -32768 ≤ y ∧ y ≤ 32767)
    (hh : -32768 ≤ h ∧ h ≤ 32767) (w : Wheel) : -98304 ≤ (mix x y h).get w ∧ (mix x y h).get w ≤ 98303 := by
  cases w <;> simp only [mix_get_backLeft, mix_get_frontLeft, mix_get_backRight, mix_get_frontRight] <;> omega

theorem toInt_range (x : BitVec 16) : -32768 ≤ x.toInt ∧ x.toInt ≤ 32767 :=
  ⟨x.le_toInt, Int.le_of_lt_add_one x.toInt_lt⟩

/-- An 18-bit word that agrees with a wheel power modulo 2^18 is that power. -/
theorem toInt_ofInt_mix (x y h : BitVec 16) (w : Wheel) :
    (BitVec.ofInt 18 ((mix x.toInt y.toInt h.toInt).get w)).toInt = (mix x.toInt y.toInt h.toInt).get w := by
  obtain ⟨hlo, hhi⟩ := mix_get_range (toInt_range x) (toInt_range y) (toInt_range h) w
  exact BitVec.toInt_ofInt_eq_self (by decide) (by omega) (by omega)

theorem ofInt_sub (w : Nat) (a b : Int) : BitVec.ofInt w (a - b) = BitVec.ofInt w a - BitVec.ofInt w b := by
  rw [Int.sub_eq_add_neg, BitVec.ofInt_add, BitVec.ofInt_neg, BitVec.sub_eq_add_neg]

/-- Settles O23: 18-bit arithmetic is exact modulo 2^18, and the exact results fit. -/
theorem mixFitsEighteenBits : Obligations.MixFitsEighteenBits := by
  unfold Obligations.MixFitsEighteenBits
  refine ⟨fun _ _ _ => rfl, fun x y h => mix_get_range (toInt_range x) (toInt_range y) (toInt_range h), rfl,
    fun x y h => PerWheel.ext_get _ _ fun w => ?datapath⟩
  case datapath =>
    rw [← toInt_ofInt_mix]
    cases w <;> simp only [mix_get_backLeft, mix_get_frontLeft, mix_get_backRight, mix_get_frontRight, ofInt_sub,
      BitVec.ofInt_add] <;> rfl

/-- No wheel gets more than the three powers together. -/
theorem abs_mix_get_le (x y h : Int) (w : Wheel) : |(mix x y h).get w| ≤ |x| + |y| + |h| := by
  have hx := abs_le.1 (le_refl |x|)
  have hy := abs_le.1 (le_refl |y|)
  have hh := abs_le.1 (le_refl |h|)
  rw [abs_le]
  cases w <;> simp only [mix_get_backLeft, mix_get_frontLeft, mix_get_backRight, mix_get_frontRight] <;> omega

/-- Of the sum and the difference of two powers, one has the magnitude of both together. -/
theorem abs_add_or_abs_sub (a b : Int) : |a + b| = |a| + |b| ∨ |a - b| = |a| + |b| := by
  have hdiff := abs_add_eq_add_abs_iff a (-b)
  rw [abs_neg, ← sub_eq_add_neg] at hdiff
  rw [abs_add_eq_add_abs_iff, hdiff]
  omega

/-- Some wheel gets the three powers together: the one whose signs make the terms agree. -/
theorem exists_abs_mix_get_eq (x y h : Int) : ∃ w, |(mix x y h).get w| = |x| + |y| + |h| := by
  obtain hx | hx := abs_add_or_abs_sub y x
  · obtain hh | hh := abs_add_or_abs_sub (y + x) h
    · exact ⟨.frontLeft, by rw [mix_get_frontLeft, hh, hx, add_comm |y|]⟩
    · exact ⟨.backRight, by rw [mix_get_backRight, hh, hx, add_comm |y|]⟩
  · obtain hh | hh := abs_add_or_abs_sub (y - x) h
    · exact ⟨.frontRight, by rw [mix_get_frontRight, hh, hx, add_comm |y|]⟩
    · exact ⟨.backLeft, by rw [mix_get_backLeft, hh, hx, add_comm |y|]⟩

/-- MIX is linear, wheel by wheel. -/
theorem mix_get_linear (k x y h x' y' h' : Int) (w : Wheel) :
    (mix (k * x + x') (k * y + y') (k * h + h')).get w = k * (mix x y h).get w + (mix x' y' h').get w := by
  cases w <;> simp only [mix_get_backLeft, mix_get_frontLeft, mix_get_backRight, mix_get_frontRight] <;> ring

/-- Full forward power on a wheel is cut to the wheel's cap. -/
theorem clampMagnitude_full {m : MotorCfg} (hm : m.maxpct.toNat ≤ 6400) (w : Wheel) :
    clampMagnitude m ((mix 0 6400 0).get w).natAbs = m.maxpct.toNat := by
  have hfull : (mix 0 6400 0).get w = 6400 := by cases w <;> rfl
  rw [hfull]
  exact Nat.min_eq_left hm

/-- Settles O24: each part of R115 from MIX's four equations. -/
theorem mixProperties : Obligations.MixProperties := by
  unfold Obligations.MixProperties
  refine ⟨rfl, rfl, fun m w hm => clampMagnitude_full hm w, rfl, fun h => ?turn, mix_get_linear, fun x y h => ?sums,
    fun x y h => ⟨abs_mix_get_le x y h, exists_abs_mix_get_eq x y h⟩⟩
  case turn => simp [mix]
  case sums => refine ⟨?_, ?_, ?_, ?_, ?_⟩ <;> simp only [mix] <;> ring

/-! ## The wheels in order (R112, R132) -/

/-- A caught operation goes on with the status it ended with. -/
theorem Settles.settle {β : Type} {r : OpResult Unit} {st : Status} {t : State} (h : Settles r st t)
    (f : Status → State → OpResult β) : r.settle f = f st t := by
  obtain ⟨rfl, rfl⟩ | ⟨e, rfl, rfl⟩ := h
  · rfl
  · rfl

/-- The `st` of a four-wheel response is the first status in wheel order that is not OK. -/
theorem find_firstFailure (wst : PerWheel Status) :
    [wst.backLeft, wst.frontLeft, wst.backRight, wst.frontRight].find? (fun r => r ≠ .ok) =
      if firstFailure wst = .ok then none else some (firstFailure wst) := by
  unfold firstFailure
  split_ifs <;> simp_all

section
variable {p : PerWheel (Option Int)} {s s1 s2 s3 s4 : State} {r0 r1 r2 r3 : Status}

/-- SETPOWER4 is the four motors in order, each from the state the one before left. -/
theorem setPower4_settles (h0 : Settles (motorSetPower .backLeft p.backLeft s) r0 s1)
    (h1 : Settles (motorSetPower .frontLeft p.frontLeft s1) r1 s2)
    (h2 : Settles (motorSetPower .backRight p.backRight s2) r2 s3)
    (h3 : Settles (motorSetPower .frontRight p.frontRight s3) r3 s4) :
    setPower4 p s = .done ⟨r0, r1, r2, r3⟩ s4 := by
  simp only [setPower4, Wheel.order, wheelLoop, PerWheel.get, h0.settle, h1.settle, h2.settle, h3.settle]
  rfl

/-- What a four-wheel command answers when its motors end so. -/
theorem finishWheels_settles (h0 : Settles (motorSetPower .backLeft p.backLeft s) r0 s1)
    (h1 : Settles (motorSetPower .frontLeft p.frontLeft s1) r1 s2)
    (h2 : Settles (motorSetPower .backRight p.backRight s2) r2 s3)
    (h3 : Settles (motorSetPower .frontRight p.frontRight s3) r3 s4) :
    ∃ st, finishWheels (setPower4 p s) = { s4 with responses := s4.responses ++ [⟨st, ⟨r0, r1, r2, r3⟩⟩] } ∧
      [r0, r1, r2, r3].find? (fun r => r ≠ .ok) = (if st = .ok then none else some st) :=
  ⟨_, by rw [setPower4_settles h0 h1 h2 h3]; rfl, find_firstFailure ⟨r0, r1, r2, r3⟩⟩

end

/-- Four non-numeric powers: every wheel is refused, with no bus event (R96, R112). -/
theorem setPower4_nonNumeric (s : State) : setPower4 (.all none) s = .done (.all (.err .invalidInput)) s := rfl

/-! ## The wheels when nothing fails -/

/-- SETPOWER4 with a numeric power when every transaction completes. -/
theorem setPower4_complete {p : PerWheel (Option Int)} (hp : anyNumeric p = true) {s : State} {n : Nat} {a : Addr}
    (h : s.Ready n a (transactions (wheelWrites s.motors p))) :
    ∃ t, setPower4 p s = .done (wheelStatuses p) t ∧
      Moved s t (probeEvents n a ++ completedEvents a (wheelWrites s.motors p))
        (n + transactions (wheelWrites s.motors p)) (s.ctl.withAddr a) :=
  wheelLoop_complete p Wheel.order (.all .ok) h (.inr (List.any_eq_true.1 hp))

/-- Four numeric powers take four motors' eight writes. -/
theorem transactions_wheelWrites (m : PerWheel MotorCfg) (q : PerWheel Int) :
    transactions (wheelWrites m (q.map some)) = 32 := by
  simp [wheelWrites, Wheel.order]

/-- A four-wheel command with four numeric powers when every transaction completes. -/
theorem finishWheels_complete (q : PerWheel Int) {s : State} {n : Nat} {a : Addr} (h : s.Ready n a 32) :
    Ended s (finishWheels (setPower4 (q.map some) s))
      (probeEvents n a ++ completedEvents a (wheelWrites s.motors (q.map some))) (n + 32) (s.ctl.withAddr a)
      (.wheels (.all .ok)) := by
  obtain ⟨t, ht, moved⟩ := setPower4_complete (p := q.map some) rfl (by rwa [transactions_wheelWrites])
  rw [transactions_wheelWrites] at moved
  rw [ht]
  exact moved.respond _

/-- Power 0 on a motor: the direction line high, PWM off, whatever its parameters (R114). -/
theorem motorWrites_zero (m : MotorCfg) :
    motorWrites m 0 = fullOnWrites m.dir.toNat ++ fullOffWrites m.pwm.toNat := by
  rw [motorWrites, scale_zero]
  rfl

/-- The writes of four zero powers. -/
theorem wheelWrites_zero (m : PerWheel MotorCfg) :
    wheelWrites m (.all (some 0)) =
      Wheel.order.flatMap fun w => fullOnWrites (m.get w).dir.toNat ++ fullOffWrites (m.get w).pwm.toNat := by
  simp only [wheelWrites, PerWheel.get_all, motorWrites_zero]

/-- Settles O38: four zero powers, all of whose writes complete. -/
theorem allstopStopsWithLinesHigh : Obligations.AllstopStopsWithLinesHigh := by
  unfold Obligations.AllstopStopsWithLinesHigh
  intro s n a h
  refine ⟨_, rfl, ?_⟩
  rw [← wheelWrites_zero]
  exact finishWheels_complete (.all 0) h

/-! ## DRIVE (R111) -/

section
variable {x y h : Percent}

/-- The wheel powers of three numeric inputs are MIX's. -/
theorem drivePowers_of_num (hx : x.num = true) (hy : y.num = true) (hh : h.num = true) :
    drivePowers x.value y.value h.value = (mix x.val.toInt y.val.toInt h.val.toInt).map some := by
  rw [Percent.value_of_num hx, Percent.value_of_num hy, Percent.value_of_num hh, drivePowers]

theorem Percent.value_of_num_false {p : Percent} (hp : p.num = false) : p.value = none :=
  if_neg (by rw [hp]; decide)

/-- A non-numeric input makes all four wheel powers non-numeric. -/
theorem drivePowers_of_not_num (hn : x.num = false ∨ y.num = false ∨ h.num = false) :
    drivePowers x.value y.value h.value = .all none := by
  obtain hx | hy | hh := hn
  · rw [Percent.value_of_num_false hx, drivePowers]
    rintro _ _ _ ⟨⟩
  · rw [Percent.value_of_num_false hy, drivePowers]
    rintro _ _ _ - ⟨⟩
  · rw [Percent.value_of_num_false hh, drivePowers]
    rintro _ _ _ - - ⟨⟩

/-- DRIVE with numeric inputs is the four motors on MIX's powers. -/
theorem exec_drive_of_num (hx : x.num = true) (hy : y.num = true) (hh : h.num = true) (s : State) :
    exec (.drive x y h) s =
      .next (finishWheels (setPower4 ((mix x.val.toInt y.val.toInt h.val.toInt).map some) s)) := by
  rw [exec, execDrive, drivePowers_of_num hx hy hh]

end

/-- Settles O37: DRIVE is SETPOWER4's loop on MIX's powers. -/
theorem driveMixesThenDrives : Obligations.DriveMixesThenDrives := by
  unfold Obligations.DriveMixesThenDrives
  refine ⟨?completes, ?refused, ?fits, ?ordered⟩
  case completes =>
    intro x y h s n a hx hy hh hready
    exact ⟨_, exec_drive_of_num hx hy hh s, finishWheels_complete (mix x.val.toInt y.val.toInt h.val.toInt) hready⟩
  case refused =>
    intro x y h s hn
    rw [exec, execDrive, drivePowers_of_not_num hn, setPower4_nonNumeric]
    rfl
  case fits =>
    intro x y h bl fl br fr s hx hy hh hbl hfl hbr hfr
    rw [exec_drive_of_num hx hy hh, exec, execSetpower4, hbl, hfl, hbr, hfr]
    rfl
  case ordered =>
    intro x y h s s1 s2 s3 s4 r0 r1 r2 r3 hx hy hh h0 h1 h2 h3
    obtain ⟨st, hend, hst⟩ :=
      finishWheels_settles (p := (mix x.val.toInt y.val.toInt h.val.toInt).map some) h0 h1 h2 h3
    exact ⟨st, by rw [exec_drive_of_num hx hy hh, hend], hst⟩

/-! ## Rounds of discovery that find no device (R127, R132) -/

/-- No address is cached, and the probes of the next `rounds` rounds of discovery fail. -/
def State.NoDeviceFor (s : State) (rounds : Nat) : Prop :=
  s.ctl.addrValid = false ∧ ∀ j, j < 8 * rounds → s.outcome j = .fail

/-- The events of rounds of eight failed probes. -/
def failedRounds (rounds : Nat) : List Event := (List.replicate rounds failedProbes).flatten

/-- The operation completes with `v` after `rounds` rounds of failed probes and nothing else. -/
def EndsUnfound {α : Type} (s : State) (rounds : Nat) (v : α) (r : OpResult α) : Prop :=
  ∃ t, r = .done v t ∧ Moved s t (failedRounds rounds) (8 * rounds) s.ctl

section
variable {α β : Type} {s : State} {m n : Nat}

/-- After some of the rounds, the others are still to come. -/
theorem State.NoDeviceFor.after (h : s.NoDeviceFor (m + n)) {t : State} {evs : List Event}
    (moved : Moved s t evs (8 * m) s.ctl) : t.NoDeviceFor n :=
  ⟨by rw [moved.ctl]; exact h.1, fun j hj => by rw [moved.outcome]; exact h.2 _ (by omega)⟩

theorem State.NoDeviceFor.mono (h : s.NoDeviceFor n) (hmn : m ≤ n) : s.NoDeviceFor m :=
  ⟨h.1, fun j hj => h.2 j (by omega)⟩

theorem State.NoDeviceFor.noDevice (h : s.NoDeviceFor (n + 1)) : s.NoDevice := h.mono (m := 1) (by omega)

theorem failedRounds_add (m n : Nat) : failedRounds (m + n) = failedRounds m ++ failedRounds n := by
  rw [failedRounds, List.replicate_add, List.flatten_append]
  rfl

theorem failedRounds_one : failedRounds 1 = failedProbes := List.append_nil _

/-- Rounds of discovery one after the other. -/
theorem movedRounds_trans {t u : State} (h : Moved s t (failedRounds m) (8 * m) s.ctl)
    (h' : Moved t u (failedRounds n) (8 * n) t.ctl) : Moved s u (failedRounds (m + n)) (8 * (m + n)) s.ctl := by
  have both := h.trans h'
  rwa [h.ctl, ← failedRounds_add, ← Nat.mul_add] at both

theorem endsUnfound_done (s : State) (v : α) : EndsUnfound s 0 v (.done v s) := ⟨s, rfl, Moved.refl s⟩

theorem endsUnfound_bind {r : OpResult α} {v : α} {w : β} {f : α → State → OpResult β} (h : s.NoDeviceFor (m + n))
    (hr : s.NoDeviceFor m → EndsUnfound s m v r) (hf : ∀ t, t.NoDeviceFor n → EndsUnfound t n w (f v t)) :
    EndsUnfound s (m + n) w (r.bind f) := by
  obtain ⟨t, rfl, moved⟩ := hr (h.mono (by omega))
  obtain ⟨u, hu, moved'⟩ := hf t (h.after moved)
  exact ⟨u, hu, movedRounds_trans moved moved'⟩

/-- One operation that discovery ends, caught, and what follows. -/
theorem endsUnfound_settle {r : OpResult Unit} {w : β} {f : Status → State → OpResult β} (h : s.NoDeviceFor (n + 1))
    (hr : s.NoDevice → ∃ t, r = .raise .deviceNotFound t ∧ Moved s t failedProbes 8 s.ctl)
    (hf : ∀ t, t.NoDeviceFor n → EndsUnfound t n w (f (.err .deviceNotFound) t)) :
    EndsUnfound s (n + 1) w (r.settle f) := by
  obtain ⟨t, rfl, moved⟩ := hr h.noDevice
  rw [← failedRounds_one] at moved
  rw [Nat.add_comm] at h ⊢
  obtain ⟨u, hu, moved'⟩ := hf t (h.after moved)
  exact ⟨u, hu, movedRounds_trans moved moved'⟩

end

theorem setDuty_none {ch : Int} (hch : channelLegal ch = true) (duty : Int) {s : State} (h : s.NoDevice) :
    ∃ t, setDuty ch duty s = .raise .deviceNotFound t ∧ Moved s t failedProbes 8 s.ctl := by
  rw [setDuty_eq hch]
  exact discoverThen_none _ h

theorem motorSetPower_none (w : Wheel) (q : Int) {s : State} (h : s.NoDevice) :
    ∃ t, motorSetPower w (some q) s = .raise .deviceNotFound t ∧ Moved s t failedProbes 8 s.ctl := by
  rw [motorSetPower_eq]
  exact discoverThen_none _ h

/-- The four-wheel loop on numeric powers with no device: each wheel makes a round of its own. -/
theorem wheelLoop_none (q : PerWheel Int) (ws : List Wheel) (wst : PerWheel Status) {s : State}
    (h : s.NoDeviceFor ws.length) :
    EndsUnfound s ws.length (ws.foldl (fun wst w => wst.set w (.err .deviceNotFound)) wst)
      (wheelLoop (q.map some) ws wst s) := by
  induction ws generalizing wst s with
  | nil => exact endsUnfound_done s wst
  | cons w ws ih =>
    rw [wheelLoop, PerWheel.get_map]
    exact endsUnfound_settle h (motorSetPower_none w (q.get w)) fun t ht => ih _ ht

/-- Settles O36: the four motors in order, when each settles, when nothing fails, when none has a power and when no device
is there. -/
theorem setpower4RunsEveryWheel : Obligations.Setpower4RunsEveryWheel := by
  unfold Obligations.Setpower4RunsEveryWheel
  refine ⟨?ordered, ?completes, ?refused, ?noDevice⟩
  case ordered =>
    intro bl fl br fr s s1 s2 s3 s4 r0 r1 r2 r3 h0 h1 h2 h3
    obtain ⟨st, hend, hst⟩ :=
      finishWheels_settles (p := ⟨bl.value, fl.value, br.value, fr.value⟩) h0 h1 h2 h3
    exact ⟨st, by rw [exec, execSetpower4, hend], hst⟩
  case completes =>
    intro bl fl br fr s n a p hp hready
    obtain ⟨t, ht, moved⟩ := setPower4_complete hp hready
    exact ⟨t.respond (.wheels (wheelStatuses p)), by rw [exec, execSetpower4, ht, finishWheels_done], moved.respond _⟩
  case refused =>
    intro bl fl br fr s hbl hfl hbr hfr
    rw [exec, execSetpower4, Percent.value_of_num_false hbl, Percent.value_of_num_false hfl,
      Percent.value_of_num_false hbr, Percent.value_of_num_false hfr]
    rfl
  case noDevice =>
    intro bl fl br fr s hbl hfl hbr hfr hv hf
    obtain ⟨t, ht, moved⟩ := wheelLoop_none ⟨bl.val.toInt, fl.val.toInt, br.val.toInt, fr.val.toInt⟩ Wheel.order (.all .ok)
      (s := s) ⟨hv, hf⟩
    refine ⟨t.respond (.wheels (.all (.err .deviceNotFound))), ?_, moved.respond _⟩
    rw [exec, execSetpower4, Percent.value_of_num hbl, Percent.value_of_num hfl, Percent.value_of_num hbr,
      Percent.value_of_num hfr]
    exact congrArg (fun r => Host.Outcome.next (finishWheels r)) ht

/-! ## CLEANUP (R116, R117) -/

/-- CLEANUP's first loop with no device. -/
theorem cleanupLoop_none (chs : List (BitVec 4)) {s : State} (h : s.NoDeviceFor chs.length) :
    EndsUnfound s chs.length () (cleanupLoop chs s) := by
  induction chs generalizing s with
  | nil => exact endsUnfound_done s ()
  | cons ch chs ih =>
    exact endsUnfound_settle h (setDuty_none (channelLegal_channel ch) 0) fun t ht => ih ht

/-- CLEANUP's second loop with no device. -/
theorem lowerLoop_none (ws : List Wheel) {s : State} (h : s.NoDeviceFor ws.length) :
    EndsUnfound s ws.length () (lowerLoop ws s) := by
  induction ws generalizing s with
  | nil => exact endsUnfound_done s ()
  | cons w ws ih =>
    exact endsUnfound_settle h (setDuty_none (channelLegal_channel (s.motors.get w).dir) (levelDuty false))
      fun t ht => ih ht

/-- CLEANUP when discovery settles and its 80 writes complete. -/
theorem cleanupAll_ready {s : State} {n : Nat} {a : Addr} (h : s.Ready n a 80) :
    ∃ t, cleanupAll s = .done () t ∧
      Moved s t (probeEvents n a ++ completedEvents a (cleanupSteps s.motors)) (n + 80) (s.ctl.withAddr a) := by
  obtain ⟨hd, hc⟩ := h
  obtain ⟨u, hu, found⟩ := ensureAddr_found hd
  have hv : u.ctl.addrValid = true := by rw [found.ctl]; rfl
  obtain ⟨t, ht, moved⟩ := cleanupAll_complete hv (found.completesFrom hc)
  have both := found.trans moved
  rw [found.ctl, found.motors] at both
  exact ⟨t, by rw [cleanupAll_found hu hv, ht], both⟩

/-- CLEANUP's writes as the zeroing of a list of channels: the sixteen, then the wheels' direction channels again. -/
theorem cleanupSteps_eq (m : PerWheel MotorCfg) :
    cleanupSteps m = (List.range 16 ++ Wheel.order.map fun w => (m.get w).dir.toNat).flatMap fullOffWrites := by
  rw [cleanupSteps, List.flatMap_append, List.flatMap_map]

/-- DEV after CLEANUP's writes: every channel full-off, nothing else changed (R117). -/
theorem cleanupSteps_dev (a : Addr) (m : PerWheel MotorCfg) (d : Memory) :
    (∀ ch, ch < 16 → FullOff ((completedEvents a (cleanupSteps m)).foldl Event.applyDev d) ch) ∧
    (∀ r, r < 0x06 ∨ 0x45 < r →
      Memory.read ((completedEvents a (cleanupSteps m)).foldl Event.applyDev d) r = Memory.read d r) := by
  rw [cleanupSteps_eq]
  obtain ⟨off, outside⟩ := fullOff_after a (List.range 16 ++ Wheel.order.map fun w => (m.get w).dir.toNat)
    (fun c hc => by
      obtain hc | hc := List.mem_append.1 hc
      · exact List.mem_range.1 hc
      · obtain ⟨w, -, rfl⟩ := List.mem_map.1 hc
        exact (m.get w).dir.isLt) d
  exact ⟨fun ch hch => off ch hch (.inr (List.mem_append_left _ (List.mem_range.2 hch))), outside⟩

/-- Settles O39: CLEANUP's operation and DEV after its writes; the probes before them leave DEV alone. -/
theorem cleanupWritesEverything : Obligations.CleanupWritesEverything := by
  unfold Obligations.CleanupWritesEverything
  intro s n a h
  obtain ⟨t, ht, moved⟩ := cleanupAll_ready h
  have hdev : t.dev = (completedEvents a (cleanupSteps s.motors)).foldl Event.applyDev s.dev := by
    rw [moved.dev, List.foldl_append, probeEvents_dev]
  obtain ⟨off, outside⟩ := cleanupSteps_dev a s.motors s.dev
  rw [← hdev] at off outside
  exact ⟨t.respond (.single .ok), by rw [exec, execCleanup, ht, finish_done], moved.respond _, off, outside⟩

/-- A block write with an address cached that does not hang settles, and its first write stands among its events
whatever became of it. -/
theorem setDuty_attempts (ch : BitVec 4) {s : State} (hv : s.ctl.addrValid = true)
    (hh : (setDuty ch.toNat 0 s).hangs = false) :
    ∃ st t evs n f, Settles (setDuty ch.toNat 0 s) st t ∧ Moved s t evs n s.ctl ∧
      Event.write s.ctl.addr (blockReg ch.toNat 0) 0x00 f ∈ evs := by
  rw [setDuty_eq (channelLegal_channel ch), ensureAddr_cached hv, OpResult.bind_done] at hh ⊢
  obtain ⟨t, e, moved⟩ | ⟨k, t, hk, e, moved⟩ | ⟨k, t, hk, e, moved⟩ :=
    runSteps_cases (dutyWrites (ch.toNat : Int).toNat 0) s
  · exact ⟨_, t, _, _, .completed, .inl ⟨e, rfl⟩, moved, List.mem_cons_self⟩
  · cases k with
    | zero => exact ⟨_, t, _, _, .failed, .inr ⟨_, e, rfl⟩, moved, List.mem_cons_self⟩
    | succ k => exact ⟨_, t, _, _, .completed, .inr ⟨_, e, rfl⟩, moved, List.mem_cons_self⟩
  · rw [e] at hh
    cases hh

/-- Every channel's block is attempted in the events `evs` at the address `a`. -/
def Attempts (a : Addr) (chs : List (BitVec 4)) (evs : List Event) : Prop :=
  ∀ ch ∈ chs, ∃ f, Event.write a (blockReg ch.toNat 0) 0x00 f ∈ evs

theorem Attempts.mono {a : Addr} {chs : List (BitVec 4)} {evs evs' : List Event} (h : Attempts a chs evs)
    (hsub : evs ⊆ evs') : Attempts a chs evs' := fun ch hch => (h ch hch).imp fun _ hf => hsub hf

/-- A caught operation hangs if what is caught does. -/
theorem OpResult.hangs_of_settle {α β : Type} {r : OpResult α} {f : Status → State → OpResult β}
    (h : (r.settle f).hangs = false) : r.hangs = false := by
  cases r with
  | done | raise => rfl
  | hang t => exact h

/-- With an address cached CLEANUP's first loop attempts every channel, unless a transaction hangs (R116). -/
theorem cleanupLoop_attempts (chs : List (BitVec 4)) {s : State} (hv : s.ctl.addrValid = true)
    (hh : (cleanupLoop chs s).hangs = false) :
    ∃ evs, (cleanupLoop chs s).state.trace = s.trace ++ evs ∧ Attempts s.ctl.addr chs evs := by
  induction chs generalizing s with
  | nil => exact ⟨[], by simp [cleanupLoop], by simp [Attempts]⟩
  | cons ch chs ih =>
    rw [cleanupLoop] at hh ⊢
    obtain ⟨st, t, evs, n, f, hset, moved, hfirst⟩ := setDuty_attempts ch hv (OpResult.hangs_of_settle hh)
    rw [hset.settle] at hh ⊢
    obtain ⟨evs', htrace, hrest⟩ := ih (by rw [moved.ctl]; exact hv) hh
    rw [moved.ctl] at hrest
    exact ⟨evs ++ evs', by rw [htrace, moved.trace, List.append_assoc],
      List.forall_mem_cons.2 ⟨⟨f, List.mem_append_left _ hfirst⟩, hrest.mono (List.subset_append_right evs evs')⟩⟩

/-- A completed CLEANUP is its two loops, one after the other. -/
theorem cleanupAll_done_loops {s t : State} (h : cleanupAll s = .done () t) :
    ∃ u, cleanupLoop allChannels s = .done () u ∧ lowerLoop Wheel.order u = .done () t := by
  rw [cleanupAll] at h
  cases hu : cleanupLoop allChannels s with
  | done _ u => rw [hu] at h; exact ⟨u, rfl, h⟩
  | raise e u => rw [hu] at h; cases h
  | hang u => rw [hu] at h; cases h

theorem cleanupAll_never_raises (s : State) (e : ErrKind) (t : State) : cleanupAll s ≠ .raise e t := by
  rw [cleanupAll]
  cases hu : cleanupLoop allChannels s with
  | done _ u => exact lowerLoop_never_raises Wheel.order u e t
  | raise e' u => exact absurd hu (cleanupLoop_never_raises allChannels s e' u)
  | hang u => nofun

/-- Where no transaction hangs, CLEANUP completes, whatever fails (R116). -/
theorem cleanupAll_completes {s : State} (hs : s.stuck = false) (hn : s.NeverHangsFor 164) :
    ∃ t, cleanupAll s = .done () t ∧ t.stuck = false ∧ t.responses = s.responses := by
  have runs := cleanupAll_within (F := False) hs
  have hstuck := runs.moves.neverHangs hs hn ((cleanupAll_issues s).le (by decide))
  have hresponses := operation_responses .cleanup s
  have hhangs := runs.stuck.symm.trans hstuck
  cases h : cleanupAll s with
  | done _ t =>
    rw [h] at hstuck
    simp only [operation, h] at hresponses
    exact ⟨t, rfl, hstuck, hresponses⟩
  | raise e t => exact absurd h (cleanupAll_never_raises s e t)
  | hang t =>
    rw [h] at hhangs
    cases hhangs

theorem mem_allChannels (ch : BitVec 4) : ch ∈ allChannels := by
  revert ch; decide

/-- With an address cached a completed CLEANUP has attempted every channel. -/
theorem cleanupAll_attempts {s t : State} (hs : s.stuck = false) (hv : s.ctl.addrValid = true)
    (h : cleanupAll s = .done () t) : ∃ evs, t.trace = s.trace ++ evs ∧ Attempts s.ctl.addr allChannels evs := by
  obtain ⟨u, hu, ht⟩ := cleanupAll_done_loops h
  obtain ⟨evs, htrace, hall⟩ := cleanupLoop_attempts allChannels hv (by rw [hu]; rfl)
  have hus := (cleanupLoop_runs (W := fun _ _ => True) (F := False) allChannels hs fun _ _ _ _ _ => trivial).stuck
  rw [hu, OpResult.state_done] at htrace hus
  obtain ⟨evs', htrace', -⟩ :=
    (lowerLoop_runs (W := fun _ _ => True) (F := False) Wheel.order hus fun _ _ _ _ _ => trivial).moves.events
  rw [ht, OpResult.state_done] at htrace'
  exact ⟨evs ++ evs', by rw [htrace', htrace, List.append_assoc], hall.mono (List.subset_append_left evs evs')⟩

/-- CLEANUP with no device: twenty rounds of failed probes (R161). -/
theorem cleanupAll_none {s : State} (h : s.NoDeviceFor 20) : EndsUnfound s 20 () (cleanupAll s) :=
  endsUnfound_bind (m := 16) (n := 4) h (cleanupLoop_none allChannels) fun _ => lowerLoop_none Wheel.order

/-- Settles O40: CLEANUP catches every error, so it completes unless a transaction hangs; its first loop attempts every
channel. -/
theorem cleanupNeverFails : Obligations.CleanupNeverFails := by
  unfold Obligations.CleanupNeverFails
  constructor
  · intro s hs hn
    obtain ⟨t, ht, hstuck, hresponses⟩ := cleanupAll_completes hs hn
    refine ⟨t.respond (.single .ok), by rw [exec, execCleanup, ht, finish_done], hstuck, ?_, fun hv => ?_⟩
    · rw [State.respond_responses, hresponses]
    · obtain ⟨evs, htrace, hall⟩ := cleanupAll_attempts hs hv ht
      refine ⟨evs, htrace, fun ch hch => ?_⟩
      have hattempt := hall (BitVec.ofNat 4 ch) (mem_allChannels _)
      rwa [BitVec.toNat_ofNat, Nat.mod_eq_of_lt hch] at hattempt
  · intro s hv hf
    obtain ⟨t, ht, moved⟩ := cleanupAll_none ⟨hv, hf⟩
    exact ⟨t.respond (.single .ok), by rw [exec, execCleanup, ht, finish_done], moved.respond _⟩

end Sys2Proof.Machine
end

/-! PROOFS of the family of the exceptions: how a command ends when none of its transactions hangs, and the codes of the
statuses. -/

section
namespace Sys2Proof.Machine

/-! ## How a command ends (R135, R161) -/

/-- A command issues the transactions of its operation: the response takes none. -/
theorem exec_issued {i : Instr} {s t : State} (h : exec i s = .next t) : t.issued = (operation i s).2.state.issued := by
  obtain ⟨-, rfl⟩ | ⟨-, r, rfl⟩ := exec_end h
  · rfl
  · rw [State.respond_issued]

/-- No command issues more than 164 transactions (R161). -/
theorem exec_issued_le {i : Instr} {s t : State} (h : exec i s = .next t) : t.issued ≤ s.issued + 164 :=
  (exec_issued h).trans_le (operation_issues i s)

/-- INIT issues at most 8 probes and 39 writes (R161). -/
theorem exec_init_issued_le {hz : BitVec 16} {s t : State} (h : exec (.init hz) s = .next t) :
    t.issued ≤ s.issued + 47 :=
  (exec_issued h).trans_le (initController_issues hz s)

/-- A command none of whose transactions hangs ends working, with one response (R135). -/
theorem exec_responds {i : Instr} {s t : State} (hs : s.stuck = false) (hn : s.NeverHangsFor 164)
    (h : exec i s = .next t) : t.stuck = false ∧ ∃ r, t.responses = s.responses ++ [r] := by
  obtain ⟨u, hm, ⟨hu, rfl⟩ | ⟨hu, r, rfl⟩⟩ := exec_moves hs h
  · have working := hm.neverHangs hs hn (exec_issued_le h)
    exact absurd (working.symm.trans hu) Bool.false_ne_true
  · obtain ⟨-, -, hresponses, -, -⟩ := hm.frame
    exact ⟨hu, r, by rw [State.respond_responses, hresponses]⟩

/-- Settles O12: by the transactions that the operations issue; a command that ended stuck would have met a transaction
that hangs among its 164. -/
theorem commandEndsUnlessHung : Obligations.CommandEndsUnlessHung := by
  unfold Obligations.CommandEndsUnlessHung
  refine ⟨fun _ _ _ => exec_issued_le, fun _ _ _ => exec_init_issued_le, fun i s hs hn => ?_⟩
  obtain ⟨t, h⟩ := exec_next i s
  obtain ⟨hstuck, r, hresponses⟩ := exec_responds hs hn h
  exact ⟨t, r, h, hstuck, hresponses⟩

/-! ## The codes of the statuses (R125) -/

/-- Code 7 is free: OK and the six kinds of error have the codes below it. -/
theorem Status.code_ne_seven (st : Status) : st.code ≠ 7 := by
  cases st with
  | ok => decide
  | err e => cases e <;> decide

/-- Settles O42: the seven codes as R125 lists them, and none above. -/
theorem statusCodes : Obligations.StatusCodes := by
  unfold Obligations.StatusCodes
  exact ⟨rfl, rfl, rfl, rfl, rfl, rfl, rfl, Status.code_ne_seven⟩

end Sys2Proof.Machine
end

/-! PROOFS of the family of reset and hazards: the parameters a construction refuses, what its construction-time INIT ends
in, and that nothing from before it matters. -/

section
namespace Sys2Proof.Machine

/-! ## How a construction ends (R145 to R147) -/

/-- INIT's range check comes before anything else (R85). -/
theorem initController_refused {hz : BitVec 16} (h : hz.toNat < 24 ∨ 12207 < hz.toNat) (s : State) :
    initController hz s = .raise .rangeError s := by
  rw [initController, if_neg (not_freqLegal_iff.2 h)]

theorem construct_eq_deadWith_of_not_legal {x : XCfg} (hx : x.legal = false) (s : State) :
    construct x s = (fresh (motorsOf XCfg.default) s).deadWith .rangeError := by
  simp [construct, hx]

section
variable {x : XCfg} {s t : State}

theorem construct_eq_operational_of_done (hx : x.legal = true) (hi : x.init = true)
    (h : initController x.hz (fresh (motorsOf x) s) = .done () t) : construct x s = t.operational := by
  simp [construct, hx, hi, h]

theorem construct_eq_deadWith_of_raise {e : ErrKind} (hx : x.legal = true) (hi : x.init = true)
    (h : initController x.hz (fresh (motorsOf x) s) = .raise e t) : construct x s = t.deadWith e := by
  simp [construct, hx, hi, h]

/-- A refused parameter, of the construction or of its INIT, leaves a fresh block, DEAD with RangeError; only the motor
file tells the two apart. -/
theorem construct_refused
    (h : x.legal = false ∨ (x.init = true ∧ (x.hz.toNat < 24 ∨ 12207 < x.hz.toNat))) (s : State) :
    ∃ m, construct x s = (fresh m s).deadWith .rangeError := by
  by_cases hx : x.legal = true
  · obtain ⟨hi, hrange⟩ := h.resolve_left (by simp [hx])
    exact ⟨_, construct_eq_deadWith_of_raise hx hi (initController_refused hrange _)⟩
  · exact ⟨_, construct_eq_deadWith_of_not_legal (by simpa using hx) s⟩

end

/-- Settles O50: the check is its bounds, and a refused construction is a fresh block, whose fields are read off. -/
theorem constructionChecksParameters : Obligations.ConstructionChecksParameters := by
  unfold Obligations.ConstructionChecksParameters
  refine ⟨XCfg.legal_iff, fun s x rest hs hh hbad => ?_⟩
  obtain ⟨m, hm⟩ := construct_refused hbad (s.withHost rest)
  exact ⟨_, step_construct hs hh, by rw [hm]; exact ⟨rfl, rfl, rfl, rfl, rfl⟩⟩

/-! ## The construction-time INIT (R145, R147) -/

section
variable {s t : State} {x : XCfg} {rest : List HostRequest} {evs : List Event} {n : Nat} {c : Ctl}

/-- A construction whose INIT raises an error: the block is DEAD, the error is the construction's result, and the trace
is INIT's events. -/
theorem step_construct_of_init_raise {e : ErrKind} (hs : s.stuck = false) (hh : s.host = .construct x :: rest)
    (hx : x.legal = true) (hi : x.init = true)
    (h : initController x.hz (fresh (motorsOf x) (s.withHost rest)) = .raise e t)
    (moved : Moved (fresh (motorsOf x) (s.withHost rest)) t evs n c) :
    ∃ u, step s = .next u ∧ u.ctl.phase = .dead ∧ u.construction = some (.err e) ∧ u.trace = evs :=
  ⟨t.deadWith e, by rw [step_construct hs hh, construct_eq_deadWith_of_raise hx hi h], rfl, rfl, moved.trace⟩

/-- A construction whose INIT completes: the port is open over INIT's controller state, and the trace is INIT's events. -/
theorem step_construct_of_init_done (hs : s.stuck = false) (hh : s.host = .construct x :: rest)
    (hx : x.legal = true) (hi : x.init = true)
    (h : initController x.hz (fresh (motorsOf x) (s.withHost rest)) = .done () t)
    (moved : Moved (fresh (motorsOf x) (s.withHost rest)) t evs n c) :
    ∃ u, step s = .next u ∧ u.ctl = { c with phase := .operational } ∧ u.construction = some .ok ∧
      u.motors = motorsOf x ∧ u.trace = evs :=
  ⟨t.operational, by rw [step_construct hs hh, construct_eq_operational_of_done hx hi h],
    congrArg (fun d : Ctl => { d with phase := .operational }) moved.ctl, rfl, moved.motors, moved.trace⟩

end

/-- Settles O51: each end of INIT on the fresh block, carried to the end of the construction. -/
theorem constructionTimeInit : Obligations.ConstructionTimeInit := by
  unfold Obligations.ConstructionTimeInit
  intro s x rest hs hh hx hi start steps hmin hmax
  have hlegal := freqLegal_iff.2 ⟨hmin, hmax⟩
  refine ⟨fun hnone => ?noDevice, fun n a hready => ?completes, fun n k a hd hk hc hf => ?fails⟩
  case noDevice =>
    obtain ⟨t, ht, moved⟩ := initController_none hlegal hnone
    exact step_construct_of_init_raise hs hh hx hi ht moved
  case completes =>
    obtain ⟨t, ht, moved⟩ := initController_complete hlegal hready
    exact step_construct_of_init_done hs hh hx hi ht moved
  case fails =>
    obtain ⟨t, ht, moved⟩ := initController_fail hlegal hd hk hc hf
    exact step_construct_of_init_raise hs hh hx hi ht moved

/-! ## No memory of what was before (R145) -/

/-- The start of a construction takes only the environment's fields from the state before it. -/
theorem fresh_congr (m : PerWheel MotorCfg) {s s' : State} (hhost : s.host = s'.host) (hbus : s.bus = s'.bus)
    (hissued : s.issued = s'.issued) : fresh m s = fresh m s' := by
  rw [fresh, hhost, hbus, hissued, fresh]

/-- Settles O52: a construction sees the state before it only through its fresh start. -/
theorem constructionForgetsThePast : Obligations.ConstructionForgetsThePast := by
  unfold Obligations.ConstructionForgetsThePast
  intro x s s' hhost hbus hissued
  have same : ∀ m, fresh m s = fresh m s' := fun m => fresh_congr m hhost hbus hissued
  simp only [construct, same]

end Sys2Proof.Machine
end
